-- ==== Sys2Proof/Word.lean ====
section
/-! DEFINITION. The word types of the ALZ block (00_scope.md R6: every value is an unsigned integer, bit 0 is the
least significant). -/

namespace Sys2Proof

/-- A byte of SYMBUF, UBUF, PBUF or OBUF (10_state.md R34 to R37). -/
abbrev Byte := BitVec 8

/-- A host data word, a register, a command word (20_memory.md R50, 30_encoding.md R70). -/
abbrev Word := BitVec 32

end Sys2Proof
end

