-- ==== Sys2Proof/Syntax.lean ====
section
/-! DEFINITION. The fifteen commands of ALZ (30_encoding.md R74), one constructor per row of
spec/opcode_table.json. The only operand a command word carries is the bit count N (R71). -/

namespace Sys2Proof

/-- A command of ALZ. `n` is the field N = word[13:8] of format CN. -/
inductive Instr where
  /-- NOP, 40_control.md R85 -/
  | nop
  /-- RST, 40_control.md R86 -/
  | rst
  /-- PK_RST, 41_bitpacker.md R91 -/
  | pkRst
  /-- PK_PUSH n, 41_bitpacker.md R92 -/
  | pkPush (n : BitVec 6)
  /-- UP_POP n, 42_bitunpacker.md R101 -/
  | upPop (n : BitVec 6)
  /-- UP_ALIGN, 42_bitunpacker.md R102 -/
  | upAlign
  /-- FR_RUN, 45_framer.md R146 -/
  | frRun
  /-- LZ_BEGIN, 44_lzw.md R129 -/
  | lzBegin
  /-- LZ_STEP, 44_lzw.md R130 -/
  | lzStep
  /-- LZ_END, 44_lzw.md R131 -/
  | lzEnd
  /-- LZ_ENC, 46_lzw_composite.md R150 -/
  | lzEnc
  /-- LZ_RAW, 46_lzw_composite.md R151 -/
  | lzRaw
  /-- CT_LOOK, 43_colour.md R111 -/
  | ctLook
  /-- PZ_FOLD, 43_colour.md R113 -/
  | pzFold
  /-- PZ_UNFOLD, 43_colour.md R114 -/
  | pzUnfold
deriving DecidableEq, Repr

end Sys2Proof
end

