-- ==== Sys2Proof/WellFormed.lean ====
section
/-! DEFINITION. Which command values a command word can carry: the bit count of PK_PUSH and UP_POP is 0 to 32
(30_encoding.md R71); 33 to 63 are a reserved encoding (R75). -/

namespace Sys2Proof

/-- The legal range of N (30_encoding.md R71). -/
def countLegal (n : BitVec 6) : Bool := decide (n.toNat ≤ 32)

/-- Every operand of the command is in the range its encoding admits (30_encoding.md R71, R75). -/
def Instr.wellFormed : Instr → Bool
  | .pkPush n => countLegal n
  | .upPop n => countLegal n
  | .nop => true
  | .rst => true
  | .pkRst => true
  | .upAlign => true
  | .frRun => true
  | .lzBegin => true
  | .lzStep => true
  | .lzEnd => true
  | .lzEnc => true
  | .lzRaw => true
  | .ctLook => true
  | .pzFold => true
  | .pzUnfold => true

end Sys2Proof
end

