-- ==== Sys2Proof/Decode.lean ====
section
/-! DEFINITION. From a command word to a command and back (30_encoding.md R70 to R76): the decoder, total and
rejecting by name, and the encoder. Whether the unit a command needs is present (R75, HAS_CTM and HAS_PLUT) is a
matter of the machine, not of the word: the meanings test it (log 9). -/

namespace Sys2Proof

/-- Why a word is illegal (30_encoding.md R75). -/
inductive IllegalWord where
  /-- OP is not one of the fifteen listed values -/
  | unassignedOpcode (op : BitVec 8)
  /-- a must-be-zero bit of the row's format is set -/
  | reservedBitsSet (w : Word)
  /-- a CN word with N above 32 -/
  | countTooLarge (n : BitVec 6)
deriving DecidableEq, Repr

/-- What the decoder answers. -/
inductive Decoded where
  | instr (i : Instr)
  | rejected (why : IllegalWord)
deriving DecidableEq, Repr

/-- OP = word[7:0] (30_encoding.md R70). -/
def opField (w : Word) : BitVec 8 := w.extractLsb' 0 8

/-- N = word[13:8] (30_encoding.md R70, R71). -/
def countField (w : Word) : BitVec 6 := w.extractLsb' 8 6

/-- Format C0: word[31:8] must be 0 (30_encoding.md R70, R75). -/
def decodeC0 (i : Instr) (w : Word) : Decoded :=
  if w.extractLsb' 8 24 = 0 then .instr i else .rejected (.reservedBitsSet w)

/-- Format CN: word[31:14] must be 0 and N at most 32 (30_encoding.md R70, R75). -/
def decodeCN (f : BitVec 6 → Instr) (w : Word) : Decoded :=
  if w.extractLsb' 14 18 = 0 then
    if countLegal (countField w) then .instr (f (countField w)) else .rejected (.countTooLarge (countField w))
  else .rejected (.reservedBitsSet w)

/-- The decoder: it reads word[7:0], finds the row, and checks the remaining bits against the row's format
(30_encoding.md R74, R76). -/
def decode (w : Word) : Decoded :=
  match (opField w).toNat with
  | 0x00 => decodeC0 .nop w
  | 0x01 => decodeC0 .rst w
  | 0x10 => decodeC0 .pkRst w
  | 0x11 => decodeCN .pkPush w
  | 0x21 => decodeCN .upPop w
  | 0x22 => decodeC0 .upAlign w
  | 0x30 => decodeC0 .frRun w
  | 0x40 => decodeC0 .lzBegin w
  | 0x41 => decodeC0 .lzStep w
  | 0x42 => decodeC0 .lzEnd w
  | 0x43 => decodeC0 .lzEnc w
  | 0x44 => decodeC0 .lzRaw w
  | 0x50 => decodeC0 .ctLook w
  | 0x60 => decodeC0 .pzFold w
  | 0x61 => decodeC0 .pzUnfold w
  | _ => .rejected (.unassignedOpcode (opField w))

/-- The opcode of a command (the column OP of 30_encoding.md R74). -/
def Instr.opcode : Instr → BitVec 8
  | .nop => 0x00
  | .rst => 0x01
  | .pkRst => 0x10
  | .pkPush _ => 0x11
  | .upPop _ => 0x21
  | .upAlign => 0x22
  | .frRun => 0x30
  | .lzBegin => 0x40
  | .lzStep => 0x41
  | .lzEnd => 0x42
  | .lzEnc => 0x43
  | .lzRaw => 0x44
  | .ctLook => 0x50
  | .pzFold => 0x60
  | .pzUnfold => 0x61

/-- The bits N of a command's word; 0 in format C0 (30_encoding.md R70). -/
def Instr.countBits : Instr → BitVec 6
  | .pkPush n => n
  | .upPop n => n
  | .nop => 0
  | .rst => 0
  | .pkRst => 0
  | .upAlign => 0
  | .frRun => 0
  | .lzBegin => 0
  | .lzStep => 0
  | .lzEnd => 0
  | .lzEnc => 0
  | .lzRaw => 0
  | .ctLook => 0
  | .pzFold => 0
  | .pzUnfold => 0

/-- The command word of a command, OP + 256 * N: OP in [7:0], N in [13:8], zeros above (30_encoding.md R70, R77). -/
def encode (i : Instr) : Word := BitVec.ofNat 32 (i.opcode.toNat + 2 ^ 8 * i.countBits.toNat)

/-- The command the decoder reads from a row of `nbits` bits `w`; every bit above `nbits` is 0. Each command is
one 32-bit word (30_encoding.md R70), so a value that needs more than 32 bits is no command. -/
def decodeTableWord (nbits w : Nat) : Option Instr :=
  if w % 2 ^ nbits < 2 ^ 32 then
    match decode (BitVec.ofNat 32 (w % 2 ^ nbits)) with
    | .instr i => some i
    | .rejected _ => none
  else none

end Sys2Proof
end

