-- ==== Sys2Proof/Config.lean ====
section
/-! DEFINITION. What one implementation of ALZ fixes (00_scope.md R5) and the values the spec leaves free
(93_implementation_defined.md U1, U2). The free values are opaque: nothing can evaluate them. -/

namespace Sys2Proof

/-- The open implementation parameters of 00_scope.md R5. They are fields of the machine's state that no step
changes (10_state.md R18; log 4). -/
structure Params where
  /-- bytes of SYMBUF -/
  symCap : Nat
  /-- bytes of UBUF -/
  uCap : Nat
  /-- bytes of PBUF -/
  pCap : Nat
  /-- bytes of OBUF -/
  oCap : Nat
  /-- colour-table multiplexer present -/
  hasCtm : Bool
  /-- posterization LUT present -/
  hasPlut : Bool
deriving DecidableEq, Repr

/-- The default of every open parameter (00_scope.md R5). -/
def Params.standard : Params :=
  { symCap := 65536, uCap := 65536, pCap := 131072, oCap := 131072, hasCtm := true, hasPlut := true }

/-- The range 00_scope.md R5 gives each capacity: at least 4, a multiple of 4, at most its window. -/
abbrev Params.Legal (p : Params) : Prop :=
  (4 ≤ p.symCap ∧ p.symCap ≤ 65536 ∧ p.symCap % 4 = 0) ∧ (4 ≤ p.uCap ∧ p.uCap ≤ 65536 ∧ p.uCap % 4 = 0) ∧
    (4 ≤ p.pCap ∧ p.pCap ≤ 131072 ∧ p.pCap % 4 = 0) ∧ (4 ≤ p.oCap ∧ p.oCap ≤ 131072 ∧ p.oCap % 4 = 0)

/-- The four byte memories of 10_state.md R13 (b). -/
inductive Space where
  | symbuf | ubuf | pbuf | obuf
deriving DecidableEq, Repr

/-- FREE VALUE (93_implementation_defined.md U1; log 5): the byte a byte memory holds at an index nothing has
written since hardware reset number `epoch`. -/
opaque Config.powerOnByte (epoch : Nat) (m : Space) (i : Nat) : Byte

/-- FREE VALUE (U1; log 5): the word CT holds at an index nothing has written since hardware reset `epoch`. -/
opaque Config.powerOnColour (epoch : Nat) (k : Nat) : Word

/-- FREE VALUE (U1; log 5): the word DICT holds at an index nothing has written since hardware reset `epoch`. -/
opaque Config.powerOnEntry (epoch : Nat) (c : Nat) : Word

/-- FREE VALUE (93_implementation_defined.md U2; log 6): the byte the host reads from PBUF at an index at or beyond
PK_BYTES, or from OBUF at or beyond OB_LEN. `gen` moves on whenever the state changes. -/
opaque Config.invalidByte (gen : Nat) (m : Space) (i : Nat) : Byte

/-- FREE VALUE (U2; log 6): the word the host reads from DICT at an index at or beyond LZ_DSIZE. -/
opaque Config.invalidEntry (gen : Nat) (c : Nat) : Word

end Sys2Proof
end

