-- ==== Sys2Proof/Machine/State.lean ====
section
/-! DEFINITION. The state of ALZ (10_state.md R13): the registers of R17, the six memories, the parameters of
00_scope.md R5, and four fields of the model's own. Plain data throughout. -/

namespace Sys2Proof.Machine

/-- STATUS.LZ_PHASE (10_state.md R15). The value 3 is never produced and has no constructor. -/
inductive Phase where
  | idle | active | ended
deriving DecidableEq, Repr

/-- KIND of a dictionary entry (10_state.md R32). -/
inductive Kind where
  /-- LIT: the one-symbol sequence [SYM] -/
  | lit
  /-- STR: the sequence of PREFIX followed by SYM -/
  | str
  /-- the control entry CLEAR -/
  | clearCode
  /-- the control entry END -/
  | endCode
deriving DecidableEq, Repr

/-- One entry of DICT (10_state.md R32): KIND, PREFIX and SYM. -/
structure DictEntry where
  kind : Kind
  /-- PREFIX, a code -/
  pre : BitVec 12
  /-- SYM, a symbol -/
  sym : Byte
deriving DecidableEq, Repr

/-- The two fields DONE and ERR of INT_STAT and of INT_EN (10_state.md R21). -/
structure IntBits where
  done : Bool
  err : Bool
deriving DecidableEq, Repr

/-- One move of the outside world, or of the engine, in the order they happen (00_scope.md R10; log 1). The widths
are those of the host port (20_memory.md R50). -/
inductive Input where
  /-- a host read of h_size at byte offset h_addr -/
  | read (addr : BitVec 19) (size : BitVec 2)
  /-- a host write of h_wdata, h_size, at byte offset h_addr -/
  | write (addr : BitVec 19) (size : BitVec 2) (data : Word)
  /-- the engine's turn: EngineComplete if it is enabled -/
  | engine
  /-- rst_n is driven low (70_reset_and_hazards.md R185) -/
  | hardwareReset
deriving DecidableEq, Repr

/-- What the host port last answered (20_memory.md R50, R52; log 3). -/
inductive Response where
  /-- no transfer since hardware reset -/
  | quiet
  /-- OK(value) of a read -/
  | okRead (v : Word)
  /-- OK of a write -/
  | okWrite
  /-- BusError of either -/
  | busError
deriving DecidableEq, Repr

/-- The whole state. Counters and lengths are held in fields of their register's width (10_state.md R17). -/
structure State where
  /-- the implementation parameters (00_scope.md R5); no step changes them (R18) -/
  params : Params
  /-- STATUS.BUSY (R19) -/
  busy : Bool
  /-- STATUS.ERR (R19) -/
  err : Bool
  /-- STATUS.LZ_PHASE (R15, R19) -/
  phase : Phase
  /-- CMD: the last accepted command word (R20) -/
  cmd : Word
  /-- INT_STAT (R21) -/
  intStat : IntBits
  /-- INT_EN (R21) -/
  intEn : IntBits
  /-- ERR_CODE[7:0] (R22) -/
  errCode : BitVec 8
  /-- ERR_INFO (R22) -/
  errInfo : Word
  /-- PK_DATA: value operand of PK_PUSH (R23) -/
  pkData : Word
  /-- PK_BITS: bits in the packed stream (R23) -/
  pkBits : Word
  /-- UP_LEN: length of the unpacker's buffer in bytes (R24) -/
  upLen : Word
  /-- UP_POS: the unpacker's cursor in bits (R24) -/
  upPos : Word
  /-- UP_DATA: result of UP_POP (R24) -/
  upData : Word
  /-- OB_LEN: bytes of framed output in OBUF (R25) -/
  obLen : Word
  /-- LZ_PALSIZE[8:0]: palette size p (R26) -/
  lzPalsize : BitVec 9
  /-- LZ_MAXBITS[3:0]: ceiling exponent m (R26) -/
  lzMaxbits : BitVec 4
  /-- LZ_LEN: number of input symbols N (R26) -/
  lzLen : Word
  /-- LZ_POS: index of the first symbol not yet encoded (R15, R27) -/
  lzPos : Word
  /-- LZ_W[3:0]: current code width (R27) -/
  lzW : BitVec 4
  /-- LZ_DSIZE[12:0]: dictionary size (R27) -/
  lzDsize : BitVec 13
  /-- LZ_LAST[11:0]: last code emitted (R27) -/
  lzLast : BitVec 12
  /-- CT_BPP[5:0]: pixel depth (R28) -/
  ctBpp : BitVec 6
  /-- PX_IN: pixel word operand (R28) -/
  pxIn : Word
  /-- PX_MASK[0]: mask bit operand (R28) -/
  pxMask : Bool
  /-- COLOR: [7:0] red, [15:8] green, [23:16] blue, [31:24] alpha (R28) -/
  color : Word
  /-- COLOR_T[0]: transparency flag (R28) -/
  colorT : Bool
  /-- PZ_CFG[2:0] = LEVEL (R29) -/
  pzLevel : BitVec 3
  /-- PZ_CFG[11:8] = ABITS (R29) -/
  pzAbits : BitVec 4
  /-- TUPLE: folded tuple (R29) -/
  tuple : Word
  /-- CT: 256 words, the colour table (R31) -/
  ct : List (Nat × Word)
  /-- DICT: 4096 entries, index = code (R32) -/
  dict : List (Nat × DictEntry)
  /-- SYMBUF: input symbols (R34) -/
  symbuf : List Host.Cell
  /-- UBUF: the unpacker's bytes (R35) -/
  ubuf : List Host.Cell
  /-- PBUF: the packed stream (R36) -/
  pbuf : List Host.Cell
  /-- OBUF: the framed output (R37) -/
  obuf : List Host.Cell
  /-- the model's own: hardware resets so far, the index of the free power-on contents (log 5) -/
  epoch : Nat
  /-- the model's own: state changes so far, the index of the free invalid reads (log 6) -/
  gen : Nat
  /-- the model's own: what the outside world has lined up (log 1) -/
  inputs : List Input
  /-- the model's own: the port's last response (log 3) -/
  port : Response
deriving DecidableEq, Repr

/-- Reasons for which the machine stops. There is none: every behaviour the spec describes, the nine command faults
and BusError among them, is a next state, and the spec names nothing that stops ALZ (60_exceptions.md R160, R171;
log 19). No one raises it; that it is empty is safe. -/
inductive Fault where
deriving DecidableEq, Repr

/-- Reasons for which the model gives no meaning. -/
inductive Refusal where
  /-- Raised only by an arm of `exec` whose command has no meaning yet (none is left); safe, since the model then
  says nothing about the hardware. -/
  | notModelled (mnemonic : String)
deriving DecidableEq, Repr

/-- What a command's meaning answers. -/
abbrev Result := Host.Outcome State Fault Refusal

/-- The state after hardware reset of an ALZ with parameters `p` (10_state.md R39, 70_reset_and_hazards.md R186).
The six memories list nothing: their contents are free values (U1; log 5). -/
def State.resetWith (p : Params) : State where
  params := p
  busy := false
  err := false
  phase := .idle
  cmd := 0
  intStat := { done := false, err := false }
  intEn := { done := false, err := false }
  errCode := 0
  errInfo := 0
  pkData := 0
  pkBits := 0
  upLen := 0
  upPos := 0
  upData := 0
  obLen := 0
  lzPalsize := 0
  lzMaxbits := 12
  lzLen := 0
  lzPos := 0
  lzW := 0
  lzDsize := 0
  lzLast := 0
  ctBpp := 0
  pxIn := 0
  pxMask := false
  color := 0
  colorT := false
  pzLevel := 0
  pzAbits := 8
  tuple := 0
  ct := []
  dict := []
  symbuf := []
  ubuf := []
  pbuf := []
  obuf := []
  epoch := 0
  gen := 0
  inputs := []
  port := .quiet

/-- The machine right after reset, with the default parameters of 00_scope.md R5 (log 4). -/
def State.reset : State := State.resetWith Params.standard

end Sys2Proof.Machine
end

