-- ==== Sys2Proof/Machine/Memory.lean ====
section
/-! DEFINITION. The store behind each of the six memories (10_state.md R13 (b)): a list of index and content pairs,
indexes strictly rising. An index that is not listed has not been written since hardware reset (log 16). -/

namespace Sys2Proof.Machine

/-- The content written last at index `a`, if any was written since hardware reset. -/
def Memory.lookup {α : Type} : List (Nat × α) → Nat → Option α
  | [], _ => none
  | (b, w) :: t, a => if a = b then some w else Memory.lookup t a

/-- Write `v` at index `a`, keeping the indexes rising. -/
def Memory.write {α : Type} : List (Nat × α) → Nat → α → List (Nat × α)
  | [], a, v => [(a, v)]
  | (b, w) :: t, a, v =>
    if a < b then (a, v) :: (b, w) :: t
    else if a = b then (a, v) :: t
    else (b, w) :: Memory.write t a v

/-- The canonical form: indexes strictly rising (so none is listed twice). What an unlisted index reads as is a free
value and no listed content, so no entry can repeat it (log 16). -/
def Memory.wf {α : Type} : List (Nat × α) → Bool
  | [] => true
  | [_] => true
  | (a, _) :: (b, w) :: t => decide (a < b) && Memory.wf ((b, w) :: t)

/-- Write the bytes `bs` at consecutive indexes from `i` on. -/
def Memory.writeMany {α : Type} : List (Nat × α) → Nat → List α → List (Nat × α)
  | m, _, [] => m
  | m, i, b :: bs => Memory.writeMany (Memory.write m i b) (i + 1) bs

end Sys2Proof.Machine
end

