-- ==== Sys2Proof/Machine/Operands.lean ====
section
/-! DEFINITION. What commands and host reads take their operands from: the fixed parameters (00_scope.md R5), the
arithmetic functions (R8), one content of each memory, the derived registers (10_state.md R23, R24, R27), the two
bit orders (20_memory.md R57, R58), the sequence of a code, and the channels of a colour. -/

namespace Sys2Proof.Machine

/-! ### Fixed parameters (00_scope.md R5) -/

/-- PAL_MAX: largest legal LZ_PALSIZE. -/
def palMax : Nat := 256

/-- DICT_CAP: entries of the dictionary memory. -/
def dictCap : Nat := 4096

/-- W_MAX: largest code width in bits. -/
def wMax : Nat := 12

/-- BLK_MAX: largest sub-block payload in bytes. -/
def blkMax : Nat := 255

/-- RAW_CHUNK: symbols per chunk on the RAW path. -/
def rawChunk : Nat := 126

/-! ### Functions of 00_scope.md R8 -/

/-- The least `k'` with `k ≤ k'` and `p ≤ 2 ^ k'`, searched for `fuel` turns. -/
def leastWidth (p : Nat) : Nat → Nat → Nat
  | 0, k => k
  | fuel + 1, k => if p ≤ 2 ^ k then k else leastWidth p fuel (k + 1)

/-- `clog2(p)`: the least `k` with `2 ^ k ≥ p` (00_scope.md R8). -/
def clog2 (p : Nat) : Nat := leastWidth p p 0

/-- `W0(p)`: the initial code width; 0 where no width is legal (00_scope.md R8). -/
def initialWidth (p : Nat) : Nat := if p = 0 ∨ palMax < p then 0 else max 2 (clog2 p + 1)

/-- `ceil(a / b)` (00_scope.md R6). -/
def ceilDiv (a b : Nat) : Nat := (a + b - 1) / b

/-! ### One content of a memory (00_scope.md R7); never written contents are free values (U1) -/

/-- Content `i` of a byte memory `l`: what was written last, else the free power-on value of the epoch. -/
def byteAt (epoch : Nat) (m : Space) (l : List Host.Cell) (i : Nat) : Byte :=
  (Memory.lookup l i).getD (Config.powerOnByte epoch m i)

/-- SYMBUF[i] (10_state.md R34). -/
def readSym (s : State) (i : Nat) : Byte := byteAt s.epoch .symbuf s.symbuf i

/-- UBUF[i] (10_state.md R35). -/
def readUbuf (s : State) (i : Nat) : Byte := byteAt s.epoch .ubuf s.ubuf i

/-- PBUF[i] (10_state.md R36). -/
def readPbuf (s : State) (i : Nat) : Byte := byteAt s.epoch .pbuf s.pbuf i

/-- OBUF[i] (10_state.md R37). -/
def readObuf (s : State) (i : Nat) : Byte := byteAt s.epoch .obuf s.obuf i

/-- CT[k] (10_state.md R31). -/
def readCt (s : State) (k : Nat) : Word := (Memory.lookup s.ct k).getD (Config.powerOnColour s.epoch k)

/-- KIND as the two bits of a DICT word (10_state.md R32). -/
def kindBits : Kind → BitVec 2
  | .lit => 0
  | .str => 1
  | .clearCode => 2
  | .endCode => 3

/-- The kind that two bits of a DICT word stand for (10_state.md R32). -/
def kindOfBits (b : BitVec 2) : Kind :=
  if b = 0 then .lit else if b = 1 then .str else if b = 2 then .clearCode else .endCode

/-- A dictionary entry as the word the host sees: [7:0] SYM, [19:8] PREFIX, [21:20] KIND, [31:22] 0 (R32). -/
def entryWord (e : DictEntry) : Word :=
  BitVec.ofNat 32 (e.sym.toNat + 2 ^ 8 * e.pre.toNat + 2 ^ 20 * (kindBits e.kind).toNat)

/-- The entry whose fields stand in a DICT word (10_state.md R32). -/
def entryOfWord (w : Word) : DictEntry :=
  { kind := kindOfBits (w.extractLsb' 20 2), pre := w.extractLsb' 8 12, sym := w.extractLsb' 0 8 }

/-- DICT[c] (10_state.md R32). -/
def readDict (s : State) (c : Nat) : DictEntry :=
  (Memory.lookup s.dict c).getD (entryOfWord (Config.powerOnEntry s.epoch c))

/-! ### Derived registers -/

/-- PK_BYTES = ceil(PK_BITS / 8) (10_state.md R23). -/
def pkBytes (s : State) : Nat := ceilDiv s.pkBits.toNat 8

/-- PK_TAIL: the value of the trailing byte of the packed stream, 0 if it is empty (10_state.md R23). -/
def pkTail (s : State) : Byte := if 0 < pkBytes s then readPbuf s (pkBytes s - 1) else 0

/-- UP_REMB: bytes in the byte-aligned unread tail, saturating at 0 (10_state.md R24). -/
def upRemb (s : State) : Nat := s.upLen.toNat - ceilDiv s.upPos.toNat 8

/-- LZ_W0 = W0(LZ_PALSIZE) (10_state.md R27). -/
def lzW0 (s : State) : Nat := initialWidth s.lzPalsize.toNat

/-! ### Bit orders -/

/-- Bit `j` of UBUF, most significant bit first (00_scope.md R8, 20_memory.md R57). -/
def ubufBit (s : State) (j : Nat) : Bool := (readUbuf s (j / 8)).getLsbD (7 - j % 8)

/-- Bit `j` of PBUF, least significant bit first (00_scope.md R8, 20_memory.md R58). -/
def pbufBit (s : State) (j : Nat) : Bool := (readPbuf s (j / 8)).getLsbD (j % 8)

/-- `up_peek(pos, n)`: the `n` bits of UBUF from stream position `pos`, first bit most significant
(42_bitunpacker.md R100). -/
def upPeek (s : State) (pos : Nat) : Nat → Nat
  | 0 => 0
  | n + 1 => 2 * upPeek s pos n + (ubufBit s (pos + n)).toNat

/-! ### Dictionary sequences and matching (00_scope.md R8, 44_lzw.md R126) -/

/-- `seq(c)` unfolded at most `fuel` times; `none` for the control entries and for a chain of prefixes that does
not end. -/
def seqWithin (s : State) : Nat → Nat → Option (List Byte)
  | 0, _ => none
  | fuel + 1, c =>
    match (readDict s c).kind with
    | .lit => some [(readDict s c).sym]
    | .str => (seqWithin s fuel (readDict s c).pre.toNat).map (fun q => q ++ [(readDict s c).sym])
    | .clearCode => none
    | .endCode => none

/-- `seq(c)`, the symbol sequence a code stands for (00_scope.md R8). A chain of prefixes that ends visits each of
the 4096 entries at most once, so the bound loses nothing (log 11). -/
def seqOf (s : State) (c : Nat) : Option (List Byte) := seqWithin s dictCap c

/-- SYMBUF[pos .. pos+l-1]. -/
def symbolsAt (s : State) (pos l : Nat) : List Byte := (List.range l).map (fun k => readSym s (pos + k))

/-- If code `c` is a candidate of `lz_match(pos)`, the length of its sequence: the entry has a sequence, the
sequence fits into the remaining input, and it is a prefix of it (44_lzw.md R126). -/
def candidateLength (s : State) (pos c : Nat) : Option Nat :=
  match seqOf s c with
  | none => none
  | some q =>
    if q.length ≤ s.lzLen.toNat - pos ∧ q = symbolsAt s pos q.length then some q.length else none

/-- The candidate of greatest length among the codes below `n`, with that length. Of two of one length the lower
code is kept; none exist in a state the rules can reach (44_lzw.md R127; log 10). -/
def longestBelow (s : State) (pos : Nat) : Nat → Option (Nat × Nat)
  | 0 => none
  | n + 1 =>
    match longestBelow s pos n, candidateLength s pos n with
    | best, none => best
    | none, some l => some (n, l)
    | some (c, l₀), some l => if l₀ < l then some (n, l) else some (c, l₀)

/-- `lz_match(pos)`: the code of the longest dictionary entry that is a prefix of the remaining input, and the
length of its sequence (44_lzw.md R126). -/
def lzMatch (s : State) (pos : Nat) : Option (Nat × Nat) := longestBelow s pos s.lzDsize.toNat

/-! ### Colours (10_state.md R28, R31; 43_colour.md R110, R112) -/

/-- A Colour, or a tuple, of its four channels: [31:24] alpha, [23:16] blue, [15:8] green, [7:0] red (R28, R29). -/
def colourOf (alpha blue green red : Byte) : Word :=
  BitVec.ofNat 32 (red.toNat + 2 ^ 8 * green.toNat + 2 ^ 16 * blue.toNat + 2 ^ 24 * alpha.toNat)

/-- Byte `[31:24]` of a word. -/
def byte3 (w : Word) : Byte := w.extractLsb' 24 8

/-- Byte `[23:16]` of a word. -/
def byte2 (w : Word) : Byte := w.extractLsb' 16 8

/-- Byte `[15:8]` of a word. -/
def byte1 (w : Word) : Byte := w.extractLsb' 8 8

/-- Byte `[7:0]` of a word. -/
def byte0 (w : Word) : Byte := w.extractLsb' 0 8

/-- `px_colour(b, px)`: the Colour of one pixel of depth `b` (43_colour.md R110). The reserved byte of a table entry
is ignored; 8 bits and less, and 24 bits, are opaque. -/
def pxColour (s : State) (b : Nat) (px : Word) : Word :=
  if b ≤ 8 then
    let e := readCt s px.toNat
    colourOf 255 (byte0 e) (byte1 e) (byte2 e)
  else if b = 24 then colourOf 255 (byte2 px) (byte1 px) (byte0 px)
  else colourOf (byte0 px) (byte3 px) (byte2 px) (byte1 px)

/-- `sa(i, ab)`: the shift of the alpha channel (43_colour.md R112). -/
def alphaShift (level abits : Nat) : Nat := max level (8 - abits)

/-- `fold(i, ab, col, t)` (43_colour.md R112). -/
def foldColour (level abits : Nat) (col : Word) (t : Bool) : Word :=
  if t = true ∨ (byte3 col).toNat < 128 then 0
  else
    colourOf (byte3 col >>> alphaShift level abits) (byte2 col >>> level) (byte1 col >>> level)
      (byte0 col >>> level)

/-- `unfold(i, ab, tup)`: each channel shifted back and kept to 8 bits (43_colour.md R112). -/
def unfoldTuple (level abits : Nat) (tup : Word) : Word :=
  colourOf (byte3 tup <<< alphaShift level abits) (byte2 tup <<< level) (byte1 tup <<< level) (byte0 tup <<< level)

end Sys2Proof.Machine
end

