-- ==== Sys2Proof/Machine/Flags.lean ====
section
/-! DEFINITION. The flags of ALZ (10_state.md R16): STATUS, INT_STAT, INT_EN, the interrupt output, the
transparency flag, and what completion does to them. ALZ has no arithmetic condition codes. -/

namespace Sys2Proof.Machine

/-- The number of a phase in STATUS[5:4] (10_state.md R15, R19). -/
def phaseBits : Phase → BitVec 2
  | .idle => 0
  | .active => 1
  | .ended => 2

/-- The word STATUS reads as: [0] BUSY, [1] ERR, [5:4] LZ_PHASE, the rest 0 (10_state.md R19). -/
def statusWord (s : State) : Word :=
  BitVec.ofNat 32 (s.busy.toNat + 2 * s.err.toNat + 2 ^ 4 * (phaseBits s.phase).toNat)

/-- The word INT_STAT or INT_EN reads as: [0] DONE, [1] ERR, the rest 0 (10_state.md R21). -/
def intWord (b : IntBits) : Word := BitVec.ofNat 32 (b.done.toNat + 2 * b.err.toNat)

/-- The fields DONE and ERR of a written word (10_state.md R21, R30). -/
def intBitsOf (v : Word) : IntBits := { done := v.getLsbD 0, err := v.getLsbD 1 }

/-- Write 1 to clear: each field whose written bit is 1 goes to 0, the other stays (10_state.md R21). -/
def intCleared (b : IntBits) (v : Word) : IntBits :=
  { done := b.done && !v.getLsbD 0, err := b.err && !v.getLsbD 1 }

/-- The interrupt output: a level, 1 exactly when a pending field is enabled (60_exceptions.md R170; log 17). -/
def irq (s : State) : Bool := (s.intStat.done && s.intEn.done) || (s.intStat.err && s.intEn.err)

/-- COLOR_T after CT_LOOK: alpha below 128 or the mask bit set (43_colour.md R111). -/
def transparent (col : Word) (mask : Bool) : Bool := decide ((byte3 col).toNat < 128) || mask

/-- The flags of a command other than RST that completes without fault: BUSY to 0, INT_STAT.DONE to 1
(30_encoding.md R73 (a)). `gen` moves on because the state changed (log 6). -/
def finish (s : State) : State :=
  { s with busy := false, intStat := { s.intStat with done := true }, gen := s.gen + 1 }

end Sys2Proof.Machine
end

