-- ==== Sys2Proof/Machine/Ops.lean ====
section
/-! DEFINITION. The operations the meanings share: writing a content of a memory, the run of a command's rule, FAULT
ENTRY and the return from it, completion, reset, appending bits to the packed stream, framing. -/

namespace Sys2Proof.Machine

/-! ### Faults (60_exceptions.md) -/

/-- The nine faults (60_exceptions.md R160). -/
inductive FaultCode where
  | cmd | seq | cfg | pkRange | upBounds | sym | ovf | depth | pxRange
deriving DecidableEq, Repr

/-- The number ERR_CODE receives (60_exceptions.md R160). -/
def faultNumber : FaultCode → BitVec 8
  | .cmd => 0x01
  | .seq => 0x02
  | .cfg => 0x03
  | .pkRange => 0x04
  | .upBounds => 0x05
  | .sym => 0x06
  | .ovf => 0x07
  | .depth => 0x08
  | .pxRange => 0x09

/-- FAULT ENTRY, the effect of `raise F(info)` (60_exceptions.md R166). It saves the cause, invalidates both output
buffers and leaves ALZ in the ERR state; CMD, INT_EN, INT_STAT.DONE, every operand, result and configuration register,
the LZW working registers and all six memories stay. `gen` moves on because the state changed (log 6). -/
def faultEntry (f : FaultCode) (info : Word) (s : State) : State :=
  { s with
    errCode := faultNumber f
    errInfo := info
    err := true
    busy := false
    phase := .idle
    pkBits := 0
    obLen := 0
    intStat := { s.intStat with err := true }
    gen := s.gen + 1 }

/-- RETURN FROM THE ERR STATE, and the effect of RST in any state (40_control.md R86, 60_exceptions.md R168): every
register of 10_state.md R17 takes its reset value, the six memories keep their contents. -/
def softReset (s : State) : State :=
  { State.resetWith s.params with
    ct := s.ct
    dict := s.dict
    symbuf := s.symbuf
    ubuf := s.ubuf
    pbuf := s.pbuf
    obuf := s.obuf
    epoch := s.epoch
    gen := s.gen + 1
    inputs := s.inputs
    port := s.port }

/-- Hardware reset (70_reset_and_hazards.md R185): every register takes its reset value and the contents of the six
memories become unspecified, that is free values of a new epoch (log 5, log 13). -/
def hardwareReset (s : State) : State :=
  { State.resetWith s.params with epoch := s.epoch + 1, gen := s.gen + 1, inputs := s.inputs }

/-! ### The run of a command's rule -/

/-- How the pseudocode of a command ends (00_scope.md R7): it runs to its end, or executes `raise F(info)`, in either
case in the state its statements have made. -/
inductive Run where
  | ok (s : State)
  | raise (f : FaultCode) (info : Word) (s : State)
deriving DecidableEq, Repr

/-- One piece of pseudocode after another; no statement after a `raise` runs (00_scope.md R7). -/
def Run.andThen (r : Run) (k : State → Run) : Run :=
  match r with
  | .ok s => k s
  | .raise f info s => .raise f info s

/-- Completion (30_encoding.md R73): (a) the flags of a completed command, or (b) fault entry. -/
def conclude (r : Run) : Result :=
  match r with
  | .ok s => .next (finish s)
  | .raise f info s => .next (faultEntry f info s)

/-- The completion of an illegal word: `E_CMD` with the word, nothing else (30_encoding.md R75, 60_exceptions.md
R161). -/
def rejectWord (s : State) : Result := conclude (.raise .cmd s.cmd s)

/-! ### Appending bits to the packed stream (41_bitpacker.md R90) -/

/-- One turn of the loop of `pk_push` on PBUF `l`, for stream position `j` and bit `b`: a byte is set to 0 when the
stream first enters it, then the bit is added at its place. Where that place already held a 1 (in no state the rules
reach, 10_state.md R36) the byte is taken modulo 256 (log 15). -/
def mergeBit (epoch : Nat) (l : List Host.Cell) (j : Nat) (b : Bool) : List Host.Cell :=
  let l' := if j % 8 = 0 then Memory.write l (j / 8) 0 else l
  Memory.write l' (j / 8) (byteAt epoch .pbuf l' (j / 8) + BitVec.ofNat 8 (b.toNat * 2 ^ (j % 8)))

/-- The loop of `pk_push` on PBUF `l`: bits 0 to n-1 of `v`, bit 0 first, at stream positions from `base` on. -/
def mergeBits (epoch base v : Nat) : Nat → List Host.Cell → List Host.Cell
  | 0, l => l
  | n + 1, l => mergeBit epoch (mergeBits epoch base v n l) (base + n) (v.testBit n)

/-- `pk_push(v, n)` (41_bitpacker.md R90): it faults before writing anything if the stream would exceed PBUF. -/
def pkPush (v n : Nat) (s : State) : Run :=
  if 8 * s.params.pCap < s.pkBits.toNat + n then .raise .ovf 0 s
  else
    .ok { s with
      pbuf := mergeBits s.epoch s.pkBits.toNat v n s.pbuf
      pkBits := BitVec.ofNat 32 (s.pkBits.toNat + n) }

/-! ### Framing (45_framer.md R145) -/

/-- `frame(B)` with at most `fuel` sub-blocks. -/
def frameWithin : Nat → List Byte → List Byte
  | 0, _ => [0]
  | _ + 1, [] => [0]
  | fuel + 1, b :: bs =>
    BitVec.ofNat 8 (min blkMax (b :: bs).length) ::
      ((b :: bs).take blkMax ++ frameWithin fuel ((b :: bs).drop blkMax))

/-- `frame(B)`: sub-blocks of at most 255 bytes, each after its length byte, then the terminator
(45_framer.md R145). A sequence of b bytes has at most b sub-blocks. -/
def frame (bs : List Byte) : List Byte := frameWithin bs.length bs

/-- `len(frame(B))` for b bytes (45_framer.md R145). -/
def framedLength (b : Nat) : Nat := b + ceilDiv b blkMax + 1

/-- The packed stream PBUF[0 .. b-1]. -/
def packedBytes (s : State) (b : Nat) : List Byte := (List.range b).map (readPbuf s)

end Sys2Proof.Machine
end

