-- ==== Sys2Proof/Machine/Aperture.lean ====
section
/-! DEFINITION. The host aperture (20_memory.md): the register map of 10_state.md R17, the windows of R51, and
HostRead and HostWrite (R52), command acceptance among them (30_encoding.md R72). -/

namespace Sys2Proof.Machine

/-! ### The register map (10_state.md R17) -/

/-- The registers the host can name (10_state.md R17). -/
inductive Reg where
  | id | cap | capSym | capU | capP | capO | status | cmd | intStat
  | intEn | errCode | errInfo | pkData | pkBits | pkBytes | pkTail | upLen | upPos
  | upData | upRemb | obLen | lzPalsize | lzMaxbits | lzLen | lzPos | lzW | lzDsize
  | lzW0 | lzLast | ctBpp | pxIn | pxMask | color | colorT | pzCfg | tuple
deriving DecidableEq, Repr

/-- The offset of a register (10_state.md R17). -/
def regOffset : Reg → Nat
  | .id => 0x000
  | .cap => 0x004
  | .capSym => 0x008
  | .capU => 0x00C
  | .capP => 0x010
  | .capO => 0x014
  | .status => 0x018
  | .cmd => 0x01C
  | .intStat => 0x020
  | .intEn => 0x024
  | .errCode => 0x028
  | .errInfo => 0x02C
  | .pkData => 0x040
  | .pkBits => 0x044
  | .pkBytes => 0x048
  | .pkTail => 0x04C
  | .upLen => 0x050
  | .upPos => 0x054
  | .upData => 0x058
  | .upRemb => 0x05C
  | .obLen => 0x060
  | .lzPalsize => 0x070
  | .lzMaxbits => 0x074
  | .lzLen => 0x078
  | .lzPos => 0x07C
  | .lzW => 0x080
  | .lzDsize => 0x084
  | .lzW0 => 0x088
  | .lzLast => 0x08C
  | .ctBpp => 0x0A0
  | .pxIn => 0x0A4
  | .pxMask => 0x0A8
  | .color => 0x0AC
  | .colorT => 0x0B0
  | .pzCfg => 0x0C0
  | .tuple => 0x0C4

/-- The register at an offset; `none` in a hole of the map (10_state.md R30). -/
def regAt (off : Nat) : Option Reg :=
  match off with
  | 0x000 => some .id
  | 0x004 => some .cap
  | 0x008 => some .capSym
  | 0x00C => some .capU
  | 0x010 => some .capP
  | 0x014 => some .capO
  | 0x018 => some .status
  | 0x01C => some .cmd
  | 0x020 => some .intStat
  | 0x024 => some .intEn
  | 0x028 => some .errCode
  | 0x02C => some .errInfo
  | 0x040 => some .pkData
  | 0x044 => some .pkBits
  | 0x048 => some .pkBytes
  | 0x04C => some .pkTail
  | 0x050 => some .upLen
  | 0x054 => some .upPos
  | 0x058 => some .upData
  | 0x05C => some .upRemb
  | 0x060 => some .obLen
  | 0x070 => some .lzPalsize
  | 0x074 => some .lzMaxbits
  | 0x078 => some .lzLen
  | 0x07C => some .lzPos
  | 0x080 => some .lzW
  | 0x084 => some .lzDsize
  | 0x088 => some .lzW0
  | 0x08C => some .lzLast
  | 0x0A0 => some .ctBpp
  | 0x0A4 => some .pxIn
  | 0x0A8 => some .pxMask
  | 0x0AC => some .color
  | 0x0B0 => some .colorT
  | 0x0C0 => some .pzCfg
  | 0x0C4 => some .tuple
  | _ => none

/-- Whether the unit a register belongs to is present (10_state.md R28, R40). -/
def regPresent (p : Params) (r : Reg) : Bool :=
  match r with
  | .ctBpp | .pxIn | .pxMask => p.hasCtm
  | .color | .colorT => p.hasCtm || p.hasPlut
  | .pzCfg | .tuple => p.hasPlut
  | .id | .cap | .capSym | .capU | .capP | .capO | .status | .cmd
  | .intStat | .intEn | .errCode | .errInfo | .pkData | .pkBits | .pkBytes | .pkTail
  | .upLen | .upPos | .upData | .upRemb | .obLen | .lzPalsize | .lzMaxbits | .lzLen
  | .lzPos | .lzW | .lzDsize | .lzW0 | .lzLast => true

/-- The registers a host write may reach (column `access` of 10_state.md R17: RW, and RW1C for INT_STAT). -/
def regWritable (r : Reg) : Bool :=
  match r with
  | .cmd | .intStat | .intEn | .pkData | .upLen | .upPos | .lzPalsize | .lzMaxbits
  | .lzLen | .ctBpp | .pxIn | .pxMask | .color | .colorT | .pzCfg | .tuple => true
  | .id | .cap | .capSym | .capU | .capP | .capO | .status | .errCode
  | .errInfo | .pkBits | .pkBytes | .pkTail | .upData | .upRemb | .obLen | .lzPos
  | .lzW | .lzDsize | .lzW0 | .lzLast => false

/-- The registers refused while LZ_PHASE = ACTIVE (10_state.md R26, 20_memory.md R55). -/
def regLocked (r : Reg) : Bool := r == .lzPalsize || r == .lzMaxbits || r == .lzLen

/-- The ten registers readable in the BUSY-state (20_memory.md R55). -/
def regReadableBusy (r : Reg) : Bool :=
  [Reg.id, .cap, .capSym, .capU, .capP, .capO, .status, .cmd, .intStat, .intEn].contains r

/-- The constant of ID (10_state.md R18). -/
def idWord : Word := 0x4C5A0100

/-- CAP: [0] HAS_CTM, [1] HAS_PLUT, [7:4] W_MAX (10_state.md R18). -/
def capWord (p : Params) : Word := BitVec.ofNat 32 (p.hasCtm.toNat + 2 * p.hasPlut.toNat + 16 * wMax)

/-- PZ_CFG: [2:0] LEVEL, [11:8] ABITS, the rest 0 (10_state.md R29). -/
def pzCfgWord (s : State) : Word := BitVec.ofNat 32 (s.pzLevel.toNat + 2 ^ 8 * s.pzAbits.toNat)

/-- The word a register reads as: its implemented bits, the reserved ones 0 (10_state.md R18 to R30). -/
def readReg (s : State) (r : Reg) : Word :=
  match r with
  | .id => idWord
  | .cap => capWord s.params
  | .capSym => BitVec.ofNat 32 s.params.symCap
  | .capU => BitVec.ofNat 32 s.params.uCap
  | .capP => BitVec.ofNat 32 s.params.pCap
  | .capO => BitVec.ofNat 32 s.params.oCap
  | .status => statusWord s
  | .cmd => s.cmd
  | .intStat => intWord s.intStat
  | .intEn => intWord s.intEn
  | .errCode => s.errCode.setWidth 32
  | .errInfo => s.errInfo
  | .pkData => s.pkData
  | .pkBits => s.pkBits
  | .pkBytes => BitVec.ofNat 32 (pkBytes s)
  | .pkTail => (pkTail s).setWidth 32
  | .upLen => s.upLen
  | .upPos => s.upPos
  | .upData => s.upData
  | .upRemb => BitVec.ofNat 32 (upRemb s)
  | .obLen => s.obLen
  | .lzPalsize => s.lzPalsize.setWidth 32
  | .lzMaxbits => s.lzMaxbits.setWidth 32
  | .lzLen => s.lzLen
  | .lzPos => s.lzPos
  | .lzW => s.lzW.setWidth 32
  | .lzDsize => s.lzDsize.setWidth 32
  | .lzW0 => BitVec.ofNat 32 (lzW0 s)
  | .lzLast => s.lzLast.setWidth 32
  | .ctBpp => s.ctBpp.setWidth 32
  | .pxIn => s.pxIn
  | .pxMask => (BitVec.ofBool s.pxMask).setWidth 32
  | .color => s.color
  | .colorT => (BitVec.ofBool s.colorT).setWidth 32
  | .pzCfg => pzCfgWord s
  | .tuple => s.tuple

/-- The effect of a host write on a register: the implemented bits are stored, the others ignored (10_state.md R30);
INT_STAT is write 1 to clear (R21); CMD is command acceptance (30_encoding.md R72). A read-only register has no such
effect; `hostWrite` refuses the access before it gets here. -/
def writeReg (s : State) (r : Reg) (v : Word) : State :=
  match r with
  | .cmd => { s with cmd := v, busy := true }
  | .intStat => { s with intStat := intCleared s.intStat v }
  | .intEn => { s with intEn := intBitsOf v }
  | .pkData => { s with pkData := v }
  | .upLen => { s with upLen := v }
  | .upPos => { s with upPos := v }
  | .lzPalsize => { s with lzPalsize := v.setWidth 9 }
  | .lzMaxbits => { s with lzMaxbits := v.setWidth 4 }
  | .lzLen => { s with lzLen := v }
  | .ctBpp => { s with ctBpp := v.setWidth 6 }
  | .pxIn => { s with pxIn := v }
  | .pxMask => { s with pxMask := v.getLsbD 0 }
  | .color => { s with color := v }
  | .colorT => { s with colorT := v.getLsbD 0 }
  | .pzCfg => { s with pzLevel := v.extractLsb' 0 3, pzAbits := v.extractLsb' 8 4 }
  | .tuple => { s with tuple := v }
  | .id | .cap | .capSym | .capU | .capP | .capO | .status | .errCode
  | .errInfo | .pkBits | .pkBytes | .pkTail | .upData | .upRemb | .obLen | .lzPos
  | .lzW | .lzDsize | .lzW0 | .lzLast => s

/-! ### The windows (20_memory.md R51) -/

/-- What an offset of the aperture names: a register, a word of CT, an entry of DICT, a byte of a byte memory. -/
inductive Target where
  | reg (r : Reg)
  | ct (k : Nat)
  | dict (c : Nat)
  | byte (m : Space) (i : Nat)
deriving DecidableEq, Repr

/-- What is mapped at an offset below 0x80000, `none` where nothing is (20_memory.md R51; 10_state.md R30, R40). For
registers, CT and DICT the offset is word-aligned by R54. -/
def targetAt (p : Params) (off : Nat) : Option Target :=
  if off < 0x100 then
    match regAt off with
    | some r => if regPresent p r then some (.reg r) else none
    | none => none
  else if 0x400 ≤ off ∧ off < 0x800 then if p.hasCtm then some (.ct ((off - 0x400) / 4)) else none
  else if 0x4000 ≤ off ∧ off < 0x8000 then some (.dict ((off - 0x4000) / 4))
  else if 0x10000 ≤ off ∧ off < 0x10000 + p.symCap then some (.byte .symbuf (off - 0x10000))
  else if 0x20000 ≤ off ∧ off < 0x20000 + p.uCap then some (.byte .ubuf (off - 0x20000))
  else if 0x40000 ≤ off ∧ off < 0x40000 + p.pCap then some (.byte .pbuf (off - 0x40000))
  else if 0x60000 ≤ off ∧ off < 0x60000 + p.oCap then some (.byte .obuf (off - 0x60000))
  else none

/-- The sizes a target takes: registers, CT and DICT 4 bytes only, byte memories 1, 2 or 4 (20_memory.md R54). -/
def sizeAllowed (t : Target) (n : Nat) : Bool :=
  match t with
  | .byte _ _ => n == 1 || n == 2 || n == 4
  | .reg _ => n == 4
  | .ct _ => n == 4
  | .dict _ => n == 4

/-- Conditions (1) to (3) of 20_memory.md R52: the target of a well-sized, aligned access to a mapped location. -/
def accessTarget (s : State) (off n : Nat) : Option Target :=
  if (n = 1 ∨ n = 2 ∨ n = 4) ∧ off % n = 0 then
    match targetAt s.params off with
    | some t => if sizeAllowed t n then some t else none
    | none => none
  else none

/-- Which reads the state permits (20_memory.md R55): every mapped location, in the BUSY-state ten registers only. -/
def readPermitted (s : State) (t : Target) : Bool :=
  if s.busy then
    match t with
    | .reg r => regReadableBusy r
    | .ct _ => false
    | .dict _ => false
    | .byte _ _ => false
  else true

/-- The host-writable locations (condition (4) of 20_memory.md R52). -/
def hostWritable (t : Target) : Bool :=
  match t with
  | .reg r => regWritable r
  | .ct _ => true
  | .dict _ => false
  | .byte .symbuf _ => true
  | .byte .ubuf _ => true
  | .byte .pbuf _ => false
  | .byte .obuf _ => false

/-- The locations refused while LZ_PHASE = ACTIVE (20_memory.md R55). -/
def lockedWhileActive (t : Target) : Bool :=
  match t with
  | .reg r => regLocked r
  | .ct _ => false
  | .dict _ => false
  | .byte m _ => m == .symbuf

/-- Which writes the state permits (20_memory.md R55): none in the BUSY-state, only RST to CMD in the ERR-state. -/
def writePermitted (s : State) (t : Target) (v : Word) : Bool :=
  if s.busy then false
  else if s.err then t == .reg .cmd && v == 1
  else hostWritable t && !(s.phase == .active && lockedWhileActive t)

/-! ### Reading and writing a target -/

/-- One byte of a byte memory as the host reads it: at or beyond the valid length of PBUF and OBUF a free value
(93_implementation_defined.md U2; log 6). -/
def hostByte (s : State) (m : Space) (i : Nat) : Byte :=
  match m with
  | .symbuf => readSym s i
  | .ubuf => readUbuf s i
  | .pbuf => if i < pkBytes s then readPbuf s i else Config.invalidByte s.gen .pbuf i
  | .obuf => if i < s.obLen.toNat then readObuf s i else Config.invalidByte s.gen .obuf i

/-- The bytes from index `i` on as one value, the byte at `i` in bits [7:0] (20_memory.md R53). -/
def hostBytes (s : State) (m : Space) (i : Nat) : Nat → Nat
  | 0 => 0
  | n + 1 => (hostByte s m i).toNat + 256 * hostBytes s m (i + 1) n

/-- The value a read of `n` bytes returns. An index of DICT at or beyond LZ_DSIZE reads as a free value (U2; log 6). -/
def readTarget (s : State) (t : Target) (n : Nat) : Word :=
  match t with
  | .reg r => readReg s r
  | .ct k => readCt s k
  | .dict c => if c < s.lzDsize.toNat then entryWord (readDict s c) else Config.invalidEntry s.gen c
  | .byte m i => BitVec.ofNat 32 (hostBytes s m i n)

/-- The low `n` bytes of a word, byte [7:0] first (20_memory.md R53). -/
def bytesOf (v : Word) (n : Nat) : List Byte := (List.range n).map (fun k => v.extractLsb' (8 * k) 8)

/-- The effect of a write of `n` bytes on its target. PBUF, OBUF and DICT take none; `hostWrite` refuses them. -/
def writeTarget (s : State) (t : Target) (n : Nat) (v : Word) : State :=
  match t with
  | .reg r => writeReg s r v
  | .ct k => { s with ct := Memory.write s.ct k v }
  | .dict _ => s
  | .byte .symbuf i => { s with symbuf := Memory.writeMany s.symbuf i (bytesOf v n) }
  | .byte .ubuf i => { s with ubuf := Memory.writeMany s.ubuf i (bytesOf v n) }
  | .byte .pbuf _ => s
  | .byte .obuf _ => s

/-- The state `u` that a write to `t` makes of `s`. `gen` moves on with a write that changes the state, so that reads
and writes of the value that is there already move nothing (20_memory.md R56); command acceptance moves it at its
completion (log 6). -/
def writeMoves (t : Target) (s u : State) : State :=
  if t = .reg .cmd ∨ u = s then u else { u with gen := u.gen + 1 }

/-! ### Host access primitives (20_memory.md R52) -/

/-- `HostRead(off, n)`: OK(value), or `none` for BusError. It changes nothing (20_memory.md R52, R56). -/
def hostRead (s : State) (off n : Nat) : Option Word :=
  match accessTarget s off n with
  | some t => if readPermitted s t then some (readTarget s t n) else none
  | none => none

/-- `HostWrite(off, n, v)`: the state after OK, or `none` for BusError (20_memory.md R52; 30_encoding.md R72). Of a
value for 1 or 2 bytes only the low 8 or 16 bits are looked at (log 12). -/
def hostWrite (s : State) (off n : Nat) (v : Word) : Option State :=
  match accessTarget s off n with
  | some t => if writePermitted s t v then some (writeMoves t s (writeTarget s t n v)) else none
  | none => none

/-- The bytes of h_size: 0 = 1 byte, 1 = 2 bytes, 2 = 4 bytes; 3 is refused, and is given here as a number of bytes
that R52 refuses (20_memory.md R50). -/
def portBytes (size : BitVec 2) : Nat :=
  if size = 0 then 1 else if size = 1 then 2 else if size = 2 then 4 else 0

/-- A read transfer of the port: the response, and no other change (20_memory.md R56; log 3). -/
def portRead (s : State) (addr : BitVec 19) (size : BitVec 2) : State :=
  match hostRead s addr.toNat (portBytes size) with
  | some v => { s with port := .okRead v }
  | none => { s with port := .busError }

/-- A write transfer of the port: its effect and the response (20_memory.md R52; log 3). -/
def portWrite (s : State) (addr : BitVec 19) (size : BitVec 2) (data : Word) : State :=
  match hostWrite s addr.toNat (portBytes size) data with
  | some t => { t with port := .okWrite }
  | none => { s with port := .busError }

/-! ### The word the engine completes -/

/-- The command word in execution is the register CMD (10_state.md R38); ALZ fetches nothing else (20_memory.md R62). -/
def fetchWord (s : State) : Word := s.cmd

/-- `s` with the command `w` accepted, no other move lined up before its completion: what an accepted write of `w` to
CMD makes (30_encoding.md R72; log 7). Moves of the outside world that were lined up stay, after the engine's. -/
def acceptWord (s : State) (w : Word) : State :=
  { s with cmd := w, busy := true, inputs := if s.inputs = [] then [] else .engine :: s.inputs }

end Sys2Proof.Machine
end

