-- ==== Sys2Proof/Machine/BitPacker.lean ====
section
/-! DEFINITION. The bit-packer commands PK_RST and PK_PUSH (41_bitpacker.md). -/

namespace Sys2Proof.Machine

/-- The pseudocode of PK_RST (41_bitpacker.md R91). -/
def pkRstRun (s : State) : Run :=
  if s.phase = .active then .raise .seq s.cmd s else .ok { s with pkBits := 0 }

/-- PK_RST empties the packed stream (41_bitpacker.md R91). -/
def execPkRst (s : State) : Result := conclude (pkRstRun s)

/-- The pseudocode of PK_PUSH (41_bitpacker.md R92). -/
def pkPushRun (n : Nat) (s : State) : Run :=
  if s.phase = .active then .raise .seq s.cmd s
  else if 2 ^ n ≤ s.pkData.toNat then .raise .pkRange s.pkData s
  else pkPush s.pkData.toNat n s

/-- PK_PUSH n appends the low n bits of PK_DATA (41_bitpacker.md R92). A count above 32 is no legal word
(30_encoding.md R75; log 8). -/
def execPkPush (n : BitVec 6) (s : State) : Result :=
  if countLegal n then conclude (pkPushRun n.toNat s) else rejectWord s

end Sys2Proof.Machine
end

