-- ==== Sys2Proof/Machine/BitUnpacker.lean ====
section
/-! DEFINITION. The bit-unpacker commands UP_POP and UP_ALIGN (42_bitunpacker.md). -/

namespace Sys2Proof.Machine

/-- The pseudocode of UP_POP (42_bitunpacker.md R101). The sum does not wrap (00_scope.md R41). -/
def upPopRun (n : Nat) (s : State) : Run :=
  if s.params.uCap < s.upLen.toNat then .raise .cfg 5 s
  else if 8 * s.upLen.toNat < s.upPos.toNat + n then .raise .upBounds s.upPos s
  else
    .ok { s with
      upData := BitVec.ofNat 32 (upPeek s s.upPos.toNat n)
      upPos := BitVec.ofNat 32 (s.upPos.toNat + n) }

/-- UP_POP n consumes the next n bits into UP_DATA (42_bitunpacker.md R101). A count above 32 is no legal word
(30_encoding.md R75; log 8). -/
def execUpPop (n : BitVec 6) (s : State) : Result :=
  if countLegal n then conclude (upPopRun n.toNat s) else rejectWord s

/-- The pseudocode of UP_ALIGN (42_bitunpacker.md R102). -/
def upAlignRun (s : State) : Run :=
  if s.params.uCap < s.upLen.toNat then .raise .cfg 5 s
  else if 8 * s.upLen.toNat < s.upPos.toNat then .raise .upBounds s.upPos s
  else .ok { s with upPos := BitVec.ofNat 32 (8 * ceilDiv s.upPos.toNat 8) }

/-- UP_ALIGN moves the cursor up to the next byte boundary (42_bitunpacker.md R102). -/
def execUpAlign (s : State) : Result := conclude (upAlignRun s)

end Sys2Proof.Machine
end

