-- ==== Sys2Proof/Machine/Colour.lean ====
section
/-! DEFINITION. The colour commands CT_LOOK, PZ_FOLD and PZ_UNFOLD (43_colour.md). Each is an illegal word where its
unit is absent (30_encoding.md R75, 10_state.md R40; log 9). -/

namespace Sys2Proof.Machine

/-- The legal pixel depths (10_state.md R28). -/
def depthLegal (b : Nat) : Bool := b == 1 || b == 4 || b == 8 || b == 24 || b == 32

/-- The pseudocode of CT_LOOK (43_colour.md R111). -/
def ctLookRun (s : State) : Run :=
  let b := s.ctBpp.toNat
  if depthLegal b = false then .raise .depth (BitVec.ofNat 32 b) s
  else if b < 32 ∧ 2 ^ b ≤ s.pxIn.toNat then .raise .pxRange s.pxIn s
  else .ok { s with color := pxColour s b s.pxIn, colorT := transparent (pxColour s b s.pxIn) s.pxMask }

/-- CT_LOOK turns a pixel and its mask bit into a Colour and a transparency flag (43_colour.md R111). -/
def execCtLook (s : State) : Result := if s.params.hasCtm then conclude (ctLookRun s) else rejectWord s

/-- The pseudocode of PZ_FOLD (43_colour.md R113). -/
def pzFoldRun (s : State) : Run :=
  if 8 < s.pzAbits.toNat then .raise .cfg 6 s
  else .ok { s with tuple := foldColour s.pzLevel.toNat s.pzAbits.toNat s.color s.colorT }

/-- PZ_FOLD folds COLOR into TUPLE (43_colour.md R113). -/
def execPzFold (s : State) : Result := if s.params.hasPlut then conclude (pzFoldRun s) else rejectWord s

/-- The pseudocode of PZ_UNFOLD (43_colour.md R114). -/
def pzUnfoldRun (s : State) : Run :=
  if 8 < s.pzAbits.toNat then .raise .cfg 6 s
  else .ok { s with color := unfoldTuple s.pzLevel.toNat s.pzAbits.toNat s.tuple }

/-- PZ_UNFOLD shifts TUPLE back into COLOR (43_colour.md R114). -/
def execPzUnfold (s : State) : Result := if s.params.hasPlut then conclude (pzUnfoldRun s) else rejectWord s

end Sys2Proof.Machine
end

