-- ==== Sys2Proof/Machine/Control.lean ====
section
/-! DEFINITION. The control commands NOP and RST (40_control.md). -/

namespace Sys2Proof.Machine

/-- NOP does nothing but complete (40_control.md R85). -/
def execNop (s : State) : Result := conclude (.ok s)

/-- RST (40_control.md R86): the registers to their reset values, the memories kept. Its completion does not set
INT_STAT.DONE (30_encoding.md R73). -/
def execRst (s : State) : Result := .next (softReset s)

end Sys2Proof.Machine
end

