-- ==== Sys2Proof/Machine/Framer.lean ====
section
/-! DEFINITION. The sub-block framer command FR_RUN (45_framer.md). -/

namespace Sys2Proof.Machine

/-- OBUF[0 ..] <- F, OB_LEN <- len(F) (45_framer.md R146). -/
def storeFramed (f : List Byte) (s : State) : State :=
  { s with obuf := Memory.writeMany s.obuf 0 f, obLen := BitVec.ofNat 32 f.length }

/-- The pseudocode of FR_RUN (45_framer.md R146): the capacity is tested before any byte of OBUF is written. -/
def frRunRun (s : State) : Run :=
  if s.params.oCap < framedLength (pkBytes s) then .raise .ovf 1 s
  else .ok (storeFramed (frame (packedBytes s (pkBytes s))) s)

/-- FR_RUN frames the whole packed stream into OBUF (45_framer.md R146). -/
def execFrRun (s : State) : Result := conclude (frRunRun s)

end Sys2Proof.Machine
end

