-- ==== Sys2Proof/Machine/Lzw.lean ====
section
/-! DEFINITION. The primitive LZW commands LZ_BEGIN, LZ_STEP and LZ_END (44_lzw.md). -/

namespace Sys2Proof.Machine

/-- `lz_check()` (44_lzw.md R125): the configuration, first failing test wins (60_exceptions.md R162). -/
def lzCheck (s : State) : Run :=
  if s.lzPalsize.toNat = 0 ∨ palMax < s.lzPalsize.toNat then .raise .cfg 1 s
  else if s.lzMaxbits.toNat < lzW0 s ∨ wMax < s.lzMaxbits.toNat then .raise .cfg 2 s
  else if s.params.symCap < s.lzLen.toNat then .raise .cfg 3 s
  else .ok s

/-- The literal entry of symbol `k` (44_lzw.md R125). -/
def literalEntry (k : Nat) : DictEntry := { kind := .lit, pre := 0, sym := BitVec.ofNat 8 k }

/-- The control entry CLEAR (10_state.md R32). -/
def clearEntry : DictEntry := { kind := .clearCode, pre := 0, sym := 0 }

/-- The control entry END (10_state.md R32). -/
def endEntry : DictEntry := { kind := .endCode, pre := 0, sym := 0 }

/-- DICT[k] <- {LIT, 0, k} for k = 0 .. p-1, on DICT `l` (44_lzw.md R125). -/
def initLiterals : Nat → List (Nat × DictEntry) → List (Nat × DictEntry)
  | 0, l => l
  | p + 1, l => Memory.write (initLiterals p l) p (literalEntry p)

/-- The entries `lz_init()` writes into DICT `l` for a palette of `p` (44_lzw.md R125). -/
def initDict (p : Nat) (l : List (Nat × DictEntry)) : List (Nat × DictEntry) :=
  Memory.write (Memory.write (initLiterals p l) p clearEntry) (p + 1) endEntry

/-- `lz_init()` (44_lzw.md R125). -/
def lzInit (s : State) : State :=
  { s with
    dict := initDict s.lzPalsize.toNat s.dict
    lzDsize := BitVec.ofNat 13 (s.lzPalsize.toNat + 2)
    lzW := BitVec.ofNat 4 (lzW0 s)
    lzPos := 0 }

/-- `lz_emit(c)` (44_lzw.md R128): push the code at the current width, remember it. -/
def lzEmit (c : Nat) (s : State) : Run :=
  (pkPush c s.lzW.toNat s).andThen fun t => .ok { t with lzLast := BitVec.ofNat 12 c }

/-- The pseudocode of LZ_BEGIN (44_lzw.md R129). -/
def lzBeginRun (s : State) : Run :=
  (lzCheck s).andThen fun a =>
    (lzEmit a.lzPalsize.toNat (lzInit { a with pkBits := 0 })).andThen fun t => .ok { t with phase := .active }

/-- LZ_BEGIN starts an encoding (44_lzw.md R129). -/
def execLzBegin (s : State) : Result := conclude (lzBeginRun s)

/-- The width after an append that makes the dictionary's size `d`: one more when the size first exceeds 2^LZ_W
(44_lzw.md R130, R132). -/
def grownWidth (w : BitVec 4) (d : BitVec 13) : BitVec 4 := if 2 ^ w.toNat < d.toNat then w + 1 else w

/-- The append of LZ_STEP after a match of code `c`, at the position after the match (44_lzw.md R130, R133): if input
remains and the dictionary is below its ceiling, a new entry, and the width that goes with the new size. -/
def lzAppend (c : Nat) (s : State) : State :=
  if s.lzPos.toNat < s.lzLen.toNat ∧ s.lzDsize.toNat < 2 ^ s.lzMaxbits.toNat then
    { s with
      dict := Memory.write s.dict s.lzDsize.toNat
        { kind := .str, pre := BitVec.ofNat 12 c, sym := readSym s s.lzPos.toNat }
      lzDsize := s.lzDsize + 1
      lzW := grownWidth s.lzW (s.lzDsize + 1) }
  else s

/-- The pseudocode of LZ_STEP (44_lzw.md R130). -/
def lzStepRun (s : State) : Run :=
  if s.phase ≠ .active ∨ s.lzLen.toNat ≤ s.lzPos.toNat then .raise .seq s.cmd s
  else
    match lzMatch s s.lzPos.toNat with
    | none => .raise .sym s.lzPos s
    | some (c, len) =>
      (lzEmit c s).andThen fun t =>
        .ok (lzAppend c { t with lzPos := BitVec.ofNat 32 (t.lzPos.toNat + len) })

/-- LZ_STEP is one turn of the main loop (44_lzw.md R130). -/
def execLzStep (s : State) : Result := conclude (lzStepRun s)

/-- The pseudocode of LZ_END (44_lzw.md R131). -/
def lzEndRun (s : State) : Run :=
  if s.phase ≠ .active ∨ s.lzPos ≠ s.lzLen then .raise .seq s.cmd s
  else (lzEmit (s.lzPalsize.toNat + 1) s).andThen fun t => .ok { t with phase := .ended }

/-- LZ_END ends an encoding (44_lzw.md R131). -/
def execLzEnd (s : State) : Result := conclude (lzEndRun s)

end Sys2Proof.Machine
end

