-- ==== Sys2Proof/Machine/LzwComposite.lean ====
section
/-! DEFINITION. The whole-call commands LZ_ENC and LZ_RAW (46_lzw_composite.md). -/

namespace Sys2Proof.Machine

/-- The loop of LZ_ENC: LZ_STEP while LZ_POS < LZ_LEN, at most `fuel` turns (46_lzw_composite.md R150). -/
def lzSteps : Nat → State → Run
  | 0, s => .ok s
  | fuel + 1, s =>
    if s.lzPos.toNat < s.lzLen.toNat then (lzStepRun s).andThen (lzSteps fuel) else .ok s

/-- The pseudocode of LZ_ENC (46_lzw_composite.md R150). Each turn advances LZ_POS by at least 1, so LZ_LEN turns are
enough. -/
def lzEncRun (s : State) : Run :=
  (lzBeginRun s).andThen fun a =>
    (lzSteps a.lzLen.toNat a).andThen fun b =>
      (lzEndRun b).andThen frRunRun

/-- LZ_ENC encodes SYMBUF[0 .. LZ_LEN-1] and frames the result as one command (46_lzw_composite.md R150). -/
def execLzEnc (s : State) : Result := conclude (lzEncRun s)

/-- How the loop of LZ_RAW ends: OBUF as written, the offset reached, and the index of the symbol that is not below
p, if one stopped it. -/
structure RawEnd where
  obuf : List Host.Cell
  off : Nat
  bad : Option Nat
deriving DecidableEq, Repr

/-- The loop of LZ_RAW on OBUF `l` with `left` symbols still to write, symbol `i` next, at offset `o`. At each multiple
of 126 symbols the two header bytes of a chunk of `min 126 left` symbols come first; a symbol that is not below `p`
ends the loop before its byte is written (46_lzw_composite.md R151). -/
def rawLoop (s : State) (p : Nat) : Nat → Nat → Nat → List Host.Cell → RawEnd
  | 0, _, o, l => { obuf := l, off := o, bad := none }
  | left + 1, i, o, l =>
    let l' :=
      if i % rawChunk = 0 then
        Memory.writeMany l o [BitVec.ofNat 8 (min rawChunk (left + 1) + 1), BitVec.ofNat 8 p]
      else l
    let o' := if i % rawChunk = 0 then o + 2 else o
    if p ≤ (readSym s i).toNat then { obuf := l', off := o', bad := some i }
    else rawLoop s p left (i + 1) (o' + 1) (Memory.write l' o' (readSym s i))

/-- What follows the loop of LZ_RAW: `E_SYM` with the index of a bad symbol; else the closing four bytes and OB_LEN
(46_lzw_composite.md R151). -/
def rawFinish (p : Nat) (e : RawEnd) (s : State) : Run :=
  match e.bad with
  | some i => .raise .sym (BitVec.ofNat 32 i) { s with obuf := e.obuf }
  | none =>
    .ok { s with
      obuf := Memory.writeMany e.obuf e.off [2, BitVec.ofNat 8 p, BitVec.ofNat 8 (p + 1), 0]
      obLen := BitVec.ofNat 32 (e.off + 4) }

/-- The pseudocode of LZ_RAW (46_lzw_composite.md R151). -/
def lzRawRun (s : State) : Run :=
  let p := s.lzPalsize.toNat
  let n := s.lzLen.toNat
  if p = 0 ∨ palMax < p then .raise .cfg 1 s
  else if initialWidth p ≠ 8 then .raise .cfg 4 s
  else if s.params.symCap < n then .raise .cfg 3 s
  else if s.params.oCap < n + 2 * ceilDiv n rawChunk + 4 then .raise .ovf 1 s
  else rawFinish p (rawLoop s p n 0 0 s.obuf) s

/-- LZ_RAW writes SYMBUF to OBUF without compression (46_lzw_composite.md R151). -/
def execLzRaw (s : State) : Result := conclude (lzRawRun s)

end Sys2Proof.Machine
end

