-- ==== Sys2Proof/Machine/Dispatch.lean ====
section
/-! DEFINITION. One meaning per command (30_encoding.md R73, R74): the completion of the command in execution. -/

namespace Sys2Proof.Machine

/-- The completion of a legal command: its rule, then its flags, or fault entry (30_encoding.md R73). -/
def exec (i : Instr) (s : State) : Host.Outcome State Fault Refusal :=
  match i with
  | .nop => Sys2Proof.Machine.execNop s
  | .rst => Sys2Proof.Machine.execRst s
  | .pkRst => Sys2Proof.Machine.execPkRst s
  | .pkPush n => Sys2Proof.Machine.execPkPush n s
  | .upPop n => Sys2Proof.Machine.execUpPop n s
  | .upAlign => Sys2Proof.Machine.execUpAlign s
  | .frRun => Sys2Proof.Machine.execFrRun s
  | .lzBegin => Sys2Proof.Machine.execLzBegin s
  | .lzStep => Sys2Proof.Machine.execLzStep s
  | .lzEnd => Sys2Proof.Machine.execLzEnd s
  | .lzEnc => Sys2Proof.Machine.execLzEnc s
  | .lzRaw => Sys2Proof.Machine.execLzRaw s
  | .ctLook => Sys2Proof.Machine.execCtLook s
  | .pzFold => Sys2Proof.Machine.execPzFold s
  | .pzUnfold => Sys2Proof.Machine.execPzUnfold s

end Sys2Proof.Machine
end

