-- ==== Sys2Proof/Machine/Step.lean ====
section
/-! DEFINITION. One step of ALZ: the next move of the outside world or of the engine (00_scope.md R10; log 1). -/

namespace Sys2Proof.Machine

/-- EngineComplete (30_encoding.md R73): decode CMD and complete the command, or take `E_CMD` for an illegal word. -/
def engineComplete (s : State) : Host.Outcome State Fault Refusal :=
  match decode (fetchWord s) with
  | .instr i => exec i s
  | .rejected _ => rejectWord s

/-- The engine's turn: EngineComplete is enabled exactly when BUSY = 1; otherwise ALZ waits (30_encoding.md R73,
60_exceptions.md R177; log 2). -/
def engineTurn (s : State) : Host.Outcome State Fault Refusal :=
  if s.busy then engineComplete s else .next s

/-- One step: the first move lined up in `inputs`; with none lined up, the engine's turn (log 1). -/
def step (s : State) : Host.Outcome State Fault Refusal :=
  match s.inputs with
  | [] => engineTurn s
  | .engine :: rest => engineTurn { s with inputs := rest }
  | .read addr size :: rest => .next (portRead { s with inputs := rest } addr size)
  | .write addr size data :: rest => .next (portWrite { s with inputs := rest } addr size data)
  | .hardwareReset :: rest => .next (hardwareReset { s with inputs := rest })

/-- `s` with the command word `w` in CMD and BUSY = 1, so that the very next step completes exactly it (log 7). -/
def State.withFetchWord (s : State) (nbits w : Nat) : State := acceptWord s (BitVec.ofNat 32 (w % 2 ^ nbits))

end Sys2Proof.Machine
end

