-- ==== Sys2Proof/Safety.lean ====
section
/-! DEFINITION. The terms claims are made in: the invariants of the state, the symbol-at-a-time match, and runs of
several commands one after another. -/

namespace Sys2Proof.Machine

/-- Every one of the six memories has the canonical form (log 16). -/
def memoriesWf (s : State) : Bool :=
  Memory.wf s.ct && Memory.wf s.dict && Memory.wf s.symbuf && Memory.wf s.ubuf && Memory.wf s.pbuf &&
    Memory.wf s.obuf

/-- What the rules say of ERR_CODE, ERR_INFO and the ERR state (10_state.md R22; 60_exceptions.md R160, R166, R167,
R169): no fault code without STATUS.ERR; in the ERR state the phase is IDLE, both output buffers are empty,
INT_STAT.ERR is pending, the code is one of the nine, and only RST can be in execution. -/
structure ErrStateOk (s : State) : Prop where
  quiet : s.err = false → s.errCode = 0 ∧ s.errInfo = 0
  stopped : s.err = true →
    s.phase = .idle ∧ s.pkBits = 0 ∧ s.obLen = 0 ∧ s.intStat.err = true ∧ 1 ≤ s.errCode.toNat ∧ s.errCode.toNat ≤ 9
  onlyRst : s.err = true → s.busy = true → s.cmd = 1

/-- What the rules say of the two output buffers: lengths within capacity (10_state.md R23, R25), and 0 in the unused
bits of the last byte of the packed stream (R36), for parameters in the ranges of 00_scope.md R5. -/
structure StreamOk (s : State) : Prop where
  legal : s.params.Legal
  bitsFit : s.pkBits.toNat ≤ 8 * s.params.pCap
  outFits : s.obLen.toNat ≤ s.params.oCap
  padded : ∀ j, s.pkBits.toNat ≤ j → j < 8 * pkBytes s → pbufBit s j = false

/-- The dictionary invariants of 10_state.md R33, for a palette of size `p`. -/
structure DictOk (p : Nat) (s : State) : Prop where
  sizeLow : p + 2 ≤ s.lzDsize.toNat
  sizeHigh : s.lzDsize.toNat ≤ dictCap
  literals : ∀ k, k < p → readDict s k = { kind := .lit, pre := 0, sym := BitVec.ofNat 8 k }
  clear : readDict s p = { kind := .clearCode, pre := 0, sym := 0 }
  endc : readDict s (p + 1) = { kind := .endCode, pre := 0, sym := 0 }
  strings : ∀ k, p + 2 ≤ k → k < s.lzDsize.toNat →
    (readDict s k).kind = .str ∧ (readDict s k).pre.toNat < k ∧
      ((readDict s (readDict s k).pre.toNat).kind = .lit ∨ (readDict s (readDict s k).pre.toNat).kind = .str)
  distinct : ∀ j k q, j < s.lzDsize.toNat → k < s.lzDsize.toNat → seqOf s j = some q → seqOf s k = some q → j = k

/-- What the rules say of the LZW state outside IDLE: the dictionary invariants (10_state.md R33) and the width law
(44_lzw.md R132) for the palette size `p` and the ceiling `m` of the last LZ_BEGIN or LZ_ENC; while ACTIVE these are
the configuration registers, and LZ_POS ≤ LZ_LEN ≤ SYM_CAP (10_state.md R15). In ENDED the host may have overwritten
LZ_PALSIZE, LZ_MAXBITS and LZ_LEN (R33, 90_conflicts.md C7; log 21). -/
def LzOk (s : State) : Prop :=
  s.phase ≠ .idle →
    ∃ p m : Nat, 1 ≤ p ∧ p ≤ palMax ∧ initialWidth p ≤ m ∧ m ≤ wMax ∧ DictOk p s ∧
      s.lzDsize.toNat ≤ 2 ^ m ∧ s.lzW.toNat = max (initialWidth p) (clog2 s.lzDsize.toNat) ∧
      (s.phase = .active →
        s.lzPalsize.toNat = p ∧ s.lzMaxbits.toNat = m ∧ s.lzPos.toNat ≤ s.lzLen.toNat ∧
          s.lzLen.toNat ≤ s.params.symCap)

/-- The configuration checks of `lz_check()` pass (44_lzw.md R125). -/
def LzConfigOk (s : State) : Prop :=
  1 ≤ s.lzPalsize.toNat ∧ s.lzPalsize.toNat ≤ palMax ∧ initialWidth s.lzPalsize.toNat ≤ s.lzMaxbits.toNat ∧
    s.lzMaxbits.toNat ≤ wMax ∧ s.lzLen.toNat ≤ s.params.symCap

/-- The code of the entry {STR, PREFIX = cur, SYM = sym} among those below `n`, if there is one. -/
def childBelow (s : State) (cur : Nat) (sym : Byte) : Nat → Option Nat
  | 0 => none
  | n + 1 =>
    if (readDict s n).kind = .str ∧ (readDict s n).pre.toNat = cur ∧ (readDict s n).sym = sym then some n
    else childBelow s cur sym n

/-- Extend a match of code `cur` and length `len` one symbol at a time, at most `fuel` times (44_lzw.md R134). -/
def extendMatch (s : State) (pos : Nat) : Nat → Nat → Nat → Nat × Nat
  | 0, cur, len => (cur, len)
  | fuel + 1, cur, len =>
    if pos + len < s.lzLen.toNat then
      match childBelow s cur (readSym s (pos + len)) s.lzDsize.toNat with
      | some c => extendMatch s pos fuel c (len + 1)
      | none => (cur, len)
    else (cur, len)

/-- The symbol-at-a-time formulation of the longest match (44_lzw.md R134): start from the literal of SYMBUF[pos],
extend while an entry exists. -/
def matchBySymbols (p : Nat) (s : State) (pos : Nat) : Option (Nat × Nat) :=
  if (readSym s pos).toNat < p then some (extendMatch s pos s.lzLen.toNat (readSym s pos).toNat 1) else none

/-- The width of the data code number `i` of an encoding, counted from 0: the dictionary has `p + 2 + i` entries then,
or is frozen at `2 ^ m` (44_lzw.md R132, R133). -/
def dataWidth (p m i : Nat) : Nat := max (initialWidth p) (clog2 (min (p + 2 + i) (2 ^ m)))

/-- The data codes `cs`, the first of them number `i`, each with its width. -/
def dataCodes (p m : Nat) : Nat → List Nat → List (Nat × Nat)
  | _, [] => []
  | i, c :: cs => (c, dataWidth p m i) :: dataCodes p m (i + 1) cs

/-- The codes of a whole encoding with their widths: CLEAR, the data codes, END. The last turn appends nothing, so END
has the width of the last data code (44_lzw.md R129 to R131). -/
def encodedCodes (p m : Nat) (cs : List Nat) : List (Nat × Nat) :=
  (p, initialWidth p) :: (dataCodes p m 0 cs ++ [(p + 1, dataWidth p m (cs.length - 1))])

/-- The bits of codes with their widths, in stream order, bit 0 of each code first (20_memory.md R58). -/
def streamBits : List (Nat × Nat) → List Bool
  | [] => []
  | (c, w) :: rest => (List.range w).map c.testBit ++ streamBits rest

/-- The symbols that codes stand for in the dictionary of `s`, one after another. -/
def spelled (s : State) : List Nat → Option (List Byte)
  | [] => some []
  | c :: cs =>
    match seqOf s c, spelled s cs with
    | some q, some r => some (q ++ r)
    | _, _ => none

/-- A 4-byte write of `v` at `off` succeeds, makes the state `u` (up to the model's own counter `gen`, log 6), and the
bits of `v` under `mask` are read back there, the others as 0 (10_state.md R30; 20_memory.md R52). -/
def WritesField (s : State) (off : Nat) (v mask : Word) (u : State) : Prop :=
  ∃ t, hostWrite s off 4 v = some t ∧ t = { u with gen := t.gen } ∧ hostRead t off 4 = some (v &&& mask)

/-- Every aligned read of 1, 2 or 4 bytes inside the `n` bytes at `off` returns its part of `v`, the byte at `off` in
bits [7:0] of `v` (20_memory.md R53). -/
def ReadsBackParts (t : State) (off n : Nat) (v : Word) : Prop :=
  ∀ o m, m = 1 ∨ m = 2 ∨ m = 4 → o % m = 0 → off ≤ o → o + m ≤ off + n →
    hostRead t o m = some ((v >>> (8 * (o - off))) &&& BitVec.ofNat 32 (2 ^ (8 * m) - 1))

/-- The next step is the engine's: nothing is lined up, or an engine move is first (log 1). -/
abbrev EngineMoves (s : State) : Prop := s.inputs = [] ∨ ∃ rest, s.inputs = .engine :: rest

/-- The state after the commands of a list, completed one after another; `none` if one has no next state. -/
def execAll : List Instr → State → Option State
  | [], s => some s
  | i :: is, s =>
    match exec i s with
    | .next t => execAll is t
    | .fault _ => none
    | .refused _ => none

end Sys2Proof.Machine
end

