-- ==== Sys2Proof/Certificates/Slice0/Obligations.lean ====
section
/-! DEFINITION. The statements for the provers. A field the statement of a meaning does not list keeps its value: the
next state is written as an update of the state before. `gen` is the model's own counter (log 6): no statement
constrains it. -/

open Sys2Proof Sys2Proof.Machine

/-! ### Encoding -/

/-- Decoding answers a command exactly for the well-formed command whose word it is (30_encoding.md R70, R71, R74 to
R76): no bit is dropped, and every other word is rejected. -/
def Obligations.DecodeAnswersExactlyTheEncodedCommand : Prop :=
  ∀ (w : Word) (i : Instr), decode w = .instr i ↔ i.wellFormed = true ∧ encode i = w

/-- Words of 95_test_vectors.md V28, written from the figure of 30_encoding.md R70, decode as the spec says. -/
def Obligations.DecodeReadsTheSpecsWords : Prop :=
  decode 0x00000000 = .instr .nop ∧ decode 0x00000001 = .instr .rst ∧ decode 0x00002011 = .instr (.pkPush 32) ∧
    decode 0x00000821 = .instr (.upPop 8) ∧ decode 0x00000022 = .instr .upAlign ∧ decode 0x00000043 = .instr .lzEnc ∧
    decode 0x00002111 = .rejected (.countTooLarge 33) ∧ decode 0x00004011 = .rejected (.reservedBitsSet 0x4011) ∧
    decode 0x00000100 = .rejected (.reservedBitsSet 0x100) ∧ decode 0x00000020 = .rejected (.unassignedOpcode 0x20)

/-! ### Steps -/

/-- With BUSY = 1 and the engine to move, a step is `exec` of the command CMD decodes to, and nothing is added around it
(30_encoding.md R73). That the engine moves when nothing is lined up, and that a lined-up engine move is used up, is the
model's choice (log 1, DESIGN CHOICE). -/
def Obligations.StepRunsTheDecodedCommand : Prop :=
  ∀ (s : State) (i : Instr), s.busy = true → decode s.cmd = .instr i →
    (s.inputs = [] → step s = exec i s) ∧
      ∀ rest, s.inputs = .engine :: rest → step s = exec i { s with inputs := rest }

/-- An illegal word in CMD faults with E_CMD and the word when the engine moves: a word that no well-formed command
encodes to, and the command of an absent unit (30_encoding.md R75). When the engine moves is the model's choice (log 1,
DESIGN CHOICE): with nothing lined up, and by a lined-up engine move, which is used up. -/
def Obligations.IllegalWordFaultsWithTheWord : Prop :=
  ∀ s : State, s.busy = true →
    ((¬ ∃ i, i.wellFormed = true ∧ encode i = s.cmd) ∨ (s.cmd = 0x50 ∧ s.params.hasCtm = false) ∨
      ((s.cmd = 0x60 ∨ s.cmd = 0x61) ∧ s.params.hasPlut = false)) →
    (s.inputs = [] → step s = .next (faultEntry .cmd s.cmd s)) ∧
      ∀ rest, s.inputs = .engine :: rest → step s = .next (faultEntry .cmd s.cmd { s with inputs := rest })

/-- The moves of the outside world: a read changes nothing but the port's response, a refused write neither
(20_memory.md R52, R56; 60_exceptions.md R171), a hardware reset is taken in any state (70_reset_and_hazards.md R185),
and ALZ waits when it is not busy (30_encoding.md R73, 60_exceptions.md R177). The model's choices in it, all DESIGN
CHOICE: the list of moves (log 1), the idle turn that changes nothing (log 2), the field that keeps the response (log 3),
and that the moves behind a hardware reset stay lined up (log 13). -/
def Obligations.StepPerformsTheLinedUpMove : Prop :=
  (∀ (s : State) addr size rest, s.inputs = .read addr size :: rest →
    step s = .next { s with
      inputs := rest
      port := match hostRead { s with inputs := rest } addr.toNat (portBytes size) with
        | some v => .okRead v
        | none => .busError }) ∧
  (∀ (s : State) addr size v rest, s.inputs = .write addr size v :: rest →
    step s = .next (match hostWrite { s with inputs := rest } addr.toNat (portBytes size) v with
      | some t => { t with port := .okWrite }
      | none => { s with inputs := rest, port := .busError })) ∧
  (∀ (s : State) rest, s.inputs = .hardwareReset :: rest → step s = .next (hardwareReset { s with inputs := rest })) ∧
  (∀ s : State, s.busy = false → s.inputs = [] → step s = .next s) ∧
  ∀ (s : State) rest, s.busy = false → s.inputs = .engine :: rest → step s = .next { s with inputs := rest }

/-- Every accepted command completes: when the engine moves in the BUSY-state there is a next state, and BUSY is 0 in
it (30_encoding.md R73, 70_reset_and_hazards.md R200). When the engine moves is the model's choice (log 1, DESIGN
CHOICE). -/
def Obligations.EveryAcceptedCommandCompletes : Prop :=
  ∀ s : State, s.busy = true → EngineMoves s → ∃ t, step s = .next t ∧ t.busy = false

/-! ### Control commands, fault entry, reset -/

/-- 40_control.md R85: its word, its only effect in every phase, and the refusal of its word in the ERR-state. -/
def Obligations.NopOnlyCompletes : Prop :=
  decode 0x00000000 = .instr .nop ∧
    (∀ s : State, ∃ t, exec .nop s = .next t ∧
      t = { s with busy := false, intStat := { s.intStat with done := true }, gen := t.gen }) ∧
    ∀ s : State, s.busy = false → s.err = true → hostWrite s 0x01C 4 0x00000000 = none

/-- RST (40_control.md R86): its word, and from every state every register at its reset value, the memories as they were,
DONE not set. -/
def Obligations.RstResetsRegistersAndKeepsMemories : Prop :=
  decode 0x00000001 = .instr .rst ∧
    ∀ s : State, ∃ t, exec .rst s = .next t ∧ t = { s with
      busy := false, err := false, phase := .idle, cmd := 0
      intStat := { done := false, err := false }, intEn := { done := false, err := false }
      errCode := 0, errInfo := 0, pkData := 0, pkBits := 0, upLen := 0, upPos := 0, upData := 0, obLen := 0
      lzPalsize := 0, lzMaxbits := 12, lzLen := 0, lzPos := 0, lzW := 0, lzDsize := 0, lzLast := 0
      ctBpp := 0, pxIn := 0, pxMask := false, color := 0, colorT := false, pzLevel := 0, pzAbits := 8, tuple := 0
      gen := t.gen }

/-- 60_exceptions.md R166, with the codes of R160: what fault entry writes, every other field staying; and precision: a
command other than LZ_ENC that faults leaves the state before it with fault entry's changes, but for bytes of OBUF where
it is LZ_RAW. -/
def Obligations.FaultEntryIsPreciseAndInvalidatesOutput : Prop :=
  (∀ (f : FaultCode) (info : Word) (s : State), faultEntry f info s = { s with
    errCode := faultNumber f, errInfo := info, err := true, busy := false, phase := .idle, pkBits := 0, obLen := 0
    intStat := { s.intStat with err := true }, gen := (faultEntry f info s).gen }) ∧
  [FaultCode.cmd, .seq, .cfg, .pkRange, .upBounds, .sym, .ovf, .depth, .pxRange].map faultNumber =
    [1, 2, 3, 4, 5, 6, 7, 8, 9] ∧
  ∀ (i : Instr) (s t : State), i ≠ .lzEnc → s.params.Legal → s.err = false → exec i s = .next t → t.err = true →
    ∃ f info, t = { faultEntry f info s with obuf := t.obuf } ∧ (i ≠ .lzRaw → t.obuf = s.obuf)

/-- A hardware reset from any state, and what every register then reads as, those of an optional unit where it is
present (70_reset_and_hazards.md R186; 10_state.md R40); with LZ_DSIZE, PK_BITS and OB_LEN at 0 no entry of DICT and no
byte of PBUF or OBUF is valid. -/
def Obligations.HardwareResetGivesTheResetRegisters : Prop :=
  ∀ (s : State) (rest : List Input), s.inputs = .hardwareReset :: rest →
    ∃ t, step s = .next t ∧ t.params = s.params ∧ irq t = false ∧
      ∀ r : Reg, (r ∈ [Reg.ctBpp, .pxIn, .pxMask] → s.params.hasCtm = true) →
        (r ∈ [Reg.color, .colorT] → s.params.hasCtm = true ∨ s.params.hasPlut = true) →
        (r ∈ [Reg.pzCfg, .tuple] → s.params.hasPlut = true) →
        hostRead t (regOffset r) 4 = some (match r with
        | .id => 0x4C5A0100
        | .cap => 0xC0 ||| (if s.params.hasCtm then 1 else 0) ||| (if s.params.hasPlut then 2 else 0)
        | .capSym => BitVec.ofNat 32 s.params.symCap
        | .capU => BitVec.ofNat 32 s.params.uCap
        | .capP => BitVec.ofNat 32 s.params.pCap
        | .capO => BitVec.ofNat 32 s.params.oCap
        | .lzMaxbits => 12
        | .pzCfg => 0x800
        | _ => 0)

/-! ### Bit-packer -/

/-- PK_RST (41_bitpacker.md R91): its word, PK_BITS to 0 and no other change in IDLE and ENDED, E_SEQ in ACTIVE. -/
def Obligations.PkRstEmptiesTheStreamOrFaults : Prop :=
  decode 0x00000010 = .instr .pkRst ∧
    ∀ s : State,
      (s.phase ≠ .active → ∃ t, exec .pkRst s = .next t ∧
        t = { s with busy := false, intStat := { s.intStat with done := true }, gen := t.gen, pkBits := 0 }) ∧
      (s.phase = .active → exec .pkRst s = .next (faultEntry .seq s.cmd s))

/-- PK_PUSH: its word, its faults in the order tested, and otherwise the n bits of PK_DATA appended, bit 0 first, at
stream positions PK_BITS to PK_BITS+n-1, LSB-first; the bits before them and every byte outside the ones it enters
stay, and the unused bits of the last byte are 0 (20_memory.md R58; 41_bitpacker.md R90, R92). -/
def Obligations.PkPushAppendsTheBitsOfPkData : Prop :=
  ∀ (s : State) (n : BitVec 6), n.toNat ≤ 32 →
    decode (BitVec.ofNat 32 (0x11 + 256 * n.toNat)) = .instr (.pkPush n) ∧
    (s.phase = .active → exec (.pkPush n) s = .next (faultEntry .seq s.cmd s)) ∧
    (s.phase ≠ .active → 2 ^ n.toNat ≤ s.pkData.toNat →
      exec (.pkPush n) s = .next (faultEntry .pkRange s.pkData s)) ∧
    (s.phase ≠ .active → s.pkData.toNat < 2 ^ n.toNat → 8 * s.params.pCap < s.pkBits.toNat + n.toNat →
      exec (.pkPush n) s = .next (faultEntry .ovf 0 s)) ∧
    (StreamOk s → s.phase ≠ .active → s.pkData.toNat < 2 ^ n.toNat →
      s.pkBits.toNat + n.toNat ≤ 8 * s.params.pCap →
      ∃ t, exec (.pkPush n) s = .next t ∧
        t = { s with
          busy := false, intStat := { s.intStat with done := true }, gen := t.gen
          pkBits := t.pkBits, pbuf := t.pbuf } ∧
        t.pkBits.toNat = s.pkBits.toNat + n.toNat ∧
        (∀ j, j < s.pkBits.toNat → pbufBit t j = pbufBit s j) ∧
        (∀ k, k < n.toNat → pbufBit t (s.pkBits.toNat + k) = s.pkData.getLsbD k) ∧
        (∀ j, t.pkBits.toNat ≤ j → j < 8 * pkBytes t → pbufBit t j = false) ∧
        ∀ i, i < s.pkBits.toNat / 8 ∨ (s.pkBits.toNat + n.toNat + 7) / 8 ≤ i → readPbuf t i = readPbuf s i)

/-! ### Bit-unpacker -/

/-- UP_POP: its word, its faults in the order tested (the sum of cursor and count does not wrap), and otherwise the
next n bits of UBUF, first bit most significant, zero-extended, and the cursor moved (20_memory.md R57;
42_bitunpacker.md R100, R101). -/
def Obligations.UpPopReturnsTheNextBitsMsbFirst : Prop :=
  ∀ (s : State) (n : BitVec 6), n.toNat ≤ 32 →
    decode (BitVec.ofNat 32 (0x21 + 256 * n.toNat)) = .instr (.upPop n) ∧
    (s.params.uCap < s.upLen.toNat → exec (.upPop n) s = .next (faultEntry .cfg 5 s)) ∧
    (s.upLen.toNat ≤ s.params.uCap → 8 * s.upLen.toNat < s.upPos.toNat + n.toNat →
      exec (.upPop n) s = .next (faultEntry .upBounds s.upPos s)) ∧
    (s.params.Legal → s.upLen.toNat ≤ s.params.uCap → s.upPos.toNat + n.toNat ≤ 8 * s.upLen.toNat →
      ∃ t, exec (.upPop n) s = .next t ∧
        t = { s with
          busy := false, intStat := { s.intStat with done := true }, gen := t.gen
          upData := t.upData, upPos := t.upPos } ∧
        t.upPos.toNat = s.upPos.toNat + n.toNat ∧
        (∀ k, k < n.toNat → t.upData.getLsbD (n.toNat - 1 - k) = ubufBit s (s.upPos.toNat + k)) ∧
        ∀ k, n.toNat ≤ k → t.upData.getLsbD k = false)

/-- UP_ALIGN: its word, its faults in the order tested, and otherwise the cursor moved to the least multiple of 8 at or
above it; UP_REMB is then the length of the tail from there (42_bitunpacker.md R102). -/
def Obligations.UpAlignRoundsTheCursorUp : Prop :=
  decode 0x00000022 = .instr .upAlign ∧
  ∀ s : State,
    (s.params.uCap < s.upLen.toNat → exec .upAlign s = .next (faultEntry .cfg 5 s)) ∧
    (s.upLen.toNat ≤ s.params.uCap → 8 * s.upLen.toNat < s.upPos.toNat →
      exec .upAlign s = .next (faultEntry .upBounds s.upPos s)) ∧
    (s.params.Legal → s.upLen.toNat ≤ s.params.uCap → s.upPos.toNat ≤ 8 * s.upLen.toNat →
      ∃ t, exec .upAlign s = .next t ∧
        t = { s with
          busy := false, intStat := { s.intStat with done := true }, gen := t.gen, upPos := t.upPos } ∧
        t.upPos.toNat % 8 = 0 ∧ s.upPos.toNat ≤ t.upPos.toNat ∧ t.upPos.toNat < s.upPos.toNat + 8 ∧
        t.upPos.toNat ≤ 8 * s.upLen.toNat ∧ upRemb t = s.upLen.toNat - t.upPos.toNat / 8)

/-! ### Framer -/

/-- FR_RUN: its word, its fault, raised before any byte of OBUF is written, and otherwise the packed stream framed
(45_framer.md R146), said in the position form that R145 infers from its loop: with b = PK_BYTES, a length byte 255 at
each offset 256k for k < b div 255, data byte j at j + j div 255 + 1, a last length byte, and the terminator; nothing
else of OBUF changes. -/
def Obligations.FrRunWritesTheFramedStream : Prop :=
  decode 0x00000030 = .instr .frRun ∧
  ∀ s : State,
    (s.params.oCap < pkBytes s + ceilDiv (pkBytes s) 255 + 1 → exec .frRun s = .next (faultEntry .ovf 1 s)) ∧
    (StreamOk s → framedLength (pkBytes s) ≤ s.params.oCap →
      ∃ t, exec .frRun s = .next t ∧
        t = { s with
          busy := false, intStat := { s.intStat with done := true }, gen := t.gen
          obuf := t.obuf, obLen := t.obLen } ∧
        t.obLen.toNat = pkBytes s + ceilDiv (pkBytes s) 255 + 1 ∧
        (∀ j, j < pkBytes s → readObuf t (j + j / 255 + 1) = readPbuf s j) ∧
        (∀ k, k < pkBytes s / 255 → readObuf t (256 * k) = 255) ∧
        (0 < pkBytes s % 255 → (readObuf t (256 * (pkBytes s / 255))).toNat = pkBytes s % 255) ∧
        readObuf t (pkBytes s + ceilDiv (pkBytes s) 255) = 0 ∧
        ∀ i, t.obLen.toNat ≤ i → readObuf t i = readObuf s i)

/-! ### LZW primitives -/

/-- LZ_BEGIN (44_lzw.md R125, R129): its word, the configuration faults in the order tested, and otherwise the
dictionary of p literals, CLEAR and END, the width W0(p), position 0, and a stream that holds just the code CLEAR; the
entries above and the other bytes of PBUF stay. -/
def Obligations.LzBeginSetsUpDictionaryAndEmitsClear : Prop :=
  decode 0x00000040 = .instr .lzBegin ∧
  ∀ s : State,
    (s.lzPalsize.toNat = 0 ∨ 256 < s.lzPalsize.toNat → exec .lzBegin s = .next (faultEntry .cfg 1 s)) ∧
    (0 < s.lzPalsize.toNat → s.lzPalsize.toNat ≤ 256 →
      (s.lzMaxbits.toNat < initialWidth s.lzPalsize.toNat ∨ 12 < s.lzMaxbits.toNat →
        exec .lzBegin s = .next (faultEntry .cfg 2 s)) ∧
      (initialWidth s.lzPalsize.toNat ≤ s.lzMaxbits.toNat → s.lzMaxbits.toNat ≤ 12 →
        s.params.symCap < s.lzLen.toNat → exec .lzBegin s = .next (faultEntry .cfg 3 s))) ∧
    (s.params.Legal → LzConfigOk s →
      ∃ t, exec .lzBegin s = .next t ∧
        t = { s with
          busy := false, intStat := { s.intStat with done := true }, gen := t.gen, phase := .active
          pkBits := t.pkBits, pbuf := t.pbuf, lzPos := 0, lzW := t.lzW, lzDsize := t.lzDsize, lzLast := t.lzLast
          dict := t.dict } ∧
        t.pkBits.toNat = initialWidth s.lzPalsize.toNat ∧ t.lzW.toNat = initialWidth s.lzPalsize.toNat ∧
        t.lzDsize.toNat = s.lzPalsize.toNat + 2 ∧ t.lzLast.toNat = s.lzPalsize.toNat ∧
        (∀ k, k < s.lzPalsize.toNat → readDict t k = { kind := .lit, pre := 0, sym := BitVec.ofNat 8 k }) ∧
        readDict t s.lzPalsize.toNat = { kind := .clearCode, pre := 0, sym := 0 } ∧
        readDict t (s.lzPalsize.toNat + 1) = { kind := .endCode, pre := 0, sym := 0 } ∧
        (∀ c, s.lzPalsize.toNat + 2 ≤ c → readDict t c = readDict s c) ∧
        (∀ k, k < t.pkBits.toNat → pbufBit t k = s.lzPalsize.toNat.testBit k) ∧
        (∀ k, t.pkBits.toNat ≤ k → k < 8 * pkBytes t → pbufBit t k = false) ∧
        ∀ i, (t.pkBits.toNat + 7) / 8 ≤ i → readPbuf t i = readPbuf s i)

/-- The configuration faults of LZ_ENC, before any change (46_lzw_composite.md R150; 60_exceptions.md R162): the first
failing test wins. -/
def Obligations.LzEncChecksItsConfigurationFirst : Prop :=
  ∀ s : State,
    (s.lzPalsize.toNat = 0 ∨ 256 < s.lzPalsize.toNat → exec .lzEnc s = .next (faultEntry .cfg 1 s)) ∧
    (0 < s.lzPalsize.toNat → s.lzPalsize.toNat ≤ 256 →
      (s.lzMaxbits.toNat < initialWidth s.lzPalsize.toNat ∨ 12 < s.lzMaxbits.toNat →
        exec .lzEnc s = .next (faultEntry .cfg 2 s)) ∧
      (initialWidth s.lzPalsize.toNat ≤ s.lzMaxbits.toNat → s.lzMaxbits.toNat ≤ 12 →
        s.params.symCap < s.lzLen.toNat → exec .lzEnc s = .next (faultEntry .cfg 3 s)))

/-- LZ_STEP (44_lzw.md R130): its word; its faults in the order tested, E_SEQ outside ACTIVE or at the end of the
input, E_SYM with the position where nothing matches, E_OVF(0) where the code does not fit; and otherwise, after a match
of code c (never CLEAR or END) and length len, the code at the current width, the position advanced, and, if input
remains below the ceiling, one entry appended and the width grown exactly when the size first exceeds 2^LZ_W. -/
def Obligations.LzStepEmitsTheMatchAndAppends : Prop :=
  decode 0x00000041 = .instr .lzStep ∧
  ∀ s : State,
    (s.phase ≠ .active ∨ s.lzLen.toNat ≤ s.lzPos.toNat → exec .lzStep s = .next (faultEntry .seq s.cmd s)) ∧
    (s.phase = .active → s.lzPos.toNat < s.lzLen.toNat →
      (lzMatch s s.lzPos.toNat = none → exec .lzStep s = .next (faultEntry .sym s.lzPos s)) ∧
      (lzMatch s s.lzPos.toNat ≠ none → 8 * s.params.pCap < s.pkBits.toNat + s.lzW.toNat →
        exec .lzStep s = .next (faultEntry .ovf 0 s)) ∧
      ∀ c len : Nat, StreamOk s → LzOk s → lzMatch s s.lzPos.toNat = some (c, len) →
        s.pkBits.toNat + s.lzW.toNat ≤ 8 * s.params.pCap →
        ∃ t, exec .lzStep s = .next t ∧
          t = { s with
            busy := false, intStat := { s.intStat with done := true }, gen := t.gen
            pkBits := t.pkBits, pbuf := t.pbuf, lzPos := t.lzPos, lzW := t.lzW, lzDsize := t.lzDsize
            lzLast := t.lzLast, dict := t.dict } ∧
          c ≠ s.lzPalsize.toNat ∧ c ≠ s.lzPalsize.toNat + 1 ∧ s.lzPos.toNat + len ≤ s.lzLen.toNat ∧
          t.lzLast.toNat = c ∧ t.lzPos.toNat = s.lzPos.toNat + len ∧
          t.pkBits.toNat = s.pkBits.toNat + s.lzW.toNat ∧
          (∀ j, j < s.pkBits.toNat → pbufBit t j = pbufBit s j) ∧
          (∀ k, k < s.lzW.toNat → pbufBit t (s.pkBits.toNat + k) = c.testBit k) ∧
          (∀ j, t.pkBits.toNat ≤ j → j < 8 * pkBytes t → pbufBit t j = false) ∧
          (∀ i, i < s.pkBits.toNat / 8 ∨ (s.pkBits.toNat + s.lzW.toNat + 7) / 8 ≤ i →
            readPbuf t i = readPbuf s i) ∧
          (∀ d, d ≠ s.lzDsize.toNat → readDict t d = readDict s d) ∧
          if s.lzPos.toNat + len < s.lzLen.toNat ∧ s.lzDsize.toNat < 2 ^ s.lzMaxbits.toNat then
            t.lzDsize.toNat = s.lzDsize.toNat + 1 ∧
              readDict t s.lzDsize.toNat =
                { kind := .str, pre := BitVec.ofNat 12 c, sym := readSym s (s.lzPos.toNat + len) } ∧
              t.lzW.toNat = if 2 ^ s.lzW.toNat < s.lzDsize.toNat + 1 then s.lzW.toNat + 1 else s.lzW.toNat
          else t.lzDsize = s.lzDsize ∧ t.lzW = s.lzW ∧ t.dict = s.dict)

/-- LZ_END (44_lzw.md R131): its word, its faults in the order tested, and otherwise END = p + 1 emitted at the current
width, and no other. -/
def Obligations.LzEndEmitsEndAtTheCurrentWidth : Prop :=
  decode 0x00000042 = .instr .lzEnd ∧
  ∀ s : State,
    (s.phase ≠ .active ∨ s.lzPos ≠ s.lzLen → exec .lzEnd s = .next (faultEntry .seq s.cmd s)) ∧
    (s.phase = .active → s.lzPos = s.lzLen → 8 * s.params.pCap < s.pkBits.toNat + s.lzW.toNat →
      exec .lzEnd s = .next (faultEntry .ovf 0 s)) ∧
    (StreamOk s → LzOk s → s.phase = .active → s.lzPos = s.lzLen →
      s.pkBits.toNat + s.lzW.toNat ≤ 8 * s.params.pCap →
      ∃ t, exec .lzEnd s = .next t ∧
        t = { s with
          busy := false, intStat := { s.intStat with done := true }, gen := t.gen, phase := .ended
          pkBits := t.pkBits, pbuf := t.pbuf, lzLast := t.lzLast } ∧
        t.lzLast.toNat = s.lzPalsize.toNat + 1 ∧ t.pkBits.toNat = s.pkBits.toNat + s.lzW.toNat ∧
        (∀ j, j < s.pkBits.toNat → pbufBit t j = pbufBit s j) ∧
        (∀ k, k < s.lzW.toNat → pbufBit t (s.pkBits.toNat + k) = (s.lzPalsize.toNat + 1).testBit k) ∧
        (∀ j, t.pkBits.toNat ≤ j → j < 8 * pkBytes t → pbufBit t j = false) ∧
        ∀ i, i < s.pkBits.toNat / 8 ∨ (s.pkBits.toNat + s.lzW.toNat + 7) / 8 ≤ i → readPbuf t i = readPbuf s i)

/-! ### Matching -/

/-- `lz_match` answers the longest candidate, or none where there is none (44_lzw.md R126). -/
def Obligations.LzMatchIsTheLongestCandidate : Prop :=
  ∀ (s : State) (pos : Nat),
    (∀ c len, lzMatch s pos = some (c, len) →
      c < s.lzDsize.toNat ∧
        (∃ q, seqOf s c = some q ∧ q.length = len ∧ len ≤ s.lzLen.toNat - pos ∧
          ∀ k, k < len → q[k]? = some (readSym s (pos + k))) ∧
        ∀ d q, d < s.lzDsize.toNat → seqOf s d = some q → q.length ≤ s.lzLen.toNat - pos →
          (∀ k, k < q.length → q[k]? = some (readSym s (pos + k))) → q.length ≤ len) ∧
    (lzMatch s pos = none → ∀ d q, d < s.lzDsize.toNat → seqOf s d = some q → q.length ≤ s.lzLen.toNat - pos →
      ¬ ∀ k, k < q.length → q[k]? = some (readSym s (pos + k)))

/-- The longest match is unique, so the order of the scan cannot be observed (44_lzw.md R127): outside IDLE two
candidates of one length are one code. -/
def Obligations.LongestMatchIsUnique : Prop :=
  ∀ (s : State) (pos c d l : Nat), LzOk s → s.phase ≠ .idle → c < s.lzDsize.toNat → d < s.lzDsize.toNat →
    candidateLength s pos c = some l → candidateLength s pos d = some l → c = d

/-- A symbol that is not below p matches nothing, and every other one matches something (44_lzw.md R126). -/
def Obligations.NothingMatchesExactlyWhenTheSymbolIsTooLarge : Prop :=
  ∀ (s : State) (p pos : Nat), p ≤ palMax → DictOk p s → pos < s.lzLen.toNat →
    (lzMatch s pos = none ↔ p ≤ (readSym s pos).toNat)

/-- The scan of the whole dictionary and the symbol-at-a-time extension give the same code and length (44_lzw.md
R134). -/
def Obligations.ScanEqualsSymbolAtATimeMatch : Prop :=
  ∀ (s : State) (p pos : Nat), p ≤ palMax → DictOk p s → pos < s.lzLen.toNat → lzMatch s pos = matchBySymbols p s pos

/-! ### Whole calls -/

/-- LZ_ENC completes whenever the configuration is legal, every symbol is below p and the output memories are large
enough for the bound of 46_lzw_composite.md R152 (b), and ends as R152 (d) says; only the fields named change. -/
def Obligations.LzEncCompletesWithinTheBound : Prop :=
  ∀ s : State, s.params.Legal → LzConfigOk s →
    (∀ k, k < s.lzLen.toNat → (readSym s k).toNat < s.lzPalsize.toNat) →
    s.lzMaxbits.toNat * (s.lzLen.toNat + 2) ≤ 8 * s.params.pCap →
    framedLength (ceilDiv (s.lzMaxbits.toNat * (s.lzLen.toNat + 2)) 8) ≤ s.params.oCap →
    ∃ t, exec .lzEnc s = .next t ∧
      t = { s with
        busy := false, intStat := { s.intStat with done := true }, gen := t.gen, phase := .ended
        pkBits := t.pkBits, pbuf := t.pbuf, obLen := t.obLen, obuf := t.obuf, lzPos := s.lzLen, lzW := t.lzW
        lzDsize := t.lzDsize, lzLast := t.lzLast, dict := t.dict } ∧
      t.lzLast.toNat = s.lzPalsize.toNat + 1 ∧ t.pkBits.toNat ≤ s.lzMaxbits.toNat * (s.lzLen.toNat + 2) ∧
      t.obLen.toNat = pkBytes t + ceilDiv (pkBytes t) 255 + 1 ∧
      (∀ j, j < pkBytes t → readObuf t (j + j / 255 + 1) = readPbuf t j) ∧
      (∀ k, k < pkBytes t / 255 → readObuf t (256 * k) = 255) ∧
      (0 < pkBytes t % 255 → (readObuf t (256 * (pkBytes t / 255))).toNat = pkBytes t % 255) ∧
      readObuf t (pkBytes t + ceilDiv (pkBytes t) 255) = 0 ∧
      (∀ i, t.obLen.toNat ≤ i → readObuf t i = readObuf s i) ∧
      (∀ i, pkBytes t ≤ i → readPbuf t i = readPbuf s i) ∧
      ∀ c, t.lzDsize.toNat ≤ c → readDict t c = readDict s c

/-- LZ_ENC is the sequence LZ_BEGIN; LZ_STEP, at most LZ_LEN times; LZ_END; FR_RUN (46_lzw_composite.md R150;
60_exceptions.md R169), up to the model's own counter. Where it succeeds, its state is that after the whole sequence.
Where it faults, the commands `pre` before the one that faults, `i`, are completed, and its state is the one `i` faults
in, but for INT_STAT.DONE, which only the completions before it have set; the fault is never E_SEQ. -/
def Obligations.LzEncIsTheSequenceOfPrimitives : Prop :=
  ∀ s t : State, exec .lzEnc s = .next t →
    (t.phase = .ended →
      ∃ n u, n ≤ s.lzLen.toNat ∧
        execAll (.lzBegin :: (List.replicate n .lzStep ++ [.lzEnd, .frRun])) s = some u ∧
        t = { u with gen := t.gen }) ∧
    (s.err = false → t.err = true →
      ∃ n pre i post u v, n ≤ s.lzLen.toNat ∧
        .lzBegin :: (List.replicate n .lzStep ++ [.lzEnd, .frRun]) = pre ++ i :: post ∧
        execAll pre s = some u ∧ u.err = false ∧ exec i u = .next v ∧ v.err = true ∧
        t = { v with intStat := { s.intStat with err := true }, gen := t.gen } ∧ t.errCode ≠ faultNumber .seq)

/-- A successful LZ_ENC loses nothing (44_lzw.md R126, R128 to R133; 46_lzw_composite.md R150, R152): there are data
codes whose sequences, one after another, are the input, at most one a symbol; each is a string code of the dictionary
left behind; and the packed stream is CLEAR, these codes and END, each at the width the width law gives, LSB first. -/
def Obligations.LzEncStreamIsLossless : Prop :=
  ∀ s t : State, s.params.Legal → exec .lzEnc s = .next t → t.phase = .ended →
    ∃ cs : List Nat,
      cs.length ≤ s.lzLen.toNat ∧ (∀ c ∈ cs, c < t.lzDsize.toNat) ∧
      spelled t cs = some (symbolsAt s 0 s.lzLen.toNat) ∧
      t.lzDsize.toNat = min (s.lzPalsize.toNat + 2 + (cs.length - 1)) (2 ^ s.lzMaxbits.toNat) ∧
      t.pkBits.toNat = (streamBits (encodedCodes s.lzPalsize.toNat s.lzMaxbits.toNat cs)).length ∧
      ∀ j, j < t.pkBits.toNat →
        (streamBits (encodedCodes s.lzPalsize.toNat s.lzMaxbits.toNat cs))[j]? = some (pbufBit t j)

/-- The output of a successful LZ_ENC is a function of the configuration and SYMBUF[0 .. N-1] only, and that of LZ_RAW
likewise without LZ_MAXBITS (46_lzw_composite.md R152 (a)): two states, of whatever capacities, that agree on these and
both succeed leave the same output, and with the same parameters both succeed or neither does. -/
def Obligations.EncodedOutputDependsOnTheInputOnly : Prop :=
  ∀ s₁ s₂ t₁ : State, s₁.params.Legal → s₂.params.Legal → s₁.lzPalsize = s₂.lzPalsize → s₁.lzLen = s₂.lzLen →
    (∀ k, k < s₁.lzLen.toNat → readSym s₁ k = readSym s₂ k) →
    (s₁.lzMaxbits = s₂.lzMaxbits → exec .lzEnc s₁ = .next t₁ → t₁.phase = .ended →
      (s₁.params = s₂.params → ∃ t₂, exec .lzEnc s₂ = .next t₂ ∧ t₂.phase = .ended) ∧
        ∀ t₂, exec .lzEnc s₂ = .next t₂ → t₂.phase = .ended →
          t₂.obLen = t₁.obLen ∧ ∀ i, i < t₁.obLen.toNat → readObuf t₂ i = readObuf t₁ i) ∧
    (s₁.err = false → s₂.err = false → exec .lzRaw s₁ = .next t₁ → t₁.err = false →
      (s₁.params = s₂.params → ∃ t₂, exec .lzRaw s₂ = .next t₂ ∧ t₂.err = false) ∧
        ∀ t₂, exec .lzRaw s₂ = .next t₂ → t₂.err = false →
          t₂.obLen = t₁.obLen ∧ ∀ i, i < t₁.obLen.toNat → readObuf t₂ i = readObuf t₁ i)

/-- LZ_ENC over an input whose first symbol not below p stands at k faults with E_SYM(k) and leaves LZ_POS = k; of the
rest only what fault entry writes, PBUF and the working registers and dictionary of the encoding may differ
(46_lzw_composite.md R150; 60_exceptions.md R166, R169). -/
def Obligations.LzEncFaultsAtTheFirstLargeSymbol : Prop :=
  ∀ (s : State) (k : Nat), s.params.Legal → LzConfigOk s → k < s.lzLen.toNat →
    (∀ j, j < k → (readSym s j).toNat < s.lzPalsize.toNat) → s.lzPalsize.toNat ≤ (readSym s k).toNat →
    s.lzMaxbits.toNat * (s.lzLen.toNat + 2) ≤ 8 * s.params.pCap →
    ∃ t, exec .lzEnc s = .next t ∧
      t = { faultEntry .sym (BitVec.ofNat 32 k) s with
        pbuf := t.pbuf, lzPos := BitVec.ofNat 32 k, lzW := t.lzW, lzDsize := t.lzDsize, lzLast := t.lzLast
        dict := t.dict }

/-- LZ_RAW (46_lzw_composite.md R151): its word; its faults in the order tested, after E_SYM at most OBUF differing,
which is invalid then; and otherwise the symbols in chunks of 126, each after its two header bytes, then CLEAR, END
and the terminator; everything but OBUF and OB_LEN stays. -/
def Obligations.LzRawWritesTheChunks : Prop :=
  decode 0x00000044 = .instr .lzRaw ∧
  ∀ s : State,
    (s.lzPalsize.toNat = 0 ∨ 256 < s.lzPalsize.toNat → exec .lzRaw s = .next (faultEntry .cfg 1 s)) ∧
    (0 < s.lzPalsize.toNat → s.lzPalsize.toNat < 65 ∨ 128 < s.lzPalsize.toNat → s.lzPalsize.toNat ≤ 256 →
      exec .lzRaw s = .next (faultEntry .cfg 4 s)) ∧
    (65 ≤ s.lzPalsize.toNat → s.lzPalsize.toNat ≤ 128 →
      (s.params.symCap < s.lzLen.toNat → exec .lzRaw s = .next (faultEntry .cfg 3 s)) ∧
      (s.lzLen.toNat ≤ s.params.symCap →
        (s.params.oCap < s.lzLen.toNat + 2 * ceilDiv s.lzLen.toNat 126 + 4 →
          exec .lzRaw s = .next (faultEntry .ovf 1 s)) ∧
        (s.lzLen.toNat + 2 * ceilDiv s.lzLen.toNat 126 + 4 ≤ s.params.oCap →
          (∀ k, k < s.lzLen.toNat → (∀ j, j < k → (readSym s j).toNat < s.lzPalsize.toNat) →
            s.lzPalsize.toNat ≤ (readSym s k).toNat →
            ∃ t, exec .lzRaw s = .next t ∧
              t = { faultEntry .sym (BitVec.ofNat 32 k) s with obuf := t.obuf } ∧
              ∀ i, k + 2 * (k / 126) + 2 ≤ i → readObuf t i = readObuf s i) ∧
          (s.params.Legal → (∀ k, k < s.lzLen.toNat → (readSym s k).toNat < s.lzPalsize.toNat) →
            ∃ t, exec .lzRaw s = .next t ∧
              t = { s with
                busy := false, intStat := { s.intStat with done := true }, gen := t.gen
                obuf := t.obuf, obLen := t.obLen } ∧
              t.obLen.toNat = s.lzLen.toNat + 2 * ceilDiv s.lzLen.toNat 126 + 4 ∧
              (∀ j, j < s.lzLen.toNat → readObuf t (j + 2 * (j / 126) + 2) = readSym s j) ∧
              (∀ c, c < ceilDiv s.lzLen.toNat 126 →
                (readObuf t (128 * c)).toNat = min 126 (s.lzLen.toNat - 126 * c) + 1 ∧
                  (readObuf t (128 * c + 1)).toNat = s.lzPalsize.toNat) ∧
              (readObuf t (t.obLen.toNat - 4)).toNat = 2 ∧
              (readObuf t (t.obLen.toNat - 3)).toNat = s.lzPalsize.toNat ∧
              (readObuf t (t.obLen.toNat - 2)).toNat = s.lzPalsize.toNat + 1 ∧
              readObuf t (t.obLen.toNat - 1) = 0 ∧
              ∀ i, t.obLen.toNat ≤ i → readObuf t i = readObuf s i))))

/-! ### Colour -/

/-- CT_LOOK, where the unit is present: its word, its faults in the order tested, and otherwise the colour of the pixel
for each legal depth and the transparency flag (43_colour.md R110, R111). -/
def Obligations.CtLookGivesColourAndTransparency : Prop :=
  decode 0x00000050 = .instr .ctLook ∧
  ∀ s : State,
    (s.params.hasCtm = false → exec .ctLook s = .next (faultEntry .cmd s.cmd s)) ∧
    (s.params.hasCtm = true →
      (s.ctBpp.toNat ∉ [1, 4, 8, 24, 32] → exec .ctLook s = .next (faultEntry .depth (s.ctBpp.setWidth 32) s)) ∧
      (s.ctBpp.toNat ∈ [1, 4, 8, 24] → 2 ^ s.ctBpp.toNat ≤ s.pxIn.toNat →
        exec .ctLook s = .next (faultEntry .pxRange s.pxIn s)) ∧
      (s.ctBpp.toNat ∈ [1, 4, 8, 24, 32] → s.pxIn.toNat < 2 ^ s.ctBpp.toNat →
        ∃ t, exec .ctLook s = .next t ∧
          t = { s with
            busy := false, intStat := { s.intStat with done := true }, gen := t.gen
            color := t.color, colorT := t.colorT } ∧
          (s.ctBpp.toNat ≤ 8 →
            byte3 t.color = 255 ∧ byte2 t.color = byte0 (readCt s s.pxIn.toNat) ∧
              byte1 t.color = byte1 (readCt s s.pxIn.toNat) ∧ byte0 t.color = byte2 (readCt s s.pxIn.toNat)) ∧
          (s.ctBpp.toNat = 24 →
            byte3 t.color = 255 ∧ byte2 t.color = byte2 s.pxIn ∧ byte1 t.color = byte1 s.pxIn ∧
              byte0 t.color = byte0 s.pxIn) ∧
          (s.ctBpp.toNat = 32 →
            byte3 t.color = byte0 s.pxIn ∧ byte2 t.color = byte3 s.pxIn ∧ byte1 t.color = byte2 s.pxIn ∧
              byte0 t.color = byte1 s.pxIn) ∧
          (t.colorT = true ↔ (byte3 t.color).toNat < 128 ∨ s.pxMask = true)))

/-- PZ_FOLD (43_colour.md R113): its word, E_CMD where the unit is absent, E_CFG(6) for ABITS above 8, and otherwise
the transparent tuple, or each channel shifted right. -/
def Obligations.PzFoldShiftsTheChannelsRight : Prop :=
  decode 0x00000060 = .instr .pzFold ∧
  ∀ s : State,
    (s.params.hasPlut = false → exec .pzFold s = .next (faultEntry .cmd s.cmd s)) ∧
    (s.params.hasPlut = true →
      (8 < s.pzAbits.toNat → exec .pzFold s = .next (faultEntry .cfg 6 s)) ∧
      (s.pzAbits.toNat ≤ 8 →
        ∃ t, exec .pzFold s = .next t ∧
          t = { s with
            busy := false, intStat := { s.intStat with done := true }, gen := t.gen, tuple := t.tuple } ∧
          if s.colorT = true ∨ (byte3 s.color).toNat < 128 then t.tuple = 0
          else
            (byte3 t.tuple).toNat = (byte3 s.color).toNat / 2 ^ max s.pzLevel.toNat (8 - s.pzAbits.toNat) ∧
              (byte2 t.tuple).toNat = (byte2 s.color).toNat / 2 ^ s.pzLevel.toNat ∧
              (byte1 t.tuple).toNat = (byte1 s.color).toNat / 2 ^ s.pzLevel.toNat ∧
              (byte0 t.tuple).toNat = (byte0 s.color).toNat / 2 ^ s.pzLevel.toNat))

/-- PZ_UNFOLD (43_colour.md R114): its word, E_CMD where the unit is absent, E_CFG(6) for ABITS above 8, and otherwise
each channel shifted left and kept to 8 bits. -/
def Obligations.PzUnfoldShiftsTheChannelsLeft : Prop :=
  decode 0x00000061 = .instr .pzUnfold ∧
  ∀ s : State,
    (s.params.hasPlut = false → exec .pzUnfold s = .next (faultEntry .cmd s.cmd s)) ∧
    (s.params.hasPlut = true →
      (8 < s.pzAbits.toNat → exec .pzUnfold s = .next (faultEntry .cfg 6 s)) ∧
      (s.pzAbits.toNat ≤ 8 →
        ∃ t, exec .pzUnfold s = .next t ∧
          t = { s with
            busy := false, intStat := { s.intStat with done := true }, gen := t.gen, color := t.color } ∧
          (byte3 t.color).toNat =
            (byte3 s.tuple).toNat * 2 ^ max s.pzLevel.toNat (8 - s.pzAbits.toNat) % 256 ∧
          (byte2 t.color).toNat = (byte2 s.tuple).toNat * 2 ^ s.pzLevel.toNat % 256 ∧
          (byte1 t.color).toNat = (byte1 s.tuple).toNat * 2 ^ s.pzLevel.toNat % 256 ∧
          (byte0 t.color).toNat = (byte0 s.tuple).toNat * 2 ^ s.pzLevel.toNat % 256))

/-- Unfolding what was folded at the same PZ_CFG clears the low i bits of red, green and blue and the low sa bits of
alpha of an opaque colour, and no other (43_colour.md R114, corner cases). -/
def Obligations.UnfoldAfterFoldClearsTheLowBits : Prop :=
  ∀ (i ab : Nat) (col : Word), i ≤ 7 → ab ≤ 8 → 128 ≤ (byte3 col).toNat →
    unfoldTuple i ab (foldColour i ab col false) =
      colourOf (BitVec.ofNat 8 ((byte3 col).toNat - (byte3 col).toNat % 2 ^ alphaShift i ab))
        (BitVec.ofNat 8 ((byte2 col).toNat - (byte2 col).toNat % 2 ^ i))
        (BitVec.ofNat 8 ((byte1 col).toNat - (byte1 col).toNat % 2 ^ i))
        (BitVec.ofNat 8 ((byte0 col).toNat - (byte0 col).toNat % 2 ^ i))

/-! ### What commands leave alone -/

/-- A command changes only the memories the table of 20_memory.md R51 lets it write: none writes CT, SYMBUF or UBUF;
PBUF, DICT and OBUF are written by the commands named there. -/
def Obligations.CommandsWriteOnlyTheirMemories : Prop :=
  ∀ (i : Instr) (s t : State), exec i s = .next t →
    t.params = s.params ∧ t.epoch = s.epoch ∧ t.ct = s.ct ∧ t.symbuf = s.symbuf ∧ t.ubuf = s.ubuf ∧
    (i ≠ .lzBegin → i ≠ .lzStep → i ≠ .lzEnc → t.dict = s.dict) ∧
    (i ≠ .lzBegin → i ≠ .lzStep → i ≠ .lzEnc → i ≠ .lzEnd → (∀ n, i ≠ .pkPush n) → t.pbuf = s.pbuf) ∧
    (i ≠ .frRun → i ≠ .lzEnc → i ≠ .lzRaw → t.obuf = s.obuf)

/-- No command but RST changes a register only the host writes; UP_DATA and UP_POS, COLOR, COLOR_T and TUPLE change
only by their commands; LZ_POS, LZ_W, LZ_DSIZE and LZ_LAST keep their values through LZ_RAW, FR_RUN and every other
command that is none of the four LZW ones, faulting or not (10_state.md R15, R20, R23, R24, R26 to R29). -/
def Obligations.CommandsKeepTheOtherRegisters : Prop :=
  ∀ (i : Instr) (s t : State), i ≠ .rst → exec i s = .next t →
    t.cmd = s.cmd ∧ t.intEn = s.intEn ∧ t.pkData = s.pkData ∧ t.upLen = s.upLen ∧ t.lzPalsize = s.lzPalsize ∧
    t.lzMaxbits = s.lzMaxbits ∧ t.lzLen = s.lzLen ∧ t.ctBpp = s.ctBpp ∧ t.pxIn = s.pxIn ∧ t.pxMask = s.pxMask ∧
    t.pzLevel = s.pzLevel ∧ t.pzAbits = s.pzAbits ∧
    ((∀ n, i ≠ .upPop n) → t.upData = s.upData ∧ (i ≠ .upAlign → t.upPos = s.upPos)) ∧
    (i ≠ .ctLook → t.colorT = s.colorT ∧ (i ≠ .pzUnfold → t.color = s.color)) ∧
    (i ≠ .pzFold → t.tuple = s.tuple) ∧
    (i ≠ .lzBegin → i ≠ .lzStep → i ≠ .lzEnd → i ≠ .lzEnc →
      t.lzPos = s.lzPos ∧ t.lzW = s.lzW ∧ t.lzDsize = s.lzDsize ∧ t.lzLast = s.lzLast)

/-- The phase after a command (the table of 44_lzw.md R135): IDLE after every fault and after RST, ACTIVE after
LZ_BEGIN, ENDED after LZ_END and LZ_ENC, and as before after every other; LZ_STEP and LZ_END outside ACTIVE or at the
wrong position, and PK_RST and PK_PUSH in ACTIVE, raise E_SEQ. -/
def Obligations.PhaseFollowsTheTransitionTable : Prop :=
  ∀ (i : Instr) (s t : State), i.wellFormed = true → s.err = false → exec i s = .next t →
    (t.err = true → t.phase = .idle) ∧
    (t.err = false → t.phase = match i with
      | .rst => .idle
      | .lzBegin => .active
      | .lzEnd => .ended
      | .lzEnc => .ended
      | _ => s.phase) ∧
    (i = .lzStep ∧ (s.phase ≠ .active ∨ s.lzLen.toNat ≤ s.lzPos.toNat) → t = faultEntry .seq s.cmd s) ∧
    (i = .lzEnd ∧ (s.phase ≠ .active ∨ s.lzPos ≠ s.lzLen) → t = faultEntry .seq s.cmd s) ∧
    ((i = .pkRst ∨ ∃ n, i = .pkPush n) ∧ s.phase = .active → t = faultEntry .seq s.cmd s)

/-! ### Host access -/

/-- Command acceptance (30_encoding.md R72): in the IDLE-state a write to CMD of any word sets CMD and BUSY and nothing
else; in the ERR-state only the word of RST is accepted; in the BUSY-state none. -/
def Obligations.WritingCmdIsCommandAcceptance : Prop :=
  ∀ (s : State) (w : Word),
    (s.busy = false → s.err = false → hostWrite s 0x01C 4 w = some { s with cmd := w, busy := true }) ∧
    (s.busy = false → s.err = true →
      hostWrite s 0x01C 4 w = if w = 0x00000001 then some { s with cmd := w, busy := true } else none) ∧
    (s.busy = true → hostWrite s 0x01C 4 w = none)

/-- The BUSY-state row of 20_memory.md R55: exactly the ten registers at 0x000 to 0x024 can be read, nothing can be
written. -/
def Obligations.BusyStateAdmitsTenRegisterReads : Prop :=
  ∀ (s : State) (off n : Nat), s.busy = true →
    ((hostRead s off n).isSome = true ↔ n = 4 ∧ off % 4 = 0 ∧ off ≤ 0x24) ∧ ∀ v, hostWrite s off n v = none

/-- The ERR-state row of 20_memory.md R55: every location the IDLE-state can read is read, with the same value but for
STATUS, which shows ERR; only RST can be written, to CMD (60_exceptions.md R167). -/
def Obligations.ErrStateAdmitsReadsAndRstOnly : Prop :=
  ∀ (s : State) (off n : Nat), s.busy = false → s.err = true →
    (off ≠ 0x018 → hostRead s off n = hostRead { s with err := false } off n) ∧
    hostRead s 0x018 4 = some (2 + 16 * (phaseBits s.phase).setWidth 32) ∧
      ∀ v, (hostWrite s off n v).isSome = true ↔ off = 0x01C ∧ n = 4 ∧ v = 1

/-- The IDLE-state row of 20_memory.md R55 for the locations it locks: while ACTIVE a write to LZ_PALSIZE, LZ_MAXBITS,
LZ_LEN or SYMBUF is refused, and outside ACTIVE the same aligned write succeeds. -/
def Obligations.ConfigurationAndSymbufLockedWhileActive : Prop :=
  ∀ (s : State) (off n : Nat) (v : Word), s.busy = false → s.err = false → s.params.Legal →
    ((n = 4 ∧ (off = 0x070 ∨ off = 0x074 ∨ off = 0x078)) ∨
      ((n = 1 ∨ n = 2 ∨ n = 4) ∧ off % n = 0 ∧ 0x10000 ≤ off ∧ off < 0x10000 + s.params.symCap)) →
    ((hostWrite s off n v).isSome = true ↔ s.phase ≠ .active)

/-- Read-only locations refuse every write (10_state.md R17, 20_memory.md R51), and the holes of the register map and
of the aperture, offsets of a window at or above its capacity, and the locations of an absent unit refuse every access
(10_state.md R30, R40; 20_memory.md R51). -/
def Obligations.ReadOnlyAndUnmappedLocationsRefuse : Prop :=
  ∀ (s : State) (off n : Nat) (v : Word), s.params.Legal →
    (off ∈ [0x000, 0x004, 0x008, 0x00C, 0x010, 0x014, 0x018, 0x028, 0x02C, 0x044, 0x048, 0x04C, 0x058, 0x05C, 0x060,
        0x07C, 0x080, 0x084, 0x088, 0x08C] ∨ (0x4000 ≤ off ∧ off < 0x8000) ∨ 0x40000 ≤ off →
      hostWrite s off n v = none) ∧
    (off ∈ [0x030, 0x034, 0x038, 0x03C, 0x064, 0x068, 0x06C, 0x090, 0x094, 0x098, 0x09C, 0x0B4, 0x0B8, 0x0BC] ∨
        (0x0C8 ≤ off ∧ off < 0x400) ∨ (0x800 ≤ off ∧ off < 0x4000) ∨ (0x8000 ≤ off ∧ off < 0x10000) ∨
        (0x10000 + s.params.symCap ≤ off ∧ off < 0x20000) ∨ (0x20000 + s.params.uCap ≤ off ∧ off < 0x40000) ∨
        (0x40000 + s.params.pCap ≤ off ∧ off < 0x60000) ∨ 0x60000 + s.params.oCap ≤ off ∨
        (s.params.hasCtm = false ∧ (off ∈ [0x0A0, 0x0A4, 0x0A8] ∨ (0x400 ≤ off ∧ off < 0x800))) ∨
        (s.params.hasPlut = false ∧ off ∈ [0x0C0, 0x0C4]) ∨
        (s.params.hasCtm = false ∧ s.params.hasPlut = false ∧ off ∈ [0x0AC, 0x0B0]) →
      hostRead s off n = none ∧ hostWrite s off n v = none)

/-- A write to a writable register other than CMD and INT_STAT, outside the BUSY-state and the ERR-state, stores its
implemented bits in the field of that register, changes nothing else, and is read back (10_state.md R26, R28 to R30;
20_memory.md R55): in every phase but for the three LZ registers, which ACTIVE locks, and for the optional units each
where it is present. -/
def Obligations.RegistersReadBackTheirImplementedBits : Prop :=
  ∀ (s : State) (v : Word), s.busy = false → s.err = false →
    (WritesField s 0x024 v 0x3 { s with intEn := { done := v.getLsbD 0, err := v.getLsbD 1 } } ∧
      WritesField s 0x040 v 0xFFFFFFFF { s with pkData := v } ∧
      WritesField s 0x050 v 0xFFFFFFFF { s with upLen := v } ∧
      WritesField s 0x054 v 0xFFFFFFFF { s with upPos := v }) ∧
    (s.phase ≠ .active →
      WritesField s 0x070 v 0x1FF { s with lzPalsize := v.setWidth 9 } ∧
        WritesField s 0x074 v 0xF { s with lzMaxbits := v.setWidth 4 } ∧
        WritesField s 0x078 v 0xFFFFFFFF { s with lzLen := v }) ∧
    (s.params.hasCtm = true →
      WritesField s 0x0A0 v 0x3F { s with ctBpp := v.setWidth 6 } ∧
        WritesField s 0x0A4 v 0xFFFFFFFF { s with pxIn := v } ∧
        WritesField s 0x0A8 v 0x1 { s with pxMask := v.getLsbD 0 }) ∧
    (s.params.hasCtm = true ∨ s.params.hasPlut = true →
      WritesField s 0x0AC v 0xFFFFFFFF { s with color := v } ∧
        WritesField s 0x0B0 v 0x1 { s with colorT := v.getLsbD 0 }) ∧
    (s.params.hasPlut = true →
      WritesField s 0x0C0 v 0xF07 { s with pzLevel := v.extractLsb' 0 3, pzAbits := v.extractLsb' 8 4 } ∧
        WritesField s 0x0C4 v 0xFFFFFFFF { s with tuple := v })

/-- Writes of 1, 2 and 4 bytes to SYMBUF (outside ACTIVE) and to UBUF (20_memory.md R53 to R55): the bytes of the value
are stored from the offset on, byte [7:0] first, no other byte of that memory and nothing else of the state changes, and
a read of any size inside the bytes written returns its part of the value. R52 gives a write of n bytes only values below
256^n; that of a larger one only the low n bytes count is the model's choice (log 12, DESIGN CHOICE). -/
def Obligations.ByteMemoriesAreLittleEndian : Prop :=
  ∀ (s : State) (off n : Nat) (v : Word), s.busy = false → s.err = false → s.params.Legal →
    n = 1 ∨ n = 2 ∨ n = 4 → off % n = 0 →
    (0x10000 ≤ off → off < 0x10000 + s.params.symCap → s.phase ≠ .active →
      ∃ t, hostWrite s off n v = some t ∧ t = { s with symbuf := t.symbuf, gen := t.gen } ∧
        (∀ k, k < n → readSym t (off - 0x10000 + k) = v.extractLsb' (8 * k) 8) ∧
        (∀ i, i < off - 0x10000 ∨ off - 0x10000 + n ≤ i → readSym t i = readSym s i) ∧
        ReadsBackParts t off n v) ∧
    (0x20000 ≤ off → off < 0x20000 + s.params.uCap →
      ∃ t, hostWrite s off n v = some t ∧ t = { s with ubuf := t.ubuf, gen := t.gen } ∧
        (∀ k, k < n → readUbuf t (off - 0x20000 + k) = v.extractLsb' (8 * k) 8) ∧
        (∀ i, i < off - 0x20000 ∨ off - 0x20000 + n ≤ i → readUbuf t i = readUbuf s i) ∧
        ReadsBackParts t off n v)

/-- INT_STAT is write 1 to clear and INT_EN is stored; the interrupt output is the level of R170 (10_state.md R21,
60_exceptions.md R170). -/
def Obligations.InterruptBitsAndOutput : Prop :=
  ∀ (s : State) (v : Word),
    (s.busy = false → s.err = false →
      (∃ t, hostWrite s 0x020 4 v = some t ∧
        t = { s with
          intStat := { done := s.intStat.done && !v.getLsbD 0, err := s.intStat.err && !v.getLsbD 1 }
          gen := t.gen }) ∧
      ∃ t, hostWrite s 0x024 4 v = some t ∧
        t = { s with intEn := { done := v.getLsbD 0, err := v.getLsbD 1 }, gen := t.gen }) ∧
    (irq s = true ↔ (s.intStat.done = true ∧ s.intEn.done = true) ∨ (s.intStat.err = true ∧ s.intEn.err = true))

/-- CT and DICT through their windows (10_state.md R31, R32; 20_memory.md R51): when not busy an entry of CT reads as
what it is, a word written to CT[k] is stored there, nothing else changes, and it is read back; a valid entry of DICT
reads as its word, and an index at or beyond LZ_DSIZE is read without BusError (70_reset_and_hazards.md R198). -/
def Obligations.ColourTableAndDictionaryWindows : Prop :=
  (∀ (s : State) (k : Nat), s.busy = false → s.params.hasCtm = true → k < 256 →
    hostRead s (0x400 + 4 * k) 4 = some (readCt s k)) ∧
  (∀ (s : State) (k : Nat) (v : Word), s.busy = false → s.err = false → s.params.hasCtm = true → k < 256 →
    ∃ t, hostWrite s (0x400 + 4 * k) 4 v = some t ∧ t = { s with ct := t.ct, gen := t.gen } ∧
      hostRead t (0x400 + 4 * k) 4 = some v ∧ readCt t k = v ∧ ∀ j, j ≠ k → readCt t j = readCt s j) ∧
  ∀ (s : State) (c : Nat), s.busy = false → c < 4096 →
    (hostRead s (0x4000 + 4 * c) 4).isSome = true ∧
    (c < s.lzDsize.toNat →
      ∃ w, hostRead s (0x4000 + 4 * c) 4 = some w ∧ w.toNat / 2 ^ 22 = 0 ∧
        w.extractLsb' 0 8 = (readDict s c).sym ∧ w.extractLsb' 8 12 = (readDict s c).pre ∧
        (w.extractLsb' 20 2).toNat = match (readDict s c).kind with
          | .lit => 0
          | .str => 1
          | .clearCode => 2
          | .endCode => 3)

/-- The four byte memories through their windows (10_state.md R34 to R37; 20_memory.md R51, R53): when not busy an
aligned read of 1, 2 or 4 bytes from index i on succeeds and is below 256^n; byte k of its value is byte i+k of SYMBUF
or UBUF, and of PBUF or OBUF where that byte is valid (70_reset_and_hazards.md R198: one that is not is read without
BusError). -/
def Obligations.ByteWindowsShowTheirMemories : Prop :=
  ∀ (s : State) (i n : Nat), s.busy = false → s.params.Legal → n = 1 ∨ n = 2 ∨ n = 4 → i % n = 0 →
    (i < s.params.symCap → ∃ w, hostRead s (0x10000 + i) n = some w ∧ w.toNat < 256 ^ n ∧
      ∀ k, k < n → w.extractLsb' (8 * k) 8 = readSym s (i + k)) ∧
    (i < s.params.uCap → ∃ w, hostRead s (0x20000 + i) n = some w ∧ w.toNat < 256 ^ n ∧
      ∀ k, k < n → w.extractLsb' (8 * k) 8 = readUbuf s (i + k)) ∧
    (i < s.params.pCap → ∃ w, hostRead s (0x40000 + i) n = some w ∧ w.toNat < 256 ^ n ∧
      ∀ k, k < n → i + k < pkBytes s → w.extractLsb' (8 * k) 8 = readPbuf s (i + k)) ∧
    (i < s.params.oCap → ∃ w, hostRead s (0x60000 + i) n = some w ∧ w.toNat < 256 ^ n ∧
      ∀ k, k < n → i + k < s.obLen.toNat → w.extractLsb' (8 * k) 8 = readObuf s (i + k))

/-- The registers as the host reads them (10_state.md R19 to R29; 20_memory.md R55): in every state STATUS packs BUSY,
ERR and LZ_PHASE, and INT_STAT and INT_EN pack their two bits, reserved bits 0; when not busy the registers from
ERR_CODE on read as their fields, those of an optional unit where it is present, but for PK_BYTES, PK_TAIL, UP_REMB and
LZ_W0, which are computed from PK_BITS and PBUF, UP_LEN and UP_POS, LZ_PALSIZE. -/
def Obligations.StatusAndDerivedRegisters : Prop :=
  (∀ s : State,
    (∃ w, hostRead s 0x018 4 = some w ∧ w.getLsbD 0 = s.busy ∧ w.getLsbD 1 = s.err ∧ w.extractLsb' 2 2 = 0 ∧
      (w.toNat / 16 = match s.phase with
        | .idle => 0
        | .active => 1
        | .ended => 2)) ∧
    (∃ w, hostRead s 0x020 4 = some w ∧ w.getLsbD 0 = s.intStat.done ∧ w.getLsbD 1 = s.intStat.err ∧ w.toNat < 4) ∧
    ∃ w, hostRead s 0x024 4 = some w ∧ w.getLsbD 0 = s.intEn.done ∧ w.getLsbD 1 = s.intEn.err ∧ w.toNat < 4) ∧
  (∀ s : State, s.busy = false →
    (∀ p ∈ [(0x028, s.errCode.setWidth 32), (0x02C, s.errInfo), (0x040, s.pkData), (0x044, s.pkBits), (0x050, s.upLen),
        (0x054, s.upPos), (0x058, s.upData), (0x060, s.obLen), (0x070, s.lzPalsize.setWidth 32),
        (0x074, s.lzMaxbits.setWidth 32), (0x078, s.lzLen), (0x07C, s.lzPos), (0x080, s.lzW.setWidth 32),
        (0x084, s.lzDsize.setWidth 32), (0x08C, s.lzLast.setWidth 32)], hostRead s p.1 4 = some p.2) ∧
    (s.params.hasCtm = true →
      ∀ p ∈ [(0x0A0, s.ctBpp.setWidth 32), (0x0A4, s.pxIn), (0x0A8, if s.pxMask then 1 else 0)],
        hostRead s p.1 4 = some p.2) ∧
    (s.params.hasCtm = true ∨ s.params.hasPlut = true →
      ∀ p ∈ [(0x0AC, s.color), (0x0B0, if s.colorT then 1 else 0)], hostRead s p.1 4 = some p.2) ∧
    (s.params.hasPlut = true →
      (∃ w, hostRead s 0x0C0 4 = some w ∧ w.toNat = s.pzLevel.toNat + 2 ^ 8 * s.pzAbits.toNat) ∧
        hostRead s 0x0C4 4 = some s.tuple)) ∧
  ∀ s : State, s.params.Legal → s.pkBits.toNat ≤ 8 * s.params.pCap → s.busy = false →
    (∃ w, hostRead s 0x048 4 = some w ∧ w.toNat = (s.pkBits.toNat + 7) / 8) ∧
    (∃ w, hostRead s 0x04C 4 = some w ∧
      w.toNat = if s.pkBits = 0 then 0 else (readPbuf s ((s.pkBits.toNat + 7) / 8 - 1)).toNat) ∧
    (∃ w, hostRead s 0x05C 4 = some w ∧ w.toNat = s.upLen.toNat - (s.upPos.toNat + 7) / 8) ∧
    ∃ w, hostRead s 0x088 4 = some w ∧
      w.toNat = if s.lzPalsize.toNat = 0 ∨ 256 < s.lzPalsize.toNat then 0
        else max 2 (clog2 s.lzPalsize.toNat + 1)

/-- Sizes and alignment (20_memory.md R54): an access whose size is not 1, 2 or 4, whose offset is no multiple of its
size, or that names a register, CT or DICT with other than 4 bytes is refused; one that succeeds in a byte window lies
wholly inside the memory, and one wholly inside a byte memory is read when ALZ is not busy. -/
def Obligations.OnlySizedAlignedAccessesSucceed : Prop :=
  ∀ (s : State) (off n : Nat) (v : Word), s.params.Legal →
    (¬ (n = 1 ∨ n = 2 ∨ n = 4) ∨ off % n ≠ 0 ∨ (off < 0x10000 ∧ n ≠ 4) →
      hostRead s off n = none ∧ hostWrite s off n v = none) ∧
    ((hostRead s off n).isSome = true ∨ (hostWrite s off n v).isSome = true →
      (0x10000 ≤ off → off < 0x20000 → off + n ≤ 0x10000 + s.params.symCap) ∧
      (0x20000 ≤ off → off < 0x40000 → off + n ≤ 0x20000 + s.params.uCap) ∧
      (0x40000 ≤ off → off < 0x60000 → off + n ≤ 0x40000 + s.params.pCap) ∧
      (0x60000 ≤ off → off + n ≤ 0x60000 + s.params.oCap)) ∧
    (s.busy = false → n = 1 ∨ n = 2 ∨ n = 4 → off % n = 0 →
      (0x10000 ≤ off ∧ off + n ≤ 0x10000 + s.params.symCap) ∨ (0x20000 ≤ off ∧ off + n ≤ 0x20000 + s.params.uCap) ∨
        (0x40000 ≤ off ∧ off + n ≤ 0x40000 + s.params.pCap) ∨ (0x60000 ≤ off ∧ off + n ≤ 0x60000 + s.params.oCap) →
      (hostRead s off n).isSome = true)

/-- While a command is in execution no transfer of the host changes anything but the port's response (20_memory.md R60;
60_exceptions.md R171). -/
def Obligations.HostCannotDisturbACommand : Prop :=
  ∀ (s t : State) (m : Input) (rest : List Input), s.busy = true → s.inputs = m :: rest →
    (∃ addr size, m = .read addr size ∨ ∃ v, m = .write addr size v) → step s = .next t →
    t = { s with inputs := rest, port := t.port }

/-- Doing a transfer twice is doing it once (20_memory.md R56): a second read, or a second write of the same value other
than to CMD, right after the first gives the same response, and nothing else changes but the list of moves. With log 6
this includes the free values read beyond a valid length. -/
def Obligations.RepeatedAccessesAddNothing : Prop :=
  ∀ (s t : State) (m : Input) (rest : List Input), s.inputs = m :: m :: rest →
    (∃ addr size, m = .read addr size ∨ (addr ≠ 0x1C ∧ ∃ v, m = .write addr size v)) → step s = .next t →
    step t = .next { t with inputs := rest }

/-! ### Invariants that every step keeps -/

/-- The canonical form of the six memories is kept by every step (the model's own representation, log 16). -/
def Obligations.StepKeepsMemoriesCanonical : Prop :=
  ∀ s t : State, memoriesWf s = true → step s = .next t → memoriesWf t = true

/-- What the rules say of the ERR state is kept by every step (10_state.md R22; 60_exceptions.md R166, R167, R169). -/
def Obligations.StepKeepsErrStateConsistent : Prop :=
  ∀ s t : State, ErrStateOk s → step s = .next t → ErrStateOk t

/-- The capacities and the padding of the last byte are kept by every step (10_state.md R23, R25, R36). -/
def Obligations.StepKeepsTheStreamInvariant : Prop :=
  ∀ s t : State, StreamOk s → step s = .next t → StreamOk t

/-- The dictionary invariants and the width law are kept by every step (10_state.md R15, R27, R33; 44_lzw.md R132). That
in ENDED the width law and the bounds are those of the encoding that ended, and that LZ_POS is bounded by LZ_LEN while
ACTIVE only, is the model's reading of R15, R27 and R132 (log 21, DEDUCED). -/
def Obligations.StepKeepsTheDictionaryInvariants : Prop :=
  ∀ s t : State, LzOk s → step s = .next t → LzOk t

/-- The state after reset, with the default parameters and with any legal ones (log 4), meets the four invariants that
every step keeps: canonical memories, a consistent ERR state, the stream invariant and the dictionary invariants. -/
def Obligations.ResetMeetsTheInvariants : Prop :=
  (memoriesWf State.reset = true ∧ ErrStateOk State.reset ∧ StreamOk State.reset ∧ LzOk State.reset) ∧
    ∀ p : Params, p.Legal →
      memoriesWf (State.resetWith p) = true ∧ ErrStateOk (State.resetWith p) ∧ StreamOk (State.resetWith p) ∧
        LzOk (State.resetWith p)

/-! ### Rules over all steps -/

/-- The ERR state is left only by the completion of RST or by hardware reset (60_exceptions.md R167, R168). -/
def Obligations.ErrStateLeftOnlyByRstOrHardwareReset : Prop :=
  ∀ s t : State, s.err = true → step s = .next t → t.err = false →
    (∃ rest, s.inputs = .hardwareReset :: rest) ∨
      (s.busy = true ∧ s.cmd = 1 ∧ EngineMoves s)

/-- A pending interrupt bit is cleared only by a host write of 1 to it, by the completion of RST and by hardware reset
(60_exceptions.md R170, 70_reset_and_hazards.md R199). -/
def Obligations.PendingInterruptBitsAreSticky : Prop :=
  ∀ s t : State, step s = .next t →
    (s.intStat.done = true → t.intStat.done = true ∨ (∃ rest, s.inputs = .hardwareReset :: rest) ∨
      (s.busy = true ∧ s.cmd = 1 ∧ EngineMoves s) ∨
      ∃ v rest, s.inputs = .write 0x20 2 v :: rest ∧ v.getLsbD 0 = true) ∧
    (s.intStat.err = true → t.intStat.err = true ∨ (∃ rest, s.inputs = .hardwareReset :: rest) ∨
      (s.busy = true ∧ s.cmd = 1 ∧ EngineMoves s) ∨
      ∃ v rest, s.inputs = .write 0x20 2 v :: rest ∧ v.getLsbD 1 = true)

/-- CMD is written at acceptance, by the completion of RST and by hardware reset, and by nothing else; a host write to
it is the only way to make ALZ busy; it can always be read (10_state.md R20). -/
def Obligations.CmdWrittenByAcceptanceAndResetOnly : Prop :=
  (∀ s : State, hostRead s 0x01C 4 = some s.cmd) ∧
  ∀ s t : State, step s = .next t →
    (t.cmd = s.cmd ∨
      (∃ v rest, s.inputs = .write 0x1C 2 v :: rest ∧ s.busy = false ∧ t.busy = true ∧ t.cmd = v) ∨
      (t.cmd = 0 ∧ ((∃ rest, s.inputs = .hardwareReset :: rest) ∨ (s.busy = true ∧ s.cmd = 1 ∧ EngineMoves s)))) ∧
    (s.busy = false → t.busy = true → ∃ v rest, s.inputs = .write 0x1C 2 v :: rest ∧ t.cmd = v)

/-- In the ERR state the code and the information of the fault are never overwritten (60_exceptions.md R169): a step
that does not leave the ERR state keeps them. -/
def Obligations.FaultRecordKeptInTheErrState : Prop :=
  ∀ s t : State, ErrStateOk s → s.err = true → step s = .next t → t.err = true →
    t.errCode = s.errCode ∧ t.errInfo = s.errInfo

/-- The six constant registers: what they read as in every state, and with the default parameters, and that no step, so
no command and no reset, changes them (10_state.md R18). -/
def Obligations.ConstantRegistersNeverChange : Prop :=
  (∀ s : State, s.params.Legal →
    hostRead s 0x000 4 = some 0x4C5A0100 ∧
      (∃ w, hostRead s 0x004 4 = some w ∧ w.getLsbD 0 = s.params.hasCtm ∧ w.getLsbD 1 = s.params.hasPlut ∧
        w.extractLsb' 4 4 = 12 ∧ w.extractLsb' 2 2 = 0 ∧ w.extractLsb' 8 24 = 0) ∧
      ∀ p ∈ [(0x008, s.params.symCap), (0x00C, s.params.uCap), (0x010, s.params.pCap), (0x014, s.params.oCap)],
        ∃ w, hostRead s p.1 4 = some w ∧ w.toNat = p.2) ∧
  (hostRead State.reset 0x004 4 = some 0x000000C3 ∧ hostRead State.reset 0x008 4 = some 0x00010000 ∧
    hostRead State.reset 0x00C 4 = some 0x00010000 ∧ hostRead State.reset 0x010 4 = some 0x00020000 ∧
    hostRead State.reset 0x014 4 = some 0x00020000) ∧
  ∀ s t : State, step s = .next t → ∀ r ∈ [Reg.id, .cap, .capSym, .capU, .capP, .capO],
    hostRead t (regOffset r) 4 = hostRead s (regOffset r) 4
end

