-- ==== Sys2Proof/Laws/Memory.lean ====
section
/-! SUPPORT. The laws of the store: a read after a write, writes of many contents, and the canonical form. -/

namespace Sys2Proof.Machine

variable {α : Type}

@[simp] theorem Memory.lookup_nil (a : Nat) : Memory.lookup ([] : List (Nat × α)) a = none := rfl

/-- A write is read back, and leaves every other index as it was (for any list, canonical or not). -/
@[simp] theorem Memory.lookup_write (m : List (Nat × α)) (a b : Nat) (v : α) :
    Memory.lookup (Memory.write m a v) b = if b = a then some v else Memory.lookup m b := by
  induction m with
  | nil => simp [Memory.write, Memory.lookup]
  | cons h t ih =>
    obtain ⟨c, w⟩ := h
    simp only [Memory.write]
    split_ifs with h₁ h₂ <;> simp only [Memory.lookup] <;> split_ifs <;> simp_all

/-- A run of consecutive writes is read back content by content, and leaves every other index as it was. -/
theorem Memory.lookup_writeMany (bs : List α) (m : List (Nat × α)) (i b : Nat) :
    Memory.lookup (Memory.writeMany m i bs) b =
      if i ≤ b ∧ b < i + bs.length then bs[b - i]? else Memory.lookup m b := by
  induction bs generalizing m i with
  | nil => simp [Memory.writeMany]
  | cons x xs ih =>
    simp only [Memory.writeMany, ih, Memory.lookup_write, List.length_cons]
    by_cases h : b = i
    · subst h; simp
    · by_cases h' : i ≤ b
      · have : b - i = (b - (i + 1)) + 1 := by omega
        by_cases hl : b < i + (xs.length + 1)
        · rw [if_pos (by omega), if_pos (by omega), this, List.getElem?_cons_succ]
        · rw [if_neg (by omega), if_neg h, if_neg (by omega)]
      · rw [if_neg (by omega), if_neg h, if_neg (by omega)]

/-- Of two writes at one index the later counts. -/
theorem Memory.write_write (m : List (Nat × α)) (a : Nat) (v w : α) :
    Memory.write (Memory.write m a v) a w = Memory.write m a w := by
  induction m with
  | nil => simp [Memory.write]
  | cons h t ih =>
    obtain ⟨c, x⟩ := h
    simp only [Memory.write]
    split_ifs <;> simp [Memory.write, *]

/-- Writes at two indexes can change places (for any list, canonical or not). -/
theorem Memory.write_comm (m : List (Nat × α)) {a b : Nat} (v w : α) (h : a < b) :
    Memory.write (Memory.write m a v) b w = Memory.write (Memory.write m b w) a v := by
  induction m with
  | nil => simp [Memory.write, h, h.ne', h.not_gt]
  | cons q t ih =>
    obtain ⟨c, x⟩ := q
    rcases lt_trichotomy a c with h₁ | rfl | h₁
    · rcases lt_trichotomy b c with h₂ | rfl | h₂
      · simp [Memory.write, h₁, h₂, h, h.ne', h.not_gt]
      · simp [Memory.write, h, h.ne', h.not_gt]
      · simp [Memory.write, h₁, h₂.ne', h₂.not_gt, h.ne', h.not_gt]
    · simp [Memory.write, h.ne', h.not_gt]
    · simp [Memory.write, h₁.ne', h₁.not_gt, (h₁.trans h).ne', (h₁.trans h).not_gt, ih]

/-- A write below a run of writes can be done after it. -/
theorem Memory.writeMany_write (bs : List α) (m : List (Nat × α)) {a i : Nat} (v : α) (h : a < i) :
    Memory.writeMany (Memory.write m a v) i bs = Memory.write (Memory.writeMany m i bs) a v := by
  induction bs generalizing m i with
  | nil => rfl
  | cons b bs ih => rw [Memory.writeMany, Memory.write_comm m v b h, ih _ (by omega), Memory.writeMany]

/-- A run of writes done twice is done once. -/
theorem Memory.writeMany_writeMany (bs : List α) (m : List (Nat × α)) (i : Nat) :
    Memory.writeMany (Memory.writeMany m i bs) i bs = Memory.writeMany m i bs := by
  induction bs generalizing m i with
  | nil => rfl
  | cons b bs ih =>
    simp only [Memory.writeMany, Memory.writeMany_write bs _ b (Nat.lt_succ_self i), Memory.write_write, ih]

/-- The canonical form of a list with a head: the head lies below all that follows, which is canonical. -/
theorem Memory.wf_cons (a : Nat) (v : α) (t : List (Nat × α)) :
    Memory.wf ((a, v) :: t) = true ↔ (∀ p ∈ t, a < p.1) ∧ Memory.wf t = true := by
  induction t generalizing a v with
  | nil => simp [Memory.wf]
  | cons h t ih =>
    obtain ⟨b, w⟩ := h
    simp only [Memory.wf, Bool.and_eq_true, decide_eq_true_eq, List.mem_cons, forall_eq_or_imp]
    constructor
    · rintro ⟨hab, hw⟩
      exact ⟨⟨hab, fun p hp => lt_trans hab (((ih b w).1 hw).1 p hp)⟩, hw⟩
    · rintro ⟨⟨hab, -⟩, hw⟩
      exact ⟨hab, hw⟩

theorem Memory.mem_write (m : List (Nat × α)) (a : Nat) (v : α) (p : Nat × α)
    (h : p ∈ Memory.write m a v) : p = (a, v) ∨ p ∈ m := by
  induction m with
  | nil => simpa [Memory.write] using h
  | cons q t ih =>
    obtain ⟨b, w⟩ := q
    simp only [Memory.write] at h
    split_ifs at h <;> simp only [List.mem_cons] at h ⊢ <;> tauto

/-- A write keeps the canonical form. -/
theorem Memory.wf_write (m : List (Nat × α)) (a : Nat) (v : α) (h : Memory.wf m = true) :
    Memory.wf (Memory.write m a v) = true := by
  induction m with
  | nil => rfl
  | cons q t ih =>
    obtain ⟨b, w⟩ := q
    have hb := (Memory.wf_cons b w t).1 h
    simp only [Memory.write]
    split_ifs with h₁ h₂
    · simp [Memory.wf, h₁, h]
    · subst h₂; exact (Memory.wf_cons a v t).2 hb
    · refine (Memory.wf_cons b w _).2 ⟨fun p hp => ?_, ih hb.2⟩
      rcases Memory.mem_write t a v p hp with rfl | hp
      · show b < a; omega
      · exact hb.1 p hp

/-- A run of writes keeps the canonical form. -/
theorem Memory.wf_writeMany (bs : List α) (m : List (Nat × α)) (i : Nat) (h : Memory.wf m = true) :
    Memory.wf (Memory.writeMany m i bs) = true := by
  induction bs generalizing m i with
  | nil => exact h
  | cons b bs ih => exact ih _ _ (Memory.wf_write m i b h)

end Sys2Proof.Machine
end

