-- ==== Sys2Proof/Laws/State.lean ====
section
/-! SUPPORT. One lemma per field and named update of the state, so that no later proof unfolds an update. -/

namespace Sys2Proof.Machine

variable (s : State)

/-! ### finish -/

@[simp] theorem finish_params : (finish s).params = s.params := rfl
@[simp] theorem finish_busy : (finish s).busy = false := rfl
@[simp] theorem finish_err : (finish s).err = s.err := rfl
@[simp] theorem finish_phase : (finish s).phase = s.phase := rfl
@[simp] theorem finish_cmd : (finish s).cmd = s.cmd := rfl
@[simp] theorem finish_intStat : (finish s).intStat = { s.intStat with done := true } := rfl
@[simp] theorem finish_intEn : (finish s).intEn = s.intEn := rfl
@[simp] theorem finish_errCode : (finish s).errCode = s.errCode := rfl
@[simp] theorem finish_errInfo : (finish s).errInfo = s.errInfo := rfl
@[simp] theorem finish_pkData : (finish s).pkData = s.pkData := rfl
@[simp] theorem finish_pkBits : (finish s).pkBits = s.pkBits := rfl
@[simp] theorem finish_upLen : (finish s).upLen = s.upLen := rfl
@[simp] theorem finish_upPos : (finish s).upPos = s.upPos := rfl
@[simp] theorem finish_upData : (finish s).upData = s.upData := rfl
@[simp] theorem finish_obLen : (finish s).obLen = s.obLen := rfl
@[simp] theorem finish_lzPalsize : (finish s).lzPalsize = s.lzPalsize := rfl
@[simp] theorem finish_lzMaxbits : (finish s).lzMaxbits = s.lzMaxbits := rfl
@[simp] theorem finish_lzLen : (finish s).lzLen = s.lzLen := rfl
@[simp] theorem finish_lzPos : (finish s).lzPos = s.lzPos := rfl
@[simp] theorem finish_lzW : (finish s).lzW = s.lzW := rfl
@[simp] theorem finish_lzDsize : (finish s).lzDsize = s.lzDsize := rfl
@[simp] theorem finish_lzLast : (finish s).lzLast = s.lzLast := rfl
@[simp] theorem finish_ctBpp : (finish s).ctBpp = s.ctBpp := rfl
@[simp] theorem finish_pxIn : (finish s).pxIn = s.pxIn := rfl
@[simp] theorem finish_pxMask : (finish s).pxMask = s.pxMask := rfl
@[simp] theorem finish_color : (finish s).color = s.color := rfl
@[simp] theorem finish_colorT : (finish s).colorT = s.colorT := rfl
@[simp] theorem finish_pzLevel : (finish s).pzLevel = s.pzLevel := rfl
@[simp] theorem finish_pzAbits : (finish s).pzAbits = s.pzAbits := rfl
@[simp] theorem finish_tuple : (finish s).tuple = s.tuple := rfl
@[simp] theorem finish_ct : (finish s).ct = s.ct := rfl
@[simp] theorem finish_dict : (finish s).dict = s.dict := rfl
@[simp] theorem finish_symbuf : (finish s).symbuf = s.symbuf := rfl
@[simp] theorem finish_ubuf : (finish s).ubuf = s.ubuf := rfl
@[simp] theorem finish_pbuf : (finish s).pbuf = s.pbuf := rfl
@[simp] theorem finish_obuf : (finish s).obuf = s.obuf := rfl
@[simp] theorem finish_epoch : (finish s).epoch = s.epoch := rfl
@[simp] theorem finish_gen : (finish s).gen = s.gen + 1 := rfl
@[simp] theorem finish_inputs : (finish s).inputs = s.inputs := rfl
@[simp] theorem finish_port : (finish s).port = s.port := rfl

/-! ### faultEntry -/

@[simp] theorem faultEntry_params (f : FaultCode) (info : Word) : (faultEntry f info s).params = s.params := rfl
@[simp] theorem faultEntry_busy (f : FaultCode) (info : Word) : (faultEntry f info s).busy = false := rfl
@[simp] theorem faultEntry_err (f : FaultCode) (info : Word) : (faultEntry f info s).err = true := rfl
@[simp] theorem faultEntry_phase (f : FaultCode) (info : Word) : (faultEntry f info s).phase = .idle := rfl
@[simp] theorem faultEntry_cmd (f : FaultCode) (info : Word) : (faultEntry f info s).cmd = s.cmd := rfl
@[simp] theorem faultEntry_intStat (f : FaultCode) (info : Word) : (faultEntry f info s).intStat = { s.intStat with err := true } := rfl
@[simp] theorem faultEntry_intEn (f : FaultCode) (info : Word) : (faultEntry f info s).intEn = s.intEn := rfl
@[simp] theorem faultEntry_errCode (f : FaultCode) (info : Word) : (faultEntry f info s).errCode = faultNumber f := rfl
@[simp] theorem faultEntry_errInfo (f : FaultCode) (info : Word) : (faultEntry f info s).errInfo = info := rfl
@[simp] theorem faultEntry_pkData (f : FaultCode) (info : Word) : (faultEntry f info s).pkData = s.pkData := rfl
@[simp] theorem faultEntry_pkBits (f : FaultCode) (info : Word) : (faultEntry f info s).pkBits = 0 := rfl
@[simp] theorem faultEntry_upLen (f : FaultCode) (info : Word) : (faultEntry f info s).upLen = s.upLen := rfl
@[simp] theorem faultEntry_upPos (f : FaultCode) (info : Word) : (faultEntry f info s).upPos = s.upPos := rfl
@[simp] theorem faultEntry_upData (f : FaultCode) (info : Word) : (faultEntry f info s).upData = s.upData := rfl
@[simp] theorem faultEntry_obLen (f : FaultCode) (info : Word) : (faultEntry f info s).obLen = 0 := rfl
@[simp] theorem faultEntry_lzPalsize (f : FaultCode) (info : Word) : (faultEntry f info s).lzPalsize = s.lzPalsize := rfl
@[simp] theorem faultEntry_lzMaxbits (f : FaultCode) (info : Word) : (faultEntry f info s).lzMaxbits = s.lzMaxbits := rfl
@[simp] theorem faultEntry_lzLen (f : FaultCode) (info : Word) : (faultEntry f info s).lzLen = s.lzLen := rfl
@[simp] theorem faultEntry_lzPos (f : FaultCode) (info : Word) : (faultEntry f info s).lzPos = s.lzPos := rfl
@[simp] theorem faultEntry_lzW (f : FaultCode) (info : Word) : (faultEntry f info s).lzW = s.lzW := rfl
@[simp] theorem faultEntry_lzDsize (f : FaultCode) (info : Word) : (faultEntry f info s).lzDsize = s.lzDsize := rfl
@[simp] theorem faultEntry_lzLast (f : FaultCode) (info : Word) : (faultEntry f info s).lzLast = s.lzLast := rfl
@[simp] theorem faultEntry_ctBpp (f : FaultCode) (info : Word) : (faultEntry f info s).ctBpp = s.ctBpp := rfl
@[simp] theorem faultEntry_pxIn (f : FaultCode) (info : Word) : (faultEntry f info s).pxIn = s.pxIn := rfl
@[simp] theorem faultEntry_pxMask (f : FaultCode) (info : Word) : (faultEntry f info s).pxMask = s.pxMask := rfl
@[simp] theorem faultEntry_color (f : FaultCode) (info : Word) : (faultEntry f info s).color = s.color := rfl
@[simp] theorem faultEntry_colorT (f : FaultCode) (info : Word) : (faultEntry f info s).colorT = s.colorT := rfl
@[simp] theorem faultEntry_pzLevel (f : FaultCode) (info : Word) : (faultEntry f info s).pzLevel = s.pzLevel := rfl
@[simp] theorem faultEntry_pzAbits (f : FaultCode) (info : Word) : (faultEntry f info s).pzAbits = s.pzAbits := rfl
@[simp] theorem faultEntry_tuple (f : FaultCode) (info : Word) : (faultEntry f info s).tuple = s.tuple := rfl
@[simp] theorem faultEntry_ct (f : FaultCode) (info : Word) : (faultEntry f info s).ct = s.ct := rfl
@[simp] theorem faultEntry_dict (f : FaultCode) (info : Word) : (faultEntry f info s).dict = s.dict := rfl
@[simp] theorem faultEntry_symbuf (f : FaultCode) (info : Word) : (faultEntry f info s).symbuf = s.symbuf := rfl
@[simp] theorem faultEntry_ubuf (f : FaultCode) (info : Word) : (faultEntry f info s).ubuf = s.ubuf := rfl
@[simp] theorem faultEntry_pbuf (f : FaultCode) (info : Word) : (faultEntry f info s).pbuf = s.pbuf := rfl
@[simp] theorem faultEntry_obuf (f : FaultCode) (info : Word) : (faultEntry f info s).obuf = s.obuf := rfl
@[simp] theorem faultEntry_epoch (f : FaultCode) (info : Word) : (faultEntry f info s).epoch = s.epoch := rfl
@[simp] theorem faultEntry_gen (f : FaultCode) (info : Word) : (faultEntry f info s).gen = s.gen + 1 := rfl
@[simp] theorem faultEntry_inputs (f : FaultCode) (info : Word) : (faultEntry f info s).inputs = s.inputs := rfl
@[simp] theorem faultEntry_port (f : FaultCode) (info : Word) : (faultEntry f info s).port = s.port := rfl

/-! ### softReset -/

@[simp] theorem softReset_params : (softReset s).params = s.params := rfl
@[simp] theorem softReset_busy : (softReset s).busy = false := rfl
@[simp] theorem softReset_err : (softReset s).err = false := rfl
@[simp] theorem softReset_phase : (softReset s).phase = .idle := rfl
@[simp] theorem softReset_cmd : (softReset s).cmd = 0 := rfl
@[simp] theorem softReset_intStat : (softReset s).intStat = { done := false, err := false } := rfl
@[simp] theorem softReset_intEn : (softReset s).intEn = { done := false, err := false } := rfl
@[simp] theorem softReset_errCode : (softReset s).errCode = 0 := rfl
@[simp] theorem softReset_errInfo : (softReset s).errInfo = 0 := rfl
@[simp] theorem softReset_pkData : (softReset s).pkData = 0 := rfl
@[simp] theorem softReset_pkBits : (softReset s).pkBits = 0 := rfl
@[simp] theorem softReset_upLen : (softReset s).upLen = 0 := rfl
@[simp] theorem softReset_upPos : (softReset s).upPos = 0 := rfl
@[simp] theorem softReset_upData : (softReset s).upData = 0 := rfl
@[simp] theorem softReset_obLen : (softReset s).obLen = 0 := rfl
@[simp] theorem softReset_lzPalsize : (softReset s).lzPalsize = 0 := rfl
@[simp] theorem softReset_lzMaxbits : (softReset s).lzMaxbits = 12 := rfl
@[simp] theorem softReset_lzLen : (softReset s).lzLen = 0 := rfl
@[simp] theorem softReset_lzPos : (softReset s).lzPos = 0 := rfl
@[simp] theorem softReset_lzW : (softReset s).lzW = 0 := rfl
@[simp] theorem softReset_lzDsize : (softReset s).lzDsize = 0 := rfl
@[simp] theorem softReset_lzLast : (softReset s).lzLast = 0 := rfl
@[simp] theorem softReset_ctBpp : (softReset s).ctBpp = 0 := rfl
@[simp] theorem softReset_pxIn : (softReset s).pxIn = 0 := rfl
@[simp] theorem softReset_pxMask : (softReset s).pxMask = false := rfl
@[simp] theorem softReset_color : (softReset s).color = 0 := rfl
@[simp] theorem softReset_colorT : (softReset s).colorT = false := rfl
@[simp] theorem softReset_pzLevel : (softReset s).pzLevel = 0 := rfl
@[simp] theorem softReset_pzAbits : (softReset s).pzAbits = 8 := rfl
@[simp] theorem softReset_tuple : (softReset s).tuple = 0 := rfl
@[simp] theorem softReset_ct : (softReset s).ct = s.ct := rfl
@[simp] theorem softReset_dict : (softReset s).dict = s.dict := rfl
@[simp] theorem softReset_symbuf : (softReset s).symbuf = s.symbuf := rfl
@[simp] theorem softReset_ubuf : (softReset s).ubuf = s.ubuf := rfl
@[simp] theorem softReset_pbuf : (softReset s).pbuf = s.pbuf := rfl
@[simp] theorem softReset_obuf : (softReset s).obuf = s.obuf := rfl
@[simp] theorem softReset_epoch : (softReset s).epoch = s.epoch := rfl
@[simp] theorem softReset_gen : (softReset s).gen = s.gen + 1 := rfl
@[simp] theorem softReset_inputs : (softReset s).inputs = s.inputs := rfl
@[simp] theorem softReset_port : (softReset s).port = s.port := rfl

/-! ### hardwareReset -/

@[simp] theorem hardwareReset_params : (hardwareReset s).params = s.params := rfl
@[simp] theorem hardwareReset_busy : (hardwareReset s).busy = false := rfl
@[simp] theorem hardwareReset_err : (hardwareReset s).err = false := rfl
@[simp] theorem hardwareReset_phase : (hardwareReset s).phase = .idle := rfl
@[simp] theorem hardwareReset_cmd : (hardwareReset s).cmd = 0 := rfl
@[simp] theorem hardwareReset_intStat : (hardwareReset s).intStat = { done := false, err := false } := rfl
@[simp] theorem hardwareReset_intEn : (hardwareReset s).intEn = { done := false, err := false } := rfl
@[simp] theorem hardwareReset_errCode : (hardwareReset s).errCode = 0 := rfl
@[simp] theorem hardwareReset_errInfo : (hardwareReset s).errInfo = 0 := rfl
@[simp] theorem hardwareReset_pkData : (hardwareReset s).pkData = 0 := rfl
@[simp] theorem hardwareReset_pkBits : (hardwareReset s).pkBits = 0 := rfl
@[simp] theorem hardwareReset_upLen : (hardwareReset s).upLen = 0 := rfl
@[simp] theorem hardwareReset_upPos : (hardwareReset s).upPos = 0 := rfl
@[simp] theorem hardwareReset_upData : (hardwareReset s).upData = 0 := rfl
@[simp] theorem hardwareReset_obLen : (hardwareReset s).obLen = 0 := rfl
@[simp] theorem hardwareReset_lzPalsize : (hardwareReset s).lzPalsize = 0 := rfl
@[simp] theorem hardwareReset_lzMaxbits : (hardwareReset s).lzMaxbits = 12 := rfl
@[simp] theorem hardwareReset_lzLen : (hardwareReset s).lzLen = 0 := rfl
@[simp] theorem hardwareReset_lzPos : (hardwareReset s).lzPos = 0 := rfl
@[simp] theorem hardwareReset_lzW : (hardwareReset s).lzW = 0 := rfl
@[simp] theorem hardwareReset_lzDsize : (hardwareReset s).lzDsize = 0 := rfl
@[simp] theorem hardwareReset_lzLast : (hardwareReset s).lzLast = 0 := rfl
@[simp] theorem hardwareReset_ctBpp : (hardwareReset s).ctBpp = 0 := rfl
@[simp] theorem hardwareReset_pxIn : (hardwareReset s).pxIn = 0 := rfl
@[simp] theorem hardwareReset_pxMask : (hardwareReset s).pxMask = false := rfl
@[simp] theorem hardwareReset_color : (hardwareReset s).color = 0 := rfl
@[simp] theorem hardwareReset_colorT : (hardwareReset s).colorT = false := rfl
@[simp] theorem hardwareReset_pzLevel : (hardwareReset s).pzLevel = 0 := rfl
@[simp] theorem hardwareReset_pzAbits : (hardwareReset s).pzAbits = 8 := rfl
@[simp] theorem hardwareReset_tuple : (hardwareReset s).tuple = 0 := rfl
@[simp] theorem hardwareReset_ct : (hardwareReset s).ct = [] := rfl
@[simp] theorem hardwareReset_dict : (hardwareReset s).dict = [] := rfl
@[simp] theorem hardwareReset_symbuf : (hardwareReset s).symbuf = [] := rfl
@[simp] theorem hardwareReset_ubuf : (hardwareReset s).ubuf = [] := rfl
@[simp] theorem hardwareReset_pbuf : (hardwareReset s).pbuf = [] := rfl
@[simp] theorem hardwareReset_obuf : (hardwareReset s).obuf = [] := rfl
@[simp] theorem hardwareReset_epoch : (hardwareReset s).epoch = s.epoch + 1 := rfl
@[simp] theorem hardwareReset_gen : (hardwareReset s).gen = s.gen + 1 := rfl
@[simp] theorem hardwareReset_inputs : (hardwareReset s).inputs = s.inputs := rfl
@[simp] theorem hardwareReset_port : (hardwareReset s).port = .quiet := rfl

end Sys2Proof.Machine
end

