-- ==== Sys2Proof/Laws/Ops.lean ====
section
/-! SUPPORT. What the shared operations can do, said once: one content of a memory after a write, the end of a run,
the append of bits to the packed stream, the framed sequence. -/

namespace Sys2Proof.Machine

/-! ### One content after a write -/

@[simp] theorem byteAt_write (e : Nat) (m : Space) (l : List Host.Cell) (i k : Nat) (b : Byte) :
    byteAt e m (Memory.write l i b) k = if k = i then b else byteAt e m l k := by
  simp only [byteAt, Memory.lookup_write]
  split <;> rfl

theorem byteAt_writeMany (e : Nat) (m : Space) (bs : List Byte) (l : List Host.Cell) (i k : Nat) :
    byteAt e m (Memory.writeMany l i bs) k =
      if h : i ≤ k ∧ k < i + bs.length then bs[k - i]'(by omega) else byteAt e m l k := by
  simp only [byteAt, Memory.lookup_writeMany]
  split
  · next h => rw [List.getElem?_eq_getElem (by omega)]; rfl
  · rfl

/-! ### The end of a run -/

@[simp] theorem Run.andThen_ok (s : State) (k : State → Run) : (Run.ok s).andThen k = k s := rfl

@[simp] theorem Run.andThen_raise (f : FaultCode) (info : Word) (s : State) (k : State → Run) :
    (Run.raise f info s).andThen k = .raise f info s := rfl

/-- A sequence of two pieces ends well exactly when both do. -/
theorem Run.andThen_eq_ok {r : Run} {k : State → Run} {t : State} :
    r.andThen k = .ok t ↔ ∃ s, r = .ok s ∧ k s = .ok t := by
  cases r <;> simp

/-- A sequence of two pieces raises a fault in the first, or in the second after the first ended well. -/
theorem Run.andThen_eq_raise {r : Run} {k : State → Run} {f : FaultCode} {info : Word} {t : State} :
    r.andThen k = .raise f info t ↔ r = .raise f info t ∨ ∃ s, r = .ok s ∧ k s = .raise f info t := by
  cases r <;> simp

theorem Run.andThen_assoc (r : Run) (k l : State → Run) :
    (r.andThen k).andThen l = r.andThen fun s => (k s).andThen l := by
  cases r <;> rfl

@[simp] theorem conclude_ok (s : State) : conclude (.ok s) = .next (finish s) := rfl

@[simp] theorem conclude_raise (f : FaultCode) (info : Word) (s : State) :
    conclude (.raise f info s) = .next (faultEntry f info s) := rfl

/-- Completion always has a next state: the finished one, or fault entry. -/
theorem conclude_cases {r : Run} {t : State} (h : conclude r = .next t) :
    (∃ s, r = .ok s ∧ t = finish s) ∨ ∃ f info s, r = .raise f info s ∧ t = faultEntry f info s := by
  cases r with
  | ok s => exact .inl ⟨s, rfl, by simpa using h.symm⟩
  | raise f info s => exact .inr ⟨f, info, s, rfl, by simpa using h.symm⟩

/-! ### Appending bits to the packed stream (41_bitpacker.md R90) -/

/-- Adding a bit at a place that holds 0 sets that place and no other. -/
theorem getLsbD_add_bit (x : Byte) (r k : Nat) (b : Bool) (hr : r < 8) (hx : x.getLsbD r = false) :
    (x + BitVec.ofNat 8 (b.toNat * 2 ^ r)).getLsbD k = if k = r then b else x.getLsbD k := by
  cases b with
  | false =>
    simp only [Bool.toNat_false, Nat.zero_mul]
    split
    · next h => subst h; simpa using hx
    · simp
  | true =>
    have hone : ∀ j, (BitVec.ofNat 8 (true.toNat * 2 ^ r)).getLsbD j = decide (j = r) := by
      intro j
      simp only [Bool.toNat_true, Nat.one_mul, BitVec.getLsbD_ofNat, Nat.testBit_two_pow]
      by_cases h : j = r
      · subst h; simp [hr]
      · have : r ≠ j := fun h' => h h'.symm
        simp [h, this]
    have hand : x &&& BitVec.ofNat 8 (true.toNat * 2 ^ r) = 0 := by
      apply BitVec.eq_of_getLsbD_eq
      intro j _
      rw [BitVec.getLsbD_and, hone]
      by_cases h : j = r
      · subst h; simp [hx]
      · simp [h]
    rw [BitVec.add_eq_or_of_and_eq_zero _ _ hand, BitVec.getLsbD_or, hone]
    by_cases h : k = r
    · subst h; simp
    · simp [h]

/-- Bit `j` of a packed stream that stands in PBUF `l`, least significant bit first (20_memory.md R58). -/
def streamBit (epoch : Nat) (l : List Host.Cell) (j : Nat) : Bool := (byteAt epoch .pbuf l (j / 8)).getLsbD (j % 8)

theorem pbufBit_eq (s : State) (j : Nat) : pbufBit s j = streamBit s.epoch s.pbuf j := rfl

/-- The byte a turn of the loop leaves at `i`. -/
theorem byteAt_mergeBit (e : Nat) (l : List Host.Cell) (j i : Nat) (b : Bool) :
    byteAt e .pbuf (mergeBit e l j b) i =
      if i = j / 8 then
        (if j % 8 = 0 then 0 else byteAt e .pbuf l (j / 8)) + BitVec.ofNat 8 (b.toNat * 2 ^ (j % 8))
      else byteAt e .pbuf l i := by
  unfold mergeBit
  by_cases h : j % 8 = 0
  · simp only [h, if_true, byteAt_write]
    split <;> rfl
  · simp only [h, if_false, byteAt_write]

/-- The bits a turn of the loop leaves, where the place of the new bit held 0 or a new byte is entered. -/
theorem streamBit_mergeBit (e : Nat) (l : List Host.Cell) (j k : Nat) (b : Bool)
    (h : j % 8 ≠ 0 → streamBit e l j = false) :
    streamBit e (mergeBit e l j b) k =
      if k = j then b else if j % 8 = 0 ∧ k / 8 = j / 8 then false else streamBit e l k := by
  simp only [streamBit, byteAt_mergeBit]
  by_cases hk : k / 8 = j / 8
  · have hkj : k % 8 = j % 8 ↔ k = j := by omega
    rw [if_pos hk]
    by_cases hj : j % 8 = 0
    · rw [if_pos hj, getLsbD_add_bit _ _ _ _ (by omega) (by simp)]
      by_cases hjk : k = j
      · simp [hjk]
      · rw [if_neg (fun h' => hjk (hkj.1 h')), if_neg hjk, if_pos ⟨hj, hk⟩]; simp
    · rw [if_neg hj, getLsbD_add_bit _ _ _ _ (by omega) (h hj)]
      by_cases hjk : k = j
      · simp [hjk]
      · rw [if_neg (fun h' => hjk (hkj.1 h')), if_neg hjk, if_neg (fun h' => hj h'.1), hk]
  · have : k ≠ j := fun h' => hk (by rw [h'])
    simp [hk, this]

/-- What the loop of `pk_push` does to a padded stream: the bits before PK_BITS stay, the n bits of `v` follow, and
the rest of the last byte is 0. -/
theorem streamBit_mergeBits (e base v n : Nat) (l : List Host.Cell)
    (hpad : ∀ j, base ≤ j → j < 8 * ceilDiv base 8 → streamBit e l j = false) :
    (∀ j, j < base → streamBit e (mergeBits e base v n l) j = streamBit e l j) ∧
      (∀ k, k < n → streamBit e (mergeBits e base v n l) (base + k) = v.testBit k) ∧
      ∀ j, base + n ≤ j → j < 8 * ceilDiv (base + n) 8 → streamBit e (mergeBits e base v n l) j = false := by
  induction n with
  | zero => exact ⟨fun _ _ => rfl, fun k hk => absurd hk (by omega), hpad⟩
  | succ n ih =>
    obtain ⟨h₁, h₂, h₃⟩ := ih
    have hz : (base + n) % 8 ≠ 0 → streamBit e (mergeBits e base v n l) (base + n) = false := by
      intro h
      exact h₃ _ le_rfl (by unfold ceilDiv; omega)
    have key := fun k => streamBit_mergeBit e (mergeBits e base v n l) (base + n) k (v.testBit n) hz
    simp only [mergeBits]
    refine ⟨fun j hj => ?_, fun k hk => ?_, fun j hj hj' => ?_⟩
    · rw [key, if_neg (by omega), if_neg (by omega), h₁ j hj]
    · rw [key]
      by_cases hkn : k = n
      · subst hkn; simp
      · rw [if_neg (by omega), if_neg (by omega), h₂ k (by omega)]
    · rw [key, if_neg (by omega)]
      split_ifs with h
      · rfl
      · unfold ceilDiv at hj' h₃
        exact h₃ j (by omega) (by omega)

/-- The loop of `pk_push` leaves every byte before the one it starts in, and every byte it does not reach. -/
theorem byteAt_mergeBits (e base v n i : Nat) (l : List Host.Cell) (h : i < base / 8 ∨ (base + n + 7) / 8 ≤ i) :
    byteAt e .pbuf (mergeBits e base v n l) i = byteAt e .pbuf l i := by
  induction n with
  | zero => rfl
  | succ n ih =>
    simp only [mergeBits]
    rw [byteAt_mergeBit, if_neg (by omega), ih (by omega)]

/-- The canonical form of PBUF is kept by the loop of `pk_push`. -/
theorem mergeBits_wf (e base v n : Nat) (l : List Host.Cell) (h : Memory.wf l = true) :
    Memory.wf (mergeBits e base v n l) = true := by
  induction n with
  | zero => exact h
  | succ n ih =>
    simp only [mergeBits, mergeBit]
    split
    · exact Memory.wf_write _ _ _ (Memory.wf_write _ _ _ ih)
    · exact Memory.wf_write _ _ _ ih

/-- Everything `pk_push` can do (41_bitpacker.md R90): it faults with E_OVF(0) and changes nothing, or it changes
PBUF as its loop does and adds n to PK_BITS. -/
theorem pkPush_cases (v n : Nat) (s : State) :
    (8 * s.params.pCap < s.pkBits.toNat + n ∧ pkPush v n s = .raise .ovf 0 s) ∨
      (s.pkBits.toNat + n ≤ 8 * s.params.pCap ∧
        pkPush v n s = .ok { s with
          pbuf := mergeBits s.epoch s.pkBits.toNat v n s.pbuf
          pkBits := BitVec.ofNat 32 (s.pkBits.toNat + n) }) := by
  unfold pkPush
  split_ifs with h
  · exact .inl ⟨h, rfl⟩
  · exact .inr ⟨by omega, rfl⟩

/-! ### Framing (45_framer.md R145) -/

theorem frameWithin_nil (fuel : Nat) : frameWithin fuel [] = [0] := by cases fuel <;> rfl

/-- A sub-block, then the rest framed. -/
theorem frameWithin_succ (fuel : Nat) (bs : List Byte) (h : bs ≠ []) :
    frameWithin (fuel + 1) bs =
      BitVec.ofNat 8 (min 255 bs.length) :: (bs.take 255 ++ frameWithin fuel (bs.drop 255)) := by
  cases bs with
  | nil => exact absurd rfl h
  | cons b bs => rfl

theorem frameWithin_length (fuel : Nat) (bs : List Byte) (h : bs.length ≤ fuel) :
    (frameWithin fuel bs).length = framedLength bs.length := by
  induction fuel generalizing bs with
  | zero =>
    obtain rfl : bs = [] := List.eq_nil_of_length_eq_zero (by omega)
    rfl
  | succ fuel ih =>
    by_cases hb : bs = []
    · subst hb; rfl
    · have hpos : 0 < bs.length := List.length_pos_iff.2 hb
      rw [frameWithin_succ _ _ hb, List.length_cons, List.length_append, List.length_take,
        ih _ (by simp; omega), List.length_drop]
      simp only [framedLength, ceilDiv, blkMax]
      omega

/-- The length of a framed sequence: the data, a length byte for each sub-block, the terminator. -/
theorem frame_length (bs : List Byte) : (frame bs).length = framedLength bs.length :=
  frameWithin_length _ _ le_rfl

theorem frameWithin_spec (fuel : Nat) (bs : List Byte) (h : bs.length ≤ fuel) :
    (∀ j, j < bs.length → (frameWithin fuel bs)[j + j / 255 + 1]? = bs[j]?) ∧
      (∀ k, k < bs.length / 255 → (frameWithin fuel bs)[256 * k]? = some 255) ∧
      (0 < bs.length % 255 →
        (frameWithin fuel bs)[256 * (bs.length / 255)]? = some (BitVec.ofNat 8 (bs.length % 255))) ∧
      (frameWithin fuel bs)[bs.length + ceilDiv bs.length 255]? = some 0 := by
  induction fuel generalizing bs with
  | zero =>
    obtain rfl : bs = [] := List.eq_nil_of_length_eq_zero (by omega)
    exact ⟨by simp, by simp, by simp, rfl⟩
  | succ fuel ih =>
    by_cases hb : bs = []
    · subst hb
      exact ⟨by simp, by simp, by simp, rfl⟩
    have hpos : 0 < bs.length := List.length_pos_iff.2 hb
    have hd : (bs.drop 255).length = bs.length - 255 := by simp
    obtain ⟨h₁, h₂, h₃, h₄⟩ := ih (bs.drop 255) (by omega)
    rw [hd] at h₁ h₂ h₃ h₄
    rw [frameWithin_succ _ _ hb]
    have low : ∀ i, 0 < i → i ≤ bs.length → i ≤ 255 →
        (BitVec.ofNat 8 (min 255 bs.length) :: (bs.take 255 ++ frameWithin fuel (bs.drop 255)))[i]? = bs[i - 1]? := by
      intro i hi hl h255
      obtain ⟨i, rfl⟩ : ∃ i', i = i' + 1 := ⟨i - 1, by omega⟩
      rw [List.getElem?_cons_succ, List.getElem?_append_left (by simp; omega), List.getElem?_take,
        if_pos (by omega), Nat.add_sub_cancel]
    have high : ∀ i, 255 ≤ bs.length → 256 ≤ i →
        (BitVec.ofNat 8 (min 255 bs.length) :: (bs.take 255 ++ frameWithin fuel (bs.drop 255)))[i]? =
          (frameWithin fuel (bs.drop 255))[i - 256]? := by
      intro i hl hi
      obtain ⟨i, rfl⟩ : ∃ i', i = i' + 1 := ⟨i - 1, by omega⟩
      rw [List.getElem?_cons_succ, List.getElem?_append_right (by simp; omega), List.length_take]
      exact congrArg (fun i => (frameWithin fuel (bs.drop 255))[i]?) (by omega)
    have last : ∀ i, bs.length < 255 → i = bs.length + 1 →
        (BitVec.ofNat 8 (min 255 bs.length) :: (bs.take 255 ++ frameWithin fuel (bs.drop 255)))[i]? = some 0 := by
      intro i hl hi
      have hnil : bs.drop 255 = [] := List.drop_eq_nil_of_le (by omega)
      rw [hi, hnil, frameWithin_nil, List.getElem?_cons_succ, List.getElem?_append_right (by simp), List.length_take,
        Nat.min_eq_right (by omega), Nat.sub_self]
      rfl
    refine ⟨fun j hj => ?_, fun k hk => ?_, fun hr => ?_, ?_⟩
    · by_cases hj' : j < 255
      · rw [low _ (by omega) (by omega) (by omega)]
        exact congrArg (fun i => bs[i]?) (by omega)
      · rw [high _ (by omega) (by omega)]
        have e := h₁ (j - 255) (by omega)
        rw [List.getElem?_drop] at e
        rw [show j + j / 255 + 1 - 256 = j - 255 + (j - 255) / 255 + 1 by omega, e]
        exact congrArg (fun i => bs[i]?) (by omega)
    · cases k with
      | zero => rw [Nat.min_eq_left (by omega)]; rfl
      | succ k =>
        rw [high _ (by omega) (by omega), ← h₂ k (by omega)]
        exact congrArg (fun i => (frameWithin fuel (bs.drop 255))[i]?) (by omega)
    · by_cases hl : bs.length < 255
      · rw [Nat.div_eq_of_lt hl, Nat.mod_eq_of_lt hl, Nat.min_eq_right (by omega)]; rfl
      · rw [high _ (by omega) (by omega)]
        have e := h₃ (by omega)
        rw [show (bs.length - 255) % 255 = bs.length % 255 by omega] at e
        rw [← e]
        exact congrArg (fun i => (frameWithin fuel (bs.drop 255))[i]?) (by omega)
    · by_cases hl : bs.length < 255
      · exact last _ hl (by simp only [ceilDiv]; omega)
      · rw [high _ (by omega) (by simp only [ceilDiv]; omega), ← h₄]
        exact congrArg (fun i => (frameWithin fuel (bs.drop 255))[i]?) (by simp only [ceilDiv]; omega)

/-- The framed sequence in the position form of 45_framer.md R145: where each data byte, each length byte and the
terminator stand. -/
theorem frame_spec (bs : List Byte) :
    (∀ j, j < bs.length → (frame bs)[j + j / 255 + 1]? = bs[j]?) ∧
      (∀ k, k < bs.length / 255 → (frame bs)[256 * k]? = some 255) ∧
      (0 < bs.length % 255 → (frame bs)[256 * (bs.length / 255)]? = some (BitVec.ofNat 8 (bs.length % 255))) ∧
      (frame bs)[bs.length + ceilDiv bs.length 255]? = some 0 :=
  frameWithin_spec _ _ le_rfl

@[simp] theorem packedBytes_length (s : State) (b : Nat) : (packedBytes s b).length = b := by
  simp [packedBytes]

theorem packedBytes_getElem? (s : State) (b j : Nat) (h : j < b) : (packedBytes s b)[j]? = some (readPbuf s j) := by
  simp [packedBytes, h]

/-- One byte of a byte memory after consecutive writes from index 0, in terms of the list written. -/
theorem byteAt_writeMany_zero (e : Nat) (m : Space) (bs : List Byte) (l : List Host.Cell) (k : Nat) :
    byteAt e m (Memory.writeMany l 0 bs) k = (bs[k]?).getD (byteAt e m l k) := by
  rw [byteAt_writeMany]
  split
  · next h => rw [List.getElem?_eq_getElem (by omega)]; rfl
  · next h => rw [List.getElem?_eq_none (by omega)]; rfl

end Sys2Proof.Machine
end

