-- ==== Sys2Proof/Laws/Aperture.lean ====
section
/-! SUPPORT. What the host's accesses can do (20_memory.md R51 to R55): where a register stands, what a successful
write changes, and what it needs. -/

namespace Sys2Proof.Machine

/-- The register map as a function and as a table say the same (10_state.md R17). -/
theorem regAt_eq_some {off : Nat} {r : Reg} : regAt off = some r ↔ off = regOffset r := by
  constructor
  · intro h
    unfold regAt at h
    split at h <;> first
      | (simp only [Option.some.injEq] at h; subst h; rfl)
      | simp at h
  · rintro rfl
    cases r <;> rfl

theorem regOffset_lt (r : Reg) : regOffset r < 0x100 ∧ regOffset r % 4 = 0 := by
  cases r <;> decide

/-- Two registers have two offsets. -/
theorem regOffset_injective {r r' : Reg} (h : regOffset r = regOffset r') : r = r' := by
  have := (regAt_eq_some (off := regOffset r) (r := r)).2 rfl
  rw [h, (regAt_eq_some (off := regOffset r') (r := r')).2 rfl] at this
  exact (Option.some.inj this).symm

/-- What is mapped below 0x100 is the registers that are present. -/
theorem targetAt_eq_reg {p : Params} {off : Nat} {r : Reg} :
    targetAt p off = some (.reg r) ↔ off = regOffset r ∧ regPresent p r = true := by
  constructor
  · intro h
    unfold targetAt at h
    by_cases h₁ : off < 0x100
    · rw [if_pos h₁] at h
      split at h
      · next r' hr =>
        split_ifs at h with hp
        simp only [Option.some.injEq, Target.reg.injEq] at h
        subst h
        exact ⟨regAt_eq_some.1 hr, hp⟩
      · cases h
    · rw [if_neg h₁] at h
      split_ifs at h <;> simp at h
  · rintro ⟨rfl, hp⟩
    unfold targetAt
    rw [if_pos (regOffset_lt r).1, regAt_eq_some.2 rfl]
    simp only [hp, if_true]

/-- An access reaches a register exactly at its offset, with 4 bytes, where it is present (20_memory.md R54). -/
theorem accessTarget_eq_reg {s : State} {off n : Nat} {r : Reg} :
    accessTarget s off n = some (.reg r) ↔ n = 4 ∧ off = regOffset r ∧ regPresent s.params r = true := by
  constructor
  · intro h
    unfold accessTarget at h
    split_ifs at h with h₁
    split at h
    · next t ht =>
      split_ifs at h with hs
      simp only [Option.some.injEq] at h
      subst h
      simp only [sizeAllowed, beq_iff_eq] at hs
      exact ⟨hs, targetAt_eq_reg.1 ht⟩
    · cases h
  · rintro ⟨rfl, rfl, hp⟩
    unfold accessTarget
    rw [if_pos ⟨by decide, (regOffset_lt r).2⟩, targetAt_eq_reg.2 ⟨rfl, hp⟩]
    rfl

/-- Reading a register that is present in a state that permits it. -/
theorem hostRead_reg {s : State} {r : Reg} (hp : regPresent s.params r = true)
    (hb : s.busy = false ∨ regReadableBusy r = true) : hostRead s (regOffset r) 4 = some (readReg s r) := by
  unfold hostRead
  rw [accessTarget_eq_reg.2 ⟨rfl, rfl, hp⟩]
  simp only
  rw [if_pos]
  · rfl
  · unfold readPermitted
    rcases hb with hb | hb
    · simp [hb]
    · simp [hb]

/-- A write moves `gen` at most (log 6). -/
theorem writeMoves_eq (g : Target) (s u : State) : writeMoves g s u = { u with gen := (writeMoves g s u).gen } := by
  unfold writeMoves
  split_ifs <;> rfl

/-- A write that changes nothing moves nothing (20_memory.md R56). -/
@[simp] theorem writeMoves_self (g : Target) (s : State) : writeMoves g s s = s := by
  simp [writeMoves]

/-! ### writeMoves: one lemma per field but `gen` -/

section
variable (g : Target) (s u : State)

@[simp] theorem writeMoves_params : (writeMoves g s u).params = u.params := by rw [writeMoves_eq]
@[simp] theorem writeMoves_busy : (writeMoves g s u).busy = u.busy := by rw [writeMoves_eq]
@[simp] theorem writeMoves_err : (writeMoves g s u).err = u.err := by rw [writeMoves_eq]
@[simp] theorem writeMoves_phase : (writeMoves g s u).phase = u.phase := by rw [writeMoves_eq]
@[simp] theorem writeMoves_cmd : (writeMoves g s u).cmd = u.cmd := by rw [writeMoves_eq]
@[simp] theorem writeMoves_intStat : (writeMoves g s u).intStat = u.intStat := by rw [writeMoves_eq]
@[simp] theorem writeMoves_intEn : (writeMoves g s u).intEn = u.intEn := by rw [writeMoves_eq]
@[simp] theorem writeMoves_errCode : (writeMoves g s u).errCode = u.errCode := by rw [writeMoves_eq]
@[simp] theorem writeMoves_errInfo : (writeMoves g s u).errInfo = u.errInfo := by rw [writeMoves_eq]
@[simp] theorem writeMoves_pkData : (writeMoves g s u).pkData = u.pkData := by rw [writeMoves_eq]
@[simp] theorem writeMoves_pkBits : (writeMoves g s u).pkBits = u.pkBits := by rw [writeMoves_eq]
@[simp] theorem writeMoves_upLen : (writeMoves g s u).upLen = u.upLen := by rw [writeMoves_eq]
@[simp] theorem writeMoves_upPos : (writeMoves g s u).upPos = u.upPos := by rw [writeMoves_eq]
@[simp] theorem writeMoves_upData : (writeMoves g s u).upData = u.upData := by rw [writeMoves_eq]
@[simp] theorem writeMoves_obLen : (writeMoves g s u).obLen = u.obLen := by rw [writeMoves_eq]
@[simp] theorem writeMoves_lzPalsize : (writeMoves g s u).lzPalsize = u.lzPalsize := by rw [writeMoves_eq]
@[simp] theorem writeMoves_lzMaxbits : (writeMoves g s u).lzMaxbits = u.lzMaxbits := by rw [writeMoves_eq]
@[simp] theorem writeMoves_lzLen : (writeMoves g s u).lzLen = u.lzLen := by rw [writeMoves_eq]
@[simp] theorem writeMoves_lzPos : (writeMoves g s u).lzPos = u.lzPos := by rw [writeMoves_eq]
@[simp] theorem writeMoves_lzW : (writeMoves g s u).lzW = u.lzW := by rw [writeMoves_eq]
@[simp] theorem writeMoves_lzDsize : (writeMoves g s u).lzDsize = u.lzDsize := by rw [writeMoves_eq]
@[simp] theorem writeMoves_lzLast : (writeMoves g s u).lzLast = u.lzLast := by rw [writeMoves_eq]
@[simp] theorem writeMoves_ctBpp : (writeMoves g s u).ctBpp = u.ctBpp := by rw [writeMoves_eq]
@[simp] theorem writeMoves_pxIn : (writeMoves g s u).pxIn = u.pxIn := by rw [writeMoves_eq]
@[simp] theorem writeMoves_pxMask : (writeMoves g s u).pxMask = u.pxMask := by rw [writeMoves_eq]
@[simp] theorem writeMoves_color : (writeMoves g s u).color = u.color := by rw [writeMoves_eq]
@[simp] theorem writeMoves_colorT : (writeMoves g s u).colorT = u.colorT := by rw [writeMoves_eq]
@[simp] theorem writeMoves_pzLevel : (writeMoves g s u).pzLevel = u.pzLevel := by rw [writeMoves_eq]
@[simp] theorem writeMoves_pzAbits : (writeMoves g s u).pzAbits = u.pzAbits := by rw [writeMoves_eq]
@[simp] theorem writeMoves_tuple : (writeMoves g s u).tuple = u.tuple := by rw [writeMoves_eq]
@[simp] theorem writeMoves_ct : (writeMoves g s u).ct = u.ct := by rw [writeMoves_eq]
@[simp] theorem writeMoves_dict : (writeMoves g s u).dict = u.dict := by rw [writeMoves_eq]
@[simp] theorem writeMoves_symbuf : (writeMoves g s u).symbuf = u.symbuf := by rw [writeMoves_eq]
@[simp] theorem writeMoves_ubuf : (writeMoves g s u).ubuf = u.ubuf := by rw [writeMoves_eq]
@[simp] theorem writeMoves_pbuf : (writeMoves g s u).pbuf = u.pbuf := by rw [writeMoves_eq]
@[simp] theorem writeMoves_obuf : (writeMoves g s u).obuf = u.obuf := by rw [writeMoves_eq]
@[simp] theorem writeMoves_epoch : (writeMoves g s u).epoch = u.epoch := by rw [writeMoves_eq]
@[simp] theorem writeMoves_inputs : (writeMoves g s u).inputs = u.inputs := by rw [writeMoves_eq]
@[simp] theorem writeMoves_port : (writeMoves g s u).port = u.port := by rw [writeMoves_eq]

end

/-- Writing a register that is present, outside the BUSY-state and the ERR-state. -/
theorem hostWrite_reg {s : State} {r : Reg} (v : Word) (hp : regPresent s.params r = true)
    (hw : regWritable r = true) (hb : s.busy = false) (he : s.err = false)
    (hl : s.phase = .active → regLocked r = false) :
    hostWrite s (regOffset r) 4 v = some (writeMoves (.reg r) s (writeReg s r v)) := by
  unfold hostWrite
  rw [accessTarget_eq_reg.2 ⟨rfl, rfl, hp⟩]
  simp only
  rw [if_pos]
  · rfl
  · simp only [writePermitted, hb, he, hostWritable, hw, lockedWhileActive, Bool.true_and]
    by_cases h : s.phase = .active
    · simp [h, hl h]
    · simp [h]

/-- Everything a successful host write can be: in the ERR-state the write of RST to CMD; else the write of a writable
register, of CT, of SYMBUF outside ACTIVE, or of UBUF (20_memory.md R52, R55). -/
theorem hostWrite_cases {s t : State} {off n : Nat} {v : Word} (h : hostWrite s off n v = some t) :
    s.busy = false ∧
      ((s.err = true ∧ off = 0x01C ∧ n = 4 ∧ v = 1 ∧ t = { s with cmd := 1, busy := true }) ∨
        (s.err = false ∧
          ((∃ r g, n = 4 ∧ off = regOffset r ∧ regPresent s.params r = true ∧ regWritable r = true ∧
              (s.phase = .active → regLocked r = false) ∧ t = { writeReg s r v with gen := g }) ∨
            (∃ k g, t = { s with ct := Memory.write s.ct k v, gen := g }) ∨
            (∃ i g, s.phase ≠ .active ∧
              t = { s with symbuf := Memory.writeMany s.symbuf i (bytesOf v n), gen := g }) ∨
            ∃ i g, t = { s with ubuf := Memory.writeMany s.ubuf i (bytesOf v n), gen := g }))) := by
  unfold hostWrite at h
  cases ha : accessTarget s off n with
  | none => rw [ha] at h; cases h
  | some g =>
    rw [ha] at h
    simp only at h
    split_ifs at h with hp
    simp only [Option.some.injEq] at h
    subst h
    unfold writePermitted at hp
    split_ifs at hp with h₁ h₂
    · simp only [Bool.and_eq_true, beq_iff_eq] at hp
      obtain ⟨rfl, rfl⟩ := hp
      obtain ⟨rfl, rfl, -⟩ := accessTarget_eq_reg.1 ha
      exact ⟨by simpa using h₁, .inl ⟨h₂, rfl, rfl, rfl, by simp [writeMoves, writeTarget, writeReg]⟩⟩
    · refine ⟨by simpa using h₁, .inr ⟨by simpa using h₂, ?_⟩⟩
      simp only [Bool.and_eq_true, Bool.not_eq_true', Bool.and_eq_false_iff, beq_eq_false_iff_ne, ne_eq] at hp
      obtain ⟨hw, hl⟩ := hp
      cases g with
      | reg r =>
        obtain ⟨rfl, rfl, hpr⟩ := accessTarget_eq_reg.1 ha
        refine .inl ⟨r, _, rfl, rfl, hpr, hw, fun hph => ?_, writeMoves_eq _ _ _⟩
        rcases hl with hl | hl
        · exact absurd hph hl
        · exact hl
      | ct k => exact .inr (.inl ⟨k, _, writeMoves_eq _ _ _⟩)
      | dict c => cases hw
      | byte m i =>
        cases m with
        | symbuf =>
          refine .inr (.inr (.inl ⟨i, _, fun hph => ?_, writeMoves_eq _ _ _⟩))
          rcases hl with hl | hl
          · exact hl hph
          · cases hl
        | ubuf => exact .inr (.inr (.inr ⟨i, _, writeMoves_eq _ _ _⟩))
        | pbuf => cases hw
        | obuf => cases hw

/-- What the write of a register can change: none of the registers only ALZ writes, no memory, nothing of the model's
own. -/
theorem writeReg_frame (s : State) (r : Reg) (v : Word) :
    writeReg s r v = { s with
      busy := (writeReg s r v).busy, cmd := (writeReg s r v).cmd, intStat := (writeReg s r v).intStat
      intEn := (writeReg s r v).intEn, pkData := (writeReg s r v).pkData, upLen := (writeReg s r v).upLen
      upPos := (writeReg s r v).upPos, lzPalsize := (writeReg s r v).lzPalsize
      lzMaxbits := (writeReg s r v).lzMaxbits, lzLen := (writeReg s r v).lzLen, ctBpp := (writeReg s r v).ctBpp
      pxIn := (writeReg s r v).pxIn, pxMask := (writeReg s r v).pxMask, color := (writeReg s r v).color
      colorT := (writeReg s r v).colorT, pzLevel := (writeReg s r v).pzLevel
      pzAbits := (writeReg s r v).pzAbits, tuple := (writeReg s r v).tuple } := by
  cases r <;> rfl

/-- A successful host write leaves alone everything the host cannot write (column `access` of 10_state.md R17, column
`host access` of 20_memory.md R51). -/
theorem hostWrite_frame {s t : State} {off n : Nat} {v : Word} (h : hostWrite s off n v = some t) :
    t = { s with
      busy := t.busy, cmd := t.cmd, intStat := t.intStat, intEn := t.intEn, pkData := t.pkData, upLen := t.upLen
      upPos := t.upPos, lzPalsize := t.lzPalsize, lzMaxbits := t.lzMaxbits, lzLen := t.lzLen, ctBpp := t.ctBpp
      pxIn := t.pxIn, pxMask := t.pxMask, color := t.color, colorT := t.colorT, pzLevel := t.pzLevel
      pzAbits := t.pzAbits, tuple := t.tuple, ct := t.ct, symbuf := t.symbuf, ubuf := t.ubuf, gen := t.gen } := by
  rcases (hostWrite_cases h).2 with ⟨-, -, -, -, rfl⟩ | ⟨-, ⟨r, g, -, -, -, -, -, rfl⟩ | ⟨k, g, rfl⟩ | ⟨i, g, -, rfl⟩ |
      ⟨i, g, rfl⟩⟩
  · rfl
  · rw [writeReg_frame]
  · rfl
  · rfl
  · rfl

/-- What an offset of a byte window names, for parameters in the ranges of 00_scope.md R5 (20_memory.md R51). -/
theorem targetAt_byte {p : Params} (h : p.Legal) (i : Nat) :
    (i < p.symCap → targetAt p (0x10000 + i) = some (.byte .symbuf i)) ∧
      (i < p.uCap → targetAt p (0x20000 + i) = some (.byte .ubuf i)) ∧
      (i < p.pCap → targetAt p (0x40000 + i) = some (.byte .pbuf i)) ∧
      (i < p.oCap → targetAt p (0x60000 + i) = some (.byte .obuf i)) := by
  obtain ⟨_, _, _, _⟩ := h
  refine ⟨fun hi => ?_, fun hi => ?_, fun hi => ?_, fun hi => ?_⟩
  · unfold targetAt
    rw [if_neg (by omega), if_neg (by omega), if_neg (by omega), if_pos (by omega), Nat.add_sub_cancel_left]
  · unfold targetAt
    rw [if_neg (by omega), if_neg (by omega), if_neg (by omega), if_neg (by omega), if_pos (by omega),
      Nat.add_sub_cancel_left]
  · unfold targetAt
    rw [if_neg (by omega), if_neg (by omega), if_neg (by omega), if_neg (by omega), if_neg (by omega),
      if_pos (by omega), Nat.add_sub_cancel_left]
  · unfold targetAt
    rw [if_neg (by omega), if_neg (by omega), if_neg (by omega), if_neg (by omega), if_neg (by omega),
      if_neg (by omega), if_pos (by omega), Nat.add_sub_cancel_left]

/-- An aligned access of 1, 2 or 4 bytes at a mapped byte reaches it (20_memory.md R54). -/
theorem accessTarget_byte {s : State} {off n i : Nat} {m : Space} (h : targetAt s.params off = some (.byte m i))
    (hn : n = 1 ∨ n = 2 ∨ n = 4) (ha : off % n = 0) : accessTarget s off n = some (.byte m i) := by
  unfold accessTarget
  rw [if_pos ⟨hn, ha⟩, h]
  have : sizeAllowed (.byte m i) n = true := by rcases hn with rfl | rfl | rfl <;> rfl
  simp only [this, if_true]

/-- Reading a byte window outside the BUSY-state (20_memory.md R53, R55). -/
theorem hostRead_byte {s : State} {off n i : Nat} {m : Space} (h : targetAt s.params off = some (.byte m i))
    (hn : n = 1 ∨ n = 2 ∨ n = 4) (ha : off % n = 0) (hb : s.busy = false) :
    hostRead s off n = some (BitVec.ofNat 32 (hostBytes s m i n)) := by
  unfold hostRead
  rw [accessTarget_byte h hn ha]
  simp [readPermitted, hb, readTarget]

/-- The value of a read of `n` bytes is below 256^n. -/
theorem hostBytes_lt (s : State) (m : Space) (i n : Nat) : hostBytes s m i n < 256 ^ n := by
  induction n generalizing i with
  | zero => simp [hostBytes]
  | succ n ih =>
    have h := ih (i + 1)
    have hb := (hostByte s m i).isLt
    rw [hostBytes, pow_succ]
    omega

/-- Byte `k` of the value of a read is the byte `k` places on (20_memory.md R53). -/
theorem hostBytes_byte (s : State) (m : Space) (i n k : Nat) (h : k < n) :
    hostBytes s m i n / 256 ^ k % 256 = (hostByte s m (i + k)).toNat := by
  induction n generalizing i k with
  | zero => omega
  | succ n ih =>
    have hb := (hostByte s m i).isLt
    rw [hostBytes]
    cases k with
    | zero => simp only [pow_zero, Nat.div_one, Nat.add_zero]; omega
    | succ k =>
      rw [pow_succ', ← Nat.div_div_eq_div_mul,
        show ((hostByte s m i).toNat + 256 * hostBytes s m (i + 1) n) / 256 = hostBytes s m (i + 1) n by omega,
        ih (i + 1) k (by omega), Nat.add_right_comm, Nat.add_assoc]

/-- What a read of a byte window returns (20_memory.md R53, R55): a value below 256^n whose byte `k` is the byte `k`
places on. -/
theorem hostRead_bytes {s : State} {off n i : Nat} {m : Space} (h : targetAt s.params off = some (.byte m i))
    (hn : n = 1 ∨ n = 2 ∨ n = 4) (ha : off % n = 0) (hb : s.busy = false) :
    ∃ w, hostRead s off n = some w ∧ w.toNat < 256 ^ n ∧
      ∀ k, k < n → w.extractLsb' (8 * k) 8 = hostByte s m (i + k) := by
  have hlt := hostBytes_lt s m i n
  have hle : 256 ^ n ≤ 2 ^ 32 := by rcases hn with rfl | rfl | rfl <;> decide
  have hw : (BitVec.ofNat 32 (hostBytes s m i n)).toNat = hostBytes s m i n := by
    rw [BitVec.toNat_ofNat, Nat.mod_eq_of_lt (by omega)]
  refine ⟨_, hostRead_byte h hn ha hb, by rw [hw]; exact hlt, fun k hk => BitVec.eq_of_toNat_eq ?_⟩
  rw [BitVec.extractLsb'_toNat, hw, Nat.shiftRight_eq_div_pow, pow_mul, ← hostBytes_byte s m i n k hk]
  norm_num

/-- The bytes of a value from index `i` on, where its low `n` bytes have been written from there (20_memory.md R53). -/
theorem byteAt_writeMany_bytesOf (e : Nat) (m : Space) (l : List Host.Cell) (i n k : Nat) (v : Word) :
    byteAt e m (Memory.writeMany l i (bytesOf v n)) k =
      if i ≤ k ∧ k < i + n then v.extractLsb' (8 * (k - i)) 8 else byteAt e m l k := by
  unfold byteAt
  rw [Memory.lookup_writeMany]
  by_cases h : i ≤ k ∧ k < i + n
  · have hk : k - i < n := by omega
    simp [bytesOf, h, hk]
  · simp [bytesOf, h]

/-- A word is known by its bytes: one below 256^n with the bytes of `v` from byte `k` on is that part of `v`. -/
theorem eq_part_of_bytes {w v : Word} {n d : Nat} (h : w.toNat < 256 ^ n)
    (hb : ∀ k, k < n → w.extractLsb' (8 * k) 8 = v.extractLsb' (8 * (d + k)) 8) :
    w = (v >>> (8 * d)) &&& BitVec.ofNat 32 (2 ^ (8 * n) - 1) := by
  apply BitVec.eq_of_getLsbD_eq
  intro j hj
  have hm : (BitVec.ofNat 32 (2 ^ (8 * n) - 1)).getLsbD j = decide (j < 8 * n) := by
    rw [BitVec.getLsbD_ofNat, Nat.testBit_two_pow_sub_one]
    simp [hj]
  rw [BitVec.getLsbD_and, hm]
  by_cases hl : j < 8 * n
  · have hk := congrArg (fun x => x.getLsbD (j % 8)) (hb (j / 8) (by omega))
    simp only [BitVec.getLsbD_extractLsb', show j % 8 < 8 by omega, decide_true, Bool.true_and,
      show 8 * (j / 8) + j % 8 = j by omega, show 8 * (d + j / 8) + j % 8 = 8 * d + j by omega] at hk
    simp [hl, hk]
  · have : w.getLsbD j = false := by
      refine Nat.testBit_lt_two_pow (lt_of_lt_of_le h ?_)
      rw [show (256 : Nat) = 2 ^ 8 from rfl, ← pow_mul]
      exact Nat.pow_le_pow_right (by decide) (by omega)
    simp [hl, this]

/-- What the host reads depends neither on the moves lined up nor on the last response (20_memory.md R56). -/
theorem hostRead_moves (s : State) (off n : Nat) (is : List Input) (p : Response) :
    hostRead { s with inputs := is, port := p } off n = hostRead s off n := by
  have hb : ∀ m k i, hostBytes { s with inputs := is, port := p } m i k = hostBytes s m i k := by
    intro m k
    induction k with
    | zero => exact fun _ => rfl
    | succ k ih => exact fun i => by rw [hostBytes, hostBytes, ih]; rfl
  have hr : ∀ g, readTarget { s with inputs := is, port := p } g n = readTarget s g n := by
    intro g
    cases g with
    | byte m i => simp only [readTarget, hb]
    | _ => rfl
  unfold hostRead
  simp only [hr]
  rfl

/-- A write other than to CMD, done to what it has made already, changes nothing (20_memory.md R56). -/
theorem writeTarget_again (s : State) {g : Target} (n : Nat) (v : Word) (k : Nat) (is : List Input) (p : Response)
    (h : g ≠ .reg .cmd) :
    writeTarget { writeTarget s g n v with gen := k, inputs := is, port := p } g n v =
      { writeTarget s g n v with gen := k, inputs := is, port := p } := by
  cases g with
  | reg r => cases r <;> first | rfl | exact (h rfl).elim | simp [writeTarget, writeReg, intCleared]
  | ct k => simp only [writeTarget, Memory.write_write]
  | dict c => rfl
  | byte m i => cases m <;> simp only [writeTarget, Memory.writeMany_writeMany]

end Sys2Proof.Machine
end

