-- ==== Sys2Proof/Laws/Operands.lean ====
section
/-! SUPPORT. What the operand functions compute: the least width, the bits of a pop, the sequence of a code, and the
longest candidate. -/

namespace Sys2Proof.Machine

/-! ### Widths (00_scope.md R8) -/

/-- The search finds the least width from `k` on, if `fuel` turns reach one. -/
theorem leastWidth_le_iff (p fuel k j : Nat) (hk : k ≤ j) (hfuel : p ≤ 2 ^ (k + fuel))
    (hlow : ∀ i, i < k → ¬ p ≤ 2 ^ i) : leastWidth p fuel k ≤ j ↔ p ≤ 2 ^ j := by
  induction fuel generalizing k with
  | zero =>
    simp only [leastWidth, Nat.add_zero] at hfuel ⊢
    exact ⟨fun _ => hfuel.trans (Nat.pow_le_pow_right (by decide) hk), fun _ => hk⟩
  | succ fuel ih =>
    simp only [leastWidth]
    split_ifs with h
    · exact ⟨fun _ => h.trans (Nat.pow_le_pow_right (by decide) hk), fun _ => hk⟩
    · rcases Nat.lt_or_ge k j with hkj | hkj
      · refine ih (k + 1) hkj (by rwa [Nat.add_right_comm, Nat.add_assoc]) (fun i hi => ?_)
        rcases Nat.lt_succ_iff_lt_or_eq.1 hi with h' | h'
        · exact hlow i h'
        · exact h' ▸ h
      · have hjk : j = k := by omega
        subst hjk
        refine ⟨fun hle => ?_, fun hp => absurd hp h⟩
        have hge : ∀ f i, i ≤ leastWidth p f i := by
          intro f
          induction f with
          | zero => intro i; exact le_rfl
          | succ f ihf =>
            intro i
            simp only [leastWidth]
            split_ifs
            · exact le_rfl
            · exact (Nat.le_succ i).trans (ihf (i + 1))
        have := hge fuel (j + 1)
        omega

/-- `clog2(p)` is at most `k` exactly when `p` is at most 2^k. -/
theorem clog2_le (p k : Nat) : clog2 p ≤ k ↔ p ≤ 2 ^ k := by
  refine leastWidth_le_iff p p 0 k (Nat.zero_le _) ?_ (fun i hi => absurd hi (Nat.not_lt_zero i))
  rw [Nat.zero_add]
  exact Nat.lt_two_pow_self.le

theorem lt_clog2 (p k : Nat) : k < clog2 p ↔ 2 ^ k < p := by
  have := clog2_le p k
  omega

theorem le_two_pow_clog2 (p : Nat) : p ≤ 2 ^ clog2 p := (clog2_le p _).1 le_rfl

/-- The initial width of a legal palette: between 2 and 9, and wide enough for the initial dictionary. -/
theorem initialWidth_legal (p : Nat) (h₁ : 1 ≤ p) (h₂ : p ≤ palMax) :
    initialWidth p = max 2 (clog2 p + 1) ∧ 2 ≤ initialWidth p ∧ initialWidth p ≤ 9 ∧
      p + 2 ≤ 2 ^ initialWidth p := by
  have hw : initialWidth p = max 2 (clog2 p + 1) := by
    unfold initialWidth
    rw [if_neg (by omega)]
  have h8 : clog2 p ≤ 8 := (clog2_le p 8).2 (by simpa [palMax] using h₂)
  refine ⟨hw, by omega, by omega, ?_⟩
  have hp := le_two_pow_clog2 p
  rcases Nat.lt_or_ge p 3 with h | h
  · have : 2 ^ 2 ≤ 2 ^ initialWidth p := Nat.pow_le_pow_right (by decide) (by omega)
    omega
  · have hge : 2 ^ (clog2 p + 1) ≤ 2 ^ initialWidth p := Nat.pow_le_pow_right (by decide) (by omega)
    rw [Nat.pow_succ] at hge
    omega

/-! ### Bits of a pop (42_bitunpacker.md R100) -/

theorem upPeek_lt (s : State) (pos n : Nat) : upPeek s pos n < 2 ^ n := by
  induction n with
  | zero => simp [upPeek]
  | succ n ih =>
    have hb : (ubufBit s (pos + n)).toNat ≤ 1 := Bool.toNat_le _
    simp only [upPeek, Nat.pow_succ]
    omega

/-- Bit `i` from the end of a pop: the bits come first bit most significant. -/
theorem upPeek_testBit (s : State) (pos n i : Nat) :
    (upPeek s pos n).testBit i = if i < n then ubufBit s (pos + (n - 1 - i)) else false := by
  induction n generalizing i with
  | zero => simp [upPeek]
  | succ n ih =>
    have hsplit : upPeek s pos (n + 1) = (ubufBit s (pos + n)).toNat + 2 * upPeek s pos n := by
      simp only [upPeek]; omega
    rw [hsplit]
    cases i with
    | zero => cases h : ubufBit s (pos + n) <;> simp [h, Nat.testBit_zero]
    | succ i =>
      have hdiv : ((ubufBit s (pos + n)).toNat + 2 * upPeek s pos n) / 2 = upPeek s pos n := by
        have hb : (ubufBit s (pos + n)).toNat ≤ 1 := Bool.toNat_le _
        omega
      rw [Nat.testBit_succ, hdiv, ih]
      by_cases h : i < n
      · rw [if_pos h, if_pos (by omega)]
        congr 2
        omega
      · rw [if_neg h, if_neg (by omega)]

/-! ### Sequences and matching (44_lzw.md R126) -/

/-- The bound on the unfolding of `seq` is no more than a bound: a larger one gives the same sequence. -/
theorem seqWithin_mono (s : State) {f g c : Nat} {q : List Byte} (h : seqWithin s f c = some q) (hfg : f ≤ g) :
    seqWithin s g c = some q := by
  induction f generalizing g c q with
  | zero => simp [seqWithin] at h
  | succ f ih =>
    obtain ⟨g, rfl⟩ : ∃ g', g = g' + 1 := ⟨g - 1, by omega⟩
    simp only [seqWithin] at h ⊢
    split at h <;> simp_all
    obtain ⟨a, ha, rfl⟩ := h
    exact ⟨a, ih ha (by omega), rfl⟩

/-- A symbol run read one symbol further. -/
theorem symbolsAt_succ (s : State) (pos l : Nat) :
    symbolsAt s pos (l + 1) = symbolsAt s pos l ++ [readSym s (pos + l)] := by
  simp [symbolsAt, List.range_succ]

@[simp] theorem symbolsAt_length (s : State) (pos l : Nat) : (symbolsAt s pos l).length = l := by
  simp [symbolsAt]

/-- What it is to be a candidate of `lz_match` (44_lzw.md R126). -/
theorem candidateLength_eq_some {s : State} {pos c l : Nat} :
    candidateLength s pos c = some l ↔
      l ≤ s.lzLen.toNat - pos ∧ seqOf s c = some (symbolsAt s pos l) := by
  unfold candidateLength
  split
  · next h => simp [h]
  · next q h =>
    rw [h]
    constructor
    · intro h'
      split_ifs at h' with hc
      obtain ⟨h₁, h₂⟩ := hc
      have hl : q.length = l := by simpa using h'
      subst hl
      exact ⟨h₁, congrArg some h₂⟩
    · rintro ⟨h₁, h₂⟩
      have hq : q = symbolsAt s pos l := by simpa using h₂
      have hl : q.length = l := by rw [hq]; simp
      rw [if_pos ⟨by rw [hl]; exact h₁, by rw [hl]; exact hq⟩, hl]

/-- Everything the scan can answer: the candidate of greatest length below `n`, or none where there is none. -/
theorem longestBelow_spec (s : State) (pos n : Nat) :
    (longestBelow s pos n = none → ∀ c, c < n → candidateLength s pos c = none) ∧
      ∀ c l, longestBelow s pos n = some (c, l) →
        c < n ∧ candidateLength s pos c = some l ∧
          ∀ d m, d < n → candidateLength s pos d = some m → m ≤ l := by
  induction n with
  | zero => simp [longestBelow]
  | succ n ih =>
    obtain ⟨ih₁, ih₂⟩ := ih
    have split_lt : ∀ {P : Nat → Prop}, (∀ c, c < n → P c) → P n → ∀ c, c < n + 1 → P c := by
      intro P h hn c hc
      rcases Nat.lt_succ_iff_lt_or_eq.1 hc with h' | h'
      · exact h c h'
      · exact h' ▸ hn
    simp only [longestBelow]
    split
    · next best hbest hn =>
      refine ⟨fun h => split_lt (ih₁ h) hn, fun c l h => ?_⟩
      obtain ⟨h₁, h₂, h₃⟩ := ih₂ c l h
      exact ⟨by omega, h₂, fun d m hd => split_lt (P := fun d => candidateLength s pos d = some m → m ≤ l)
        (fun d hd => h₃ d m hd) (by simp [hn]) d hd⟩
    · next l hbest hn =>
      refine ⟨by simp, fun c l' h => ?_⟩
      simp only [Option.some.injEq, Prod.mk.injEq] at h
      obtain ⟨rfl, rfl⟩ := h
      exact ⟨by omega, hn, fun d m hd => split_lt (P := fun d => candidateLength s pos d = some m → m ≤ l)
        (fun d hd => by simp [ih₁ hbest d hd]) (by rw [hn]; intro h; simpa using (Option.some.inj h).ge) d hd⟩
    · next c₀ l₀ l hbest hn =>
      obtain ⟨h₁, h₂, h₃⟩ := ih₂ c₀ l₀ hbest
      refine ⟨by split_ifs <;> simp, fun c l' h => ?_⟩
      split_ifs at h with hlt <;> simp only [Option.some.injEq, Prod.mk.injEq] at h <;>
        obtain ⟨rfl, rfl⟩ := h
      · exact ⟨by omega, hn, fun d m hd => split_lt (P := fun d => candidateLength s pos d = some m → m ≤ l)
          (fun d hd h => (h₃ d m hd h).trans hlt.le)
          (by rw [hn]; intro h; simpa using (Option.some.inj h).ge) d hd⟩
      · exact ⟨by omega, h₂, fun d m hd => split_lt (P := fun d => candidateLength s pos d = some m → m ≤ l₀)
          (fun d hd => h₃ d m hd)
          (by rw [hn]; intro h; have := Option.some.inj h; omega) d hd⟩

/-- The four channels of a Colour built from them (10_state.md R28). -/
theorem colourOf_channels (a b g r : Byte) :
    byte3 (colourOf a b g r) = a ∧ byte2 (colourOf a b g r) = b ∧ byte1 (colourOf a b g r) = g ∧
      byte0 (colourOf a b g r) = r := by
  have := a.isLt
  have := b.isLt
  have := g.isLt
  have := r.isLt
  refine ⟨?_, ?_, ?_, ?_⟩ <;> apply BitVec.eq_of_toNat_eq <;>
    simp [byte3, byte2, byte1, byte0, colourOf, BitVec.extractLsb'_toNat, Nat.shiftRight_eq_div_pow] <;> omega

end Sys2Proof.Machine
end

