-- ==== Sys2Proof/Laws/Dictionary.lean ====
section
/-! SUPPORT. What the dictionary invariants of 10_state.md R33 give: every valid code of kind LIT or STR has a
sequence, one symbol longer than that of its prefix; sequences depend on the valid entries only. -/

namespace Sys2Proof.Machine

/-- Sequences of two dictionaries that agree below `n`, where prefixes lead nowhere else. -/
theorem seqWithin_agree {s t : State} {n : Nat} (h : ∀ d, d < n → readDict t d = readDict s d)
    (hp : ∀ d, d < n → (readDict s d).kind = .str → (readDict s d).pre.toNat < n) (f c : Nat) (hc : c < n) :
    seqWithin t f c = seqWithin s f c := by
  induction f generalizing c with
  | zero => rfl
  | succ f ih =>
    simp only [seqWithin, h c hc]
    split
    · rfl
    · next hk => rw [ih _ (hp c hc hk)]
    · rfl
    · rfl

/-- One turn of the unfolding of a sequence, by the kind of the entry (00_scope.md R8). -/
theorem seqWithin_lit {s : State} {c : Nat} (h : (readDict s c).kind = .lit) (f : Nat) :
    seqWithin s (f + 1) c = some [(readDict s c).sym] := by
  simp only [seqWithin, h]

theorem seqWithin_str {s : State} {c : Nat} (h : (readDict s c).kind = .str) (f : Nat) :
    seqWithin s (f + 1) c =
      (seqWithin s f (readDict s c).pre.toNat).map fun q => q ++ [(readDict s c).sym] := by
  simp only [seqWithin, h]

/-- Sequences depend on DICT only. -/
theorem seqWithin_congr {s t : State} (h : ∀ d, readDict t d = readDict s d) (f c : Nat) :
    seqWithin t f c = seqWithin s f c := by
  induction f generalizing c with
  | zero => rfl
  | succ f ih => simp only [seqWithin, h, ih]

theorem seqOf_congr {s t : State} (h : ∀ d, readDict t d = readDict s d) (c : Nat) : seqOf t c = seqOf s c :=
  seqWithin_congr h _ c

/-- A sequence is never empty. -/
theorem seqWithin_length_pos {s : State} {f c : Nat} {q : List Byte} (h : seqWithin s f c = some q) :
    0 < q.length := by
  cases f with
  | zero => simp [seqWithin] at h
  | succ f =>
    simp only [seqWithin] at h
    split at h
    · simp only [Option.some.injEq] at h; subst h; simp
    · simp only [Option.map_eq_some_iff] at h
      obtain ⟨a, -, rfl⟩ := h
      simp
    · simp at h
    · simp at h

/-- A matched sequence is never empty: the length of a candidate is at least 1. -/
theorem candidateLength_pos {s : State} {pos c l : Nat} (h : candidateLength s pos c = some l) : 0 < l := by
  simpa using seqWithin_length_pos (candidateLength_eq_some.1 h).2

variable {p : Nat} {s : State}

/-- The kinds of the valid entries (10_state.md R33 (a) to (c)). -/
theorem DictOk.kind_lit (h : DictOk p s) {k : Nat} (hk : k < p) : (readDict s k).kind = .lit := by
  rw [h.literals k hk]

theorem DictOk.kind_cases (h : DictOk p s) {k : Nat} (hk : k < s.lzDsize.toNat) :
    k < p ∨ k = p ∨ k = p + 1 ∨ (p + 2 ≤ k ∧ (readDict s k).kind = .str) := by
  by_cases h₁ : k < p
  · exact .inl h₁
  · by_cases h₂ : k = p
    · exact .inr (.inl h₂)
    · by_cases h₃ : k = p + 1
      · exact .inr (.inr (.inl h₃))
      · exact .inr (.inr (.inr ⟨by omega, (h.strings k (by omega) hk).1⟩))

/-- A valid entry of kind STR stands above the control entries. -/
theorem DictOk.str_above (h : DictOk p s) {k : Nat} (hk : k < s.lzDsize.toNat) (hs : (readDict s k).kind = .str) :
    p + 2 ≤ k := by
  rcases h.kind_cases hk with h' | h' | h' | ⟨h', -⟩
  · rw [h.kind_lit h'] at hs; cases hs
  · rw [h', h.clear] at hs; cases hs
  · rw [h', h.endc] at hs; cases hs
  · exact h'

/-- Prefixes of valid entries are valid, and lower. -/
theorem DictOk.pre_lt (h : DictOk p s) {k : Nat} (hk : k < s.lzDsize.toNat) (hs : (readDict s k).kind = .str) :
    (readDict s k).pre.toNat < k :=
  (h.strings k (h.str_above hk hs) hk).2.1

/-- Every valid code of kind LIT or STR has a sequence, found with as many turns as there are codes up to it. -/
theorem DictOk.seqWithin_some (h : DictOk p s) (k : Nat) (hk : k < s.lzDsize.toNat)
    (hkind : (readDict s k).kind = .lit ∨ (readDict s k).kind = .str) :
    ∃ q, seqWithin s (k + 1) k = some q := by
  induction k using Nat.strong_induction_on with
  | _ k ih =>
    rcases hkind with hl | hs
    · exact ⟨[(readDict s k).sym], by simp only [seqWithin, hl]⟩
    · obtain ⟨-, hlt, hpk⟩ := h.strings k (h.str_above hk hs) hk
      obtain ⟨q, hq⟩ := ih _ hlt (by omega) hpk
      have hq' := seqWithin_mono s hq (show (readDict s k).pre.toNat + 1 ≤ k by omega)
      refine ⟨q ++ [(readDict s k).sym], ?_⟩
      simp only [seqWithin, hs, hq']
      rfl

theorem DictOk.seqOf_eq (h : DictOk p s) {k f : Nat} {q : List Byte} (hk : k < s.lzDsize.toNat)
    (hq : seqWithin s f k = some q) (hf : f ≤ k + 1) : seqOf s k = some q :=
  seqWithin_mono s hq (by have := h.sizeHigh; omega)

theorem DictOk.seqOf_some (h : DictOk p s) {k : Nat} (hk : k < s.lzDsize.toNat)
    (hkind : (readDict s k).kind = .lit ∨ (readDict s k).kind = .str) : ∃ q, seqOf s k = some q := by
  obtain ⟨q, hq⟩ := h.seqWithin_some k hk hkind
  exact ⟨q, h.seqOf_eq hk hq le_rfl⟩

/-- The sequence of a literal (00_scope.md R8). -/
theorem DictOk.seqOf_lit (h : DictOk p s) {k : Nat} (hk : k < p) : seqOf s k = some [BitVec.ofNat 8 k] := by
  have hd := h.sizeLow
  refine h.seqOf_eq (f := 1) (by omega) ?_ (by omega)
  simp only [seqWithin, h.literals k hk]

/-- The sequence of a string is that of its prefix with its symbol behind (00_scope.md R8). -/
theorem DictOk.seqOf_str (h : DictOk p s) {k : Nat} (hk : k < s.lzDsize.toNat) (hs : (readDict s k).kind = .str) :
    ∃ q, seqOf s (readDict s k).pre.toNat = some q ∧ seqOf s k = some (q ++ [(readDict s k).sym]) := by
  obtain ⟨-, hlt, hpk⟩ := h.strings k (h.str_above hk hs) hk
  obtain ⟨q, hq⟩ := h.seqWithin_some _ (by omega) hpk
  refine ⟨q, h.seqOf_eq (by omega) hq le_rfl, ?_⟩
  have hq' := seqWithin_mono s hq (show (readDict s k).pre.toNat + 1 ≤ k by omega)
  refine h.seqOf_eq (f := k + 1) hk ?_ le_rfl
  simp only [seqWithin, hs, hq']
  rfl

/-- The control codes have no sequence. -/
theorem DictOk.seqOf_control (h : DictOk p s) : seqOf s p = none ∧ seqOf s (p + 1) = none := by
  constructor
  · show seqWithin s (4095 + 1) p = none
    simp only [seqWithin, h.clear]
  · show seqWithin s (4095 + 1) (p + 1) = none
    simp only [seqWithin, h.endc]

/-- The length of a sequence: 1 for a literal, else one more than that of the prefix; at most code + 1. -/
theorem DictOk.seqOf_length_le (h : DictOk p s) (k : Nat) (hk : k < s.lzDsize.toNat) {q : List Byte}
    (hq : seqOf s k = some q) : q.length ≤ k + 1 := by
  induction k using Nat.strong_induction_on generalizing q with
  | _ k ih =>
    rcases h.kind_cases hk with h' | h' | h' | ⟨h', hs⟩
    · rw [h.seqOf_lit h'] at hq
      simp only [Option.some.injEq] at hq
      subst hq
      simp
    · rw [h', h.seqOf_control.1] at hq; cases hq
    · rw [h', h.seqOf_control.2] at hq; cases hq
    · obtain ⟨r, hr, hr'⟩ := h.seqOf_str hk hs
      rw [hr'] at hq
      simp only [Option.some.injEq] at hq
      subst hq
      have hlt := h.pre_lt hk hs
      have := ih _ hlt (by omega) hr
      simp only [List.length_append, List.length_singleton]
      omega

/-- Every sequence begins with a symbol below the palette size (44_lzw.md R126). -/
theorem DictOk.seqOf_head (h : DictOk p s) (hp : p ≤ palMax) (k : Nat) (hk : k < s.lzDsize.toNat) {q : List Byte}
    (hq : seqOf s k = some q) : ∃ b, q[0]? = some b ∧ b.toNat < p := by
  induction k using Nat.strong_induction_on generalizing q with
  | _ k ih =>
    rcases h.kind_cases hk with h' | h' | h' | ⟨h', hs⟩
    · rw [h.seqOf_lit h'] at hq
      simp only [Option.some.injEq] at hq
      subst hq
      refine ⟨_, rfl, ?_⟩
      have : palMax = 256 := rfl
      rw [BitVec.toNat_ofNat]
      omega
    · rw [h', h.seqOf_control.1] at hq; cases hq
    · rw [h', h.seqOf_control.2] at hq; cases hq
    · obtain ⟨r, hr, hr'⟩ := h.seqOf_str hk hs
      rw [hr'] at hq
      simp only [Option.some.injEq] at hq
      subst hq
      have hlt := h.pre_lt hk hs
      obtain ⟨b, hb, hb'⟩ := ih _ hlt (by omega) hr
      refine ⟨b, ?_, hb'⟩
      have hpos := seqWithin_length_pos hr
      rw [List.getElem?_append_left hpos, hb]

/-- The set of sequences is prefix-closed (10_state.md R33 (d)): dropping the last symbol of a sequence of two or more
gives the sequence of a valid code. -/
theorem DictOk.seqOf_dropLast (h : DictOk p s) {k : Nat} (hk : k < s.lzDsize.toNat) {q : List Byte} {b : Byte}
    (hq : seqOf s k = some (q ++ [b])) (hne : q ≠ []) :
    (readDict s k).kind = .str ∧ (readDict s k).sym = b ∧ (readDict s k).pre.toNat < k ∧
      seqOf s (readDict s k).pre.toNat = some q := by
  rcases h.kind_cases hk with h' | h' | h' | ⟨h', hs⟩
  · rw [h.seqOf_lit h'] at hq
    cases q with
    | nil => exact absurd rfl hne
    | cons x q => simp at hq
  · rw [h', h.seqOf_control.1] at hq; cases hq
  · rw [h', h.seqOf_control.2] at hq; cases hq
  · obtain ⟨r, hr, hr'⟩ := h.seqOf_str hk hs
    rw [hr'] at hq
    simp only [Option.some.injEq] at hq
    obtain ⟨rfl, hb⟩ := List.append_inj' hq rfl
    exact ⟨hs, by simpa using hb, h.pre_lt hk hs, hr⟩

end Sys2Proof.Machine
end

