-- ==== Sys2Proof/Laws/Lzw.lean ====
section
/-! SUPPORT. What the operations of the encoder can do, said once each (44_lzw.md R125 to R131, 46_lzw_composite.md
R150): the initial dictionary, the emission of a code, the append, the four runs. -/

namespace Sys2Proof.Machine

/-! ### Entries -/

/-- One entry after a write of another. -/
theorem readDict_write {s t : State} {c : Nat} {e : DictEntry} (hd : t.dict = Memory.write s.dict c e)
    (he : t.epoch = s.epoch) (d : Nat) : readDict t d = if d = c then e else readDict s d := by
  simp only [readDict, hd, he, Memory.lookup_write]
  split <;> rfl

/-- Entries depend on DICT and the epoch only. -/
theorem readDict_same {s t : State} (hd : t.dict = s.dict) (he : t.epoch = s.epoch) (d : Nat) :
    readDict t d = readDict s d := by
  simp only [readDict, hd, he]

theorem lookup_initLiterals (p : Nat) (l : List (Nat × DictEntry)) (k : Nat) :
    Memory.lookup (initLiterals p l) k = if k < p then some (literalEntry k) else Memory.lookup l k := by
  induction p with
  | zero => simp [initLiterals]
  | succ p ih =>
    simp only [initLiterals, Memory.lookup_write, ih]
    by_cases h : k = p
    · subst h; simp
    · rw [if_neg h]
      by_cases h' : k < p
      · rw [if_pos h', if_pos (by omega)]
      · rw [if_neg h', if_neg (by omega)]

/-- The entries `lz_init` leaves (44_lzw.md R125). -/
theorem lookup_initDict (p : Nat) (l : List (Nat × DictEntry)) (k : Nat) :
    Memory.lookup (initDict p l) k =
      if k < p then some (literalEntry k) else if k = p then some clearEntry
      else if k = p + 1 then some endEntry else Memory.lookup l k := by
  simp only [initDict, Memory.lookup_write, lookup_initLiterals]
  by_cases h₁ : k = p + 1
  · subst h₁
    rw [if_pos rfl, if_neg (by omega), if_neg (by omega), if_pos rfl]
  · by_cases h₂ : k = p
    · subst h₂
      rw [if_neg h₁, if_pos rfl, if_neg (by omega), if_pos rfl]
    · rw [if_neg h₁, if_neg h₂, if_neg h₂, if_neg h₁]

theorem initDict_wf (p : Nat) (l : List (Nat × DictEntry)) (h : Memory.wf l = true) :
    Memory.wf (initDict p l) = true := by
  have : Memory.wf (initLiterals p l) = true := by
    induction p with
    | zero => exact h
    | succ p ih => exact Memory.wf_write _ _ _ ih
  exact Memory.wf_write _ _ _ (Memory.wf_write _ _ _ this)

/-- An entry after `lz_init` for a palette of `p`. -/
theorem readDict_init {s t : State} {p : Nat} (hd : t.dict = initDict p s.dict) (he : t.epoch = s.epoch) (k : Nat) :
    readDict t k =
      if k < p then literalEntry k else if k = p then clearEntry else if k = p + 1 then endEntry
      else readDict s k := by
  simp only [readDict, hd, he, lookup_initDict]
  split_ifs <;> rfl

/-! ### Emission and append -/

/-- The state after a code has been emitted at the current width. -/
abbrev emitted (c : Nat) (s : State) : State :=
  { s with
    pbuf := mergeBits s.epoch s.pkBits.toNat c s.lzW.toNat s.pbuf
    pkBits := BitVec.ofNat 32 (s.pkBits.toNat + s.lzW.toNat)
    lzLast := BitVec.ofNat 12 c }

/-- Everything `lz_emit` can do (44_lzw.md R128). -/
theorem lzEmit_cases (c : Nat) (s : State) :
    (8 * s.params.pCap < s.pkBits.toNat + s.lzW.toNat ∧ lzEmit c s = .raise .ovf 0 s) ∨
      (s.pkBits.toNat + s.lzW.toNat ≤ 8 * s.params.pCap ∧ lzEmit c s = .ok (emitted c s)) := by
  rcases pkPush_cases c s.lzW.toNat s with ⟨h, e⟩ | ⟨h, e⟩
  · exact .inl ⟨h, by simp only [lzEmit, e, Run.andThen_raise]⟩
  · exact .inr ⟨h, by simp only [lzEmit, e, Run.andThen_ok]⟩

theorem lzEmit_eq_ok {c : Nat} {s t : State} :
    lzEmit c s = .ok t ↔ s.pkBits.toNat + s.lzW.toNat ≤ 8 * s.params.pCap ∧ t = emitted c s := by
  rcases lzEmit_cases c s with ⟨h, e⟩ | ⟨h, e⟩ <;> rw [e]
  · simp only [reduceCtorEq, false_iff, not_and]; omega
  · simp only [Run.ok.injEq]
    exact ⟨fun h' => ⟨h, h'.symm⟩, fun h' => h'.2.symm⟩

/-- Everything the append of LZ_STEP can do (44_lzw.md R130, R133). -/
theorem lzAppend_cases (c : Nat) (s : State) :
    ((s.lzPos.toNat < s.lzLen.toNat ∧ s.lzDsize.toNat < 2 ^ s.lzMaxbits.toNat) ∧
        lzAppend c s = { s with
          dict := Memory.write s.dict s.lzDsize.toNat
            { kind := .str, pre := BitVec.ofNat 12 c, sym := readSym s s.lzPos.toNat }
          lzDsize := s.lzDsize + 1
          lzW := grownWidth s.lzW (s.lzDsize + 1) }) ∨
      (¬(s.lzPos.toNat < s.lzLen.toNat ∧ s.lzDsize.toNat < 2 ^ s.lzMaxbits.toNat) ∧ lzAppend c s = s) := by
  unfold lzAppend
  split_ifs with h
  · exact .inl ⟨h, rfl⟩
  · exact .inr ⟨h, rfl⟩

/-! ### The runs -/

/-- The configuration checks pass (44_lzw.md R125). -/
theorem lzCheck_eq_ok {s t : State} : lzCheck s = .ok t ↔ LzConfigOk s ∧ t = s := by
  unfold lzCheck LzConfigOk lzW0
  have : wMax = 12 := rfl
  split_ifs with h₁ h₂ h₃ <;> simp only [false_iff, Run.ok.injEq, not_and]
  · intro h; omega
  · intro h; omega
  · intro h; omega
  · exact ⟨fun h => ⟨by omega, h.symm⟩, fun h => h.2.symm⟩

/-- A run of checks alone raises its fault in the state it was given. -/
theorem lzCheck_eq_raise {s t : State} {f : FaultCode} {info : Word} (h : lzCheck s = .raise f info t) : t = s := by
  unfold lzCheck at h
  split_ifs at h <;> simp_all

/-- The state LZ_BEGIN leaves where it runs to its end (44_lzw.md R129). -/
abbrev begun (s : State) : State :=
  { emitted s.lzPalsize.toNat (lzInit { s with pkBits := 0 }) with phase := .active }

theorem lzBeginRun_eq_ok {s t : State} :
    lzBeginRun s = .ok t ↔
      LzConfigOk s ∧ (lzInit { s with pkBits := 0 }).lzW.toNat ≤ 8 * s.params.pCap ∧ t = begun s := by
  simp only [lzBeginRun, Run.andThen_eq_ok, lzCheck_eq_ok, lzEmit_eq_ok]
  constructor
  · rintro ⟨a, ⟨h, rfl⟩, b, ⟨h', rfl⟩, e⟩
    simp only [Run.ok.injEq] at e
    refine ⟨h, ?_, e.symm⟩
    simpa [lzInit] using h'
  · rintro ⟨h, h', rfl⟩
    refine ⟨s, ⟨h, rfl⟩, _, ⟨?_, rfl⟩, rfl⟩
    simpa [lzInit] using h'

/-- The state LZ_STEP leaves where it runs to its end after a match of code `c` and length `len` (44_lzw.md R130). -/
abbrev stepped (c len : Nat) (s : State) : State :=
  lzAppend c { emitted c s with lzPos := BitVec.ofNat 32 (s.lzPos.toNat + len) }

theorem lzStepRun_eq_ok {s t : State} :
    lzStepRun s = .ok t ↔
      s.phase = .active ∧ s.lzPos.toNat < s.lzLen.toNat ∧ s.pkBits.toNat + s.lzW.toNat ≤ 8 * s.params.pCap ∧
        ∃ c len, lzMatch s s.lzPos.toNat = some (c, len) ∧ t = stepped c len s := by
  unfold lzStepRun
  split_ifs with h
  · simp only [false_iff]
    rintro ⟨h₁, h₂, -⟩
    rcases h with h | h
    · exact h h₁
    · omega
  · have h₁ : s.phase = .active := by by_contra h'; exact h (.inl h')
    have h₂ : s.lzPos.toNat < s.lzLen.toNat := by by_contra h'; exact h (.inr (by omega))
    split
    · next hm =>
      simp only [reduceCtorEq, hm, false_iff]
      rintro ⟨-, -, -, -, -, h', -⟩
      cases h'
    · next c len hm =>
      simp only [Run.andThen_eq_ok, lzEmit_eq_ok, hm, Option.some.injEq, Prod.mk.injEq]
      constructor
      · rintro ⟨u, ⟨hfit, rfl⟩, e⟩
        simp only [Run.ok.injEq] at e
        exact ⟨h₁, h₂, hfit, c, len, ⟨rfl, rfl⟩, e.symm⟩
      · rintro ⟨-, -, hfit, c', len', ⟨rfl, rfl⟩, rfl⟩
        exact ⟨_, ⟨hfit, rfl⟩, rfl⟩

/-- LZ_STEP raises its faults before it changes anything (44_lzw.md R130). -/
theorem lzStepRun_eq_raise {s t : State} {f : FaultCode} {info : Word} (h : lzStepRun s = .raise f info t) :
    t = s := by
  unfold lzStepRun at h
  split_ifs at h
  · simp_all
  · split at h
    · simp_all
    · next c len hm =>
      rcases lzEmit_cases c s with ⟨-, e⟩ | ⟨-, e⟩ <;> rw [e] at h <;> simp_all

theorem lzEndRun_eq_ok {s t : State} :
    lzEndRun s = .ok t ↔
      s.phase = .active ∧ s.lzPos = s.lzLen ∧ s.pkBits.toNat + s.lzW.toNat ≤ 8 * s.params.pCap ∧
        t = { emitted (s.lzPalsize.toNat + 1) s with phase := .ended } := by
  unfold lzEndRun
  split_ifs with h
  · simp only [false_iff]
    rintro ⟨h₁, h₂, -⟩
    rcases h with h | h
    · exact h h₁
    · exact h h₂
  · have h₁ : s.phase = .active := by by_contra h'; exact h (.inl h')
    have h₂ : s.lzPos = s.lzLen := by by_contra h'; exact h (.inr h')
    simp only [Run.andThen_eq_ok, lzEmit_eq_ok]
    constructor
    · rintro ⟨u, ⟨hfit, rfl⟩, e⟩
      simp only [Run.ok.injEq] at e
      exact ⟨h₁, h₂, hfit, e.symm⟩
    · rintro ⟨-, -, hfit, rfl⟩
      exact ⟨_, ⟨hfit, rfl⟩, rfl⟩

/-- LZ_END raises its faults before it changes anything (44_lzw.md R131). -/
theorem lzEndRun_eq_raise {s t : State} {f : FaultCode} {info : Word} (h : lzEndRun s = .raise f info t) :
    t = s := by
  unfold lzEndRun at h
  split_ifs at h
  · simp_all
  · rcases lzEmit_cases (s.lzPalsize.toNat + 1) s with ⟨-, e⟩ | ⟨-, e⟩ <;> rw [e] at h <;> simp_all

/-- What every LZ_STEP keeps, the loop of LZ_ENC keeps, whether it runs to its end or raises a fault: `P` of the state
it ends in follows from `P` of the state it begins in. -/
theorem lzSteps_invariant (P : State → Prop) (h : ∀ s t, P s → lzStepRun s = .ok t → P t) (fuel : Nat) (s : State)
    (hs : P s) :
    (∀ t, lzSteps fuel s = .ok t → P t) ∧
      ∀ f info t, lzSteps fuel s = .raise f info t → P t ∧ lzStepRun t = .raise f info t := by
  induction fuel generalizing s with
  | zero => exact ⟨fun t ht => by simp only [lzSteps, Run.ok.injEq] at ht; exact ht ▸ hs, fun _ _ _ ht => by cases ht⟩
  | succ fuel ih =>
    simp only [lzSteps]
    split_ifs with hlt
    · cases hr : lzStepRun s with
      | ok u => simpa only [Run.andThen_ok] using ih u (h s u hs hr)
      | raise f info u =>
        refine ⟨fun t ht => by simp at ht, fun f' info' t ht => ?_⟩
        simp only [Run.andThen_raise, Run.raise.injEq] at ht
        obtain ⟨rfl, rfl, rfl⟩ := ht
        obtain rfl := lzStepRun_eq_raise hr
        exact ⟨hs, hr⟩
    · exact ⟨fun t ht => by simp only [Run.ok.injEq] at ht; exact ht ▸ hs, fun _ _ _ ht => by cases ht⟩

/-- The whole call in its four parts, where it runs to its end (46_lzw_composite.md R150). -/
theorem lzEncRun_eq_ok {s t : State} :
    lzEncRun s = .ok t ↔
      ∃ b e, lzBeginRun s = .ok (begun s) ∧ lzSteps (begun s).lzLen.toNat (begun s) = .ok b ∧ lzEndRun b = .ok e ∧
        frRunRun e = .ok t := by
  simp only [lzEncRun, Run.andThen_eq_ok]
  constructor
  · rintro ⟨a, ha, b, hb, e, he, ht⟩
    obtain ⟨-, -, rfl⟩ := lzBeginRun_eq_ok.1 ha
    exact ⟨b, e, ha, hb, he, ht⟩
  · rintro ⟨b, e, ha, hb, he, ht⟩
    exact ⟨_, ha, b, hb, e, he, ht⟩

/-! ### The dictionary along an encoding -/

/-- The initial dictionary meets the invariants (44_lzw.md R125; 10_state.md R33). -/
theorem dictOk_init {s t : State} {p : Nat} (hp : p ≤ palMax) (hd : t.dict = initDict p s.dict)
    (he : t.epoch = s.epoch) (hn : t.lzDsize.toNat = p + 2) : DictOk p t := by
  have hr := readDict_init hd he
  have hpm : palMax = 256 := rfl
  have lit : ∀ k, k < p → readDict t k = { kind := .lit, pre := 0, sym := BitVec.ofNat 8 k } := by
    intro k hk
    rw [hr, if_pos hk]
    rfl
  have clr : readDict t p = { kind := .clearCode, pre := 0, sym := 0 } := by
    rw [hr, if_neg (by omega), if_pos rfl]
    rfl
  have en : readDict t (p + 1) = { kind := .endCode, pre := 0, sym := 0 } := by
    rw [hr, if_neg (by omega), if_neg (by omega), if_pos rfl]
    rfl
  have seq : ∀ k q, k < p + 2 → seqOf t k = some q → k < p ∧ q = [BitVec.ofNat 8 k] := by
    intro k q hk h
    have h' : seqWithin t (4095 + 1) k = some q := h
    rcases Nat.lt_or_ge k p with hkp | hkp
    · simp only [seqWithin, lit k hkp, Option.some.injEq] at h'
      exact ⟨hkp, h'.symm⟩
    · rcases Nat.eq_or_lt_of_le hkp with rfl | hkp
      · simp [seqWithin, clr] at h'
      · obtain rfl : k = p + 1 := by omega
        simp [seqWithin, en] at h'
  refine ⟨by omega, by rw [hn]; simp only [dictCap]; omega, lit, clr, en, fun k h₁ h₂ => by omega, ?_⟩
  intro j k q hj hk h₁ h₂
  obtain ⟨hj', e₁⟩ := seq j q (by omega) h₁
  obtain ⟨hk', e₂⟩ := seq k q (by omega) h₂
  rw [e₁] at e₂
  have := congrArg (fun l : List Byte => (l[0]?.getD 0).toNat) e₂
  simp only [List.getElem?_cons_zero, Option.getD_some, BitVec.toNat_ofNat] at this
  omega

/-- Codes below the size keep their sequences when an entry is written at the size. -/
theorem DictOk.seqOf_of_append {p : Nat} {s t : State} (h : DictOk p s)
    (hr : ∀ d, d < s.lzDsize.toNat → readDict t d = readDict s d) (d : Nat) (hd : d < s.lzDsize.toNat) :
    seqOf t d = seqOf s d :=
  seqWithin_agree hr (fun d hd hs => by have := h.pre_lt hd hs; omega) _ _ hd

/-- An entry appended after a code that has a sequence, with a symbol that gives a new sequence, keeps the invariants
(44_lzw.md R127). -/
theorem DictOk.append {p c : Nat} {s t : State} {q : List Byte} {b : Byte} (h : DictOk p s)
    (hr : ∀ d, readDict t d =
      if d = s.lzDsize.toNat then { kind := .str, pre := BitVec.ofNat 12 c, sym := b } else readDict s d)
    (hn : t.lzDsize.toNat = s.lzDsize.toNat + 1) (hcap : s.lzDsize.toNat < dictCap) (hc : c < s.lzDsize.toNat)
    (hq : seqOf s c = some q) (hnew : ∀ d, d < s.lzDsize.toNat → seqOf s d ≠ some (q ++ [b])) :
    DictOk p t ∧ (∀ d, d < s.lzDsize.toNat → seqOf t d = seqOf s d) ∧
      seqOf t s.lzDsize.toNat = some (q ++ [b]) := by
  have hlow := h.sizeLow
  have hcap' : dictCap = 4096 := rfl
  have hpre : (BitVec.ofNat 12 c).toNat = c := by rw [BitVec.toNat_ofNat]; omega
  have hold : ∀ d, d < s.lzDsize.toNat → readDict t d = readDict s d := fun d hd => by
    rw [hr, if_neg (by omega)]
  have hseq := h.seqOf_of_append hold
  have hkind : (readDict s c).kind = .lit ∨ (readDict s c).kind = .str := by
    rcases h.kind_cases hc with h' | h' | h' | ⟨-, h'⟩
    · exact .inl (h.kind_lit h')
    · rw [h', h.seqOf_control.1] at hq; cases hq
    · rw [h', h.seqOf_control.2] at hq; cases hq
    · exact .inr h'
  have hlast : seqOf t s.lzDsize.toNat = some (q ++ [b]) := by
    obtain ⟨q', hq'⟩ := h.seqWithin_some c hc hkind
    have hqq : q' = q := by
      have := h.seqOf_eq hc hq' le_rfl
      rw [hq] at this
      exact (Option.some.inj this).symm
    subst hqq
    have hw : seqWithin t 4095 c = some q' := by
      rw [seqWithin_agree hold (fun d hd hs => by have := h.pre_lt hd hs; omega) _ _ hc]
      exact seqWithin_mono s hq' (by omega)
    have he : readDict t s.lzDsize.toNat = { kind := .str, pre := BitVec.ofNat 12 c, sym := b } := by
      rw [hr, if_pos rfl]
    show seqWithin t (4095 + 1) s.lzDsize.toNat = some (q' ++ [b])
    rw [seqWithin_str (by rw [he]), he, hpre, hw]
    rfl
  refine ⟨⟨by omega, by omega, fun k hk => ?_, ?_, ?_, fun k h₁ h₂ => ?_, fun j k r hj hk h₁ h₂ => ?_⟩, hseq, hlast⟩
  · rw [hold k (by omega), h.literals k hk]
  · rw [hold p (by omega), h.clear]
  · rw [hold (p + 1) (by omega), h.endc]
  · by_cases hk : k = s.lzDsize.toNat
    · rw [hr, if_pos hk]
      simp only [hpre]
      rw [hold c hc]
      exact ⟨trivial, by omega, hkind⟩
    · rw [hold k (by omega)]
      obtain ⟨a, b, d⟩ := h.strings k h₁ (by omega)
      rw [hold _ (by omega)]
      exact ⟨a, b, d⟩
  · by_cases hj' : j = s.lzDsize.toNat <;> by_cases hk' : k = s.lzDsize.toNat
    · omega
    · rw [hj', hlast] at h₁
      rw [hseq k (by omega), ← h₁] at h₂
      exact absurd h₂ (hnew k (by omega))
    · rw [hk', hlast] at h₂
      rw [hseq j (by omega), ← h₂] at h₁
      exact absurd h₁ (hnew j (by omega))
    · rw [hseq j (by omega)] at h₁
      rw [hseq k (by omega)] at h₂
      exact h.distinct j k r (by omega) (by omega) h₁ h₂

/-- What a match answers: a valid code, the length of its sequence, the symbols it stands for; and no valid code stands
for one symbol more (44_lzw.md R126, R127). -/
theorem lzMatch_eq_some {s : State} {pos c len : Nat} (h : lzMatch s pos = some (c, len)) :
    c < s.lzDsize.toNat ∧ 0 < len ∧ len ≤ s.lzLen.toNat - pos ∧ seqOf s c = some (symbolsAt s pos len) ∧
      (pos + len < s.lzLen.toNat →
        ∀ d, d < s.lzDsize.toNat → seqOf s d ≠ some (symbolsAt s pos len ++ [readSym s (pos + len)])) := by
  obtain ⟨-, h₂⟩ := longestBelow_spec s pos s.lzDsize.toNat
  obtain ⟨hc, hcand, hmax⟩ := h₂ c len h
  obtain ⟨hl, hq⟩ := candidateLength_eq_some.1 hcand
  refine ⟨hc, candidateLength_pos hcand, hl, hq, fun hlt d hd hq' => ?_⟩
  rw [← symbolsAt_succ] at hq'
  have := hmax d (len + 1) hd (candidateLength_eq_some.2 ⟨by omega, hq'⟩)
  omega

/-! ### One step of an encoding in numbers -/

/-- The invariants depend on DICT, its size and the epoch only. -/
theorem DictOk.congr {p : Nat} {s t : State} (h : DictOk p s) (hd : t.dict = s.dict) (he : t.epoch = s.epoch)
    (hn : t.lzDsize = s.lzDsize) : DictOk p t := by
  have hr : ∀ d, readDict t d = readDict s d := readDict_same hd he
  obtain ⟨a, b, c, d, e, f, g⟩ := h
  refine ⟨by rw [hn]; exact a, by rw [hn]; exact b, fun k hk => by rw [hr]; exact c k hk, by rw [hr]; exact d,
    by rw [hr]; exact e, fun k h₁ h₂ => ?_, fun j k q h₁ h₂ => ?_⟩
  · simp only [hr]
    exact f k h₁ (by rw [← hn]; exact h₂)
  · rw [seqOf_congr hr, seqOf_congr hr]
    exact g j k q (by rw [← hn]; exact h₁) (by rw [← hn]; exact h₂)

/-- The size and the width `lz_init` sets (44_lzw.md R125). -/
theorem lzInit_sizes (s : State) (h : LzConfigOk s) (b : Word) :
    (lzInit { s with pkBits := b }).lzDsize.toNat = s.lzPalsize.toNat + 2 ∧
      (lzInit { s with pkBits := b }).lzW.toNat = initialWidth s.lzPalsize.toNat := by
  obtain ⟨h₁, h₂, h₃, h₄, -⟩ := h
  have := initialWidth_legal _ h₁ h₂
  have hp : palMax = 256 := rfl
  have e : lzW0 { s with pkBits := b } = initialWidth s.lzPalsize.toNat := rfl
  simp only [lzInit, BitVec.toNat_ofNat, e]
  omega

theorem clog2_succ_of_lt {d w : Nat} (h : clog2 d ≤ w) (hlt : 2 ^ w < d + 1) : clog2 (d + 1) = w + 1 := by
  have h₁ := (clog2_le d w).1 h
  have h₃ := (lt_clog2 (d + 1) w).2 (by omega)
  have h₄ := (clog2_le (d + 1) (w + 1)).2 (by rw [Nat.pow_succ]; have := Nat.one_le_two_pow (n := w); omega)
  omega

/-- The width law across an append: the width after it is that of the new size, one more than before exactly when the
new size first exceeds 2^LZ_W (44_lzw.md R130, R132). -/
theorem grownWidth_toNat {p m : Nat} {d : BitVec 13} {w : BitVec 4} (hm : m ≤ 12)
    (hw : w.toNat = max (initialWidth p) (clog2 d.toNat)) (hd : d.toNat < 2 ^ m) :
    (d + 1).toNat = d.toNat + 1 ∧
      (grownWidth w (d + 1)).toNat = max (initialWidth p) (clog2 (d.toNat + 1)) ∧
      (grownWidth w (d + 1)).toNat = if 2 ^ w.toNat < d.toNat + 1 then w.toNat + 1 else w.toNat := by
  have h12 : 2 ^ m ≤ 2 ^ 12 := Nat.pow_le_pow_right (by decide) hm
  have e₁ : (d + 1).toNat = d.toNat + 1 := by
    rw [BitVec.toNat_add]; simp; omega
  have hcm : clog2 d.toNat ≤ m := (clog2_le _ _).2 hd.le
  have hc₁ : clog2 (d.toNat + 1) ≤ m := (clog2_le _ _).2 hd
  refine ⟨e₁, ?_, ?_⟩
  all_goals unfold grownWidth; rw [e₁]
  · split_ifs with h
    · have := clog2_succ_of_lt (d := d.toNat) (w := w.toNat) (by omega) h
      rw [BitVec.toNat_add]; simp; omega
    · have h₁ := (clog2_le (d.toNat + 1) w.toNat).2 (by omega)
      have h₂ : clog2 d.toNat ≤ clog2 (d.toNat + 1) :=
        (clog2_le _ _).2 (by have := le_two_pow_clog2 (d.toNat + 1); omega)
      omega
  · split_ifs with h
    · have := clog2_succ_of_lt (d := d.toNat) (w := w.toNat) (by omega) h
      rw [BitVec.toNat_add]; simp; omega
    · rfl

/-- What a successful LZ_STEP keeps, in any state. -/
theorem stepped_fixed (s : State) (c len : Nat) :
    (stepped c len s).params = s.params ∧ (stepped c len s).epoch = s.epoch ∧
      (stepped c len s).lzPalsize = s.lzPalsize ∧ (stepped c len s).lzMaxbits = s.lzMaxbits ∧
      (stepped c len s).lzLen = s.lzLen ∧ (stepped c len s).phase = s.phase ∧
      (stepped c len s).symbuf = s.symbuf ∧ (stepped c len s).obuf = s.obuf ∧
      (stepped c len s).pkBits = (emitted c s).pkBits ∧ (stepped c len s).pbuf = (emitted c s).pbuf := by
  rcases lzAppend_cases c { emitted c s with lzPos := BitVec.ofNat 32 (s.lzPos.toNat + len) } with
    ⟨-, e⟩ | ⟨-, e⟩ <;> (unfold stepped; rw [e]; simp)

end Sys2Proof.Machine
end

