-- ==== Sys2Proof/Laws/Frames.lean ====
section
/-! SUPPORT. What the runs of the commands leave alone: for each run, the fields that may differ between the state it
is given and the state it ends in, whether it ends well or raises a fault. -/

namespace Sys2Proof.Machine

/-- The state a run ends in. -/
def Run.state : Run → State
  | .ok s => s
  | .raise _ _ s => s

@[simp] theorem Run.state_ok (s : State) : (Run.ok s).state = s := rfl

@[simp] theorem Run.state_raise (f : FaultCode) (info : Word) (s : State) : (Run.raise f info s).state = s := rfl

/-- A sequence ends in the state of its second piece, or where its first piece raised a fault. -/
theorem Run.state_andThen (r : Run) (k : State → Run) :
    (r.andThen k).state = r.state ∨ (r.andThen k).state = (k r.state).state := by
  cases r with
  | ok s => exact .inr rfl
  | raise f info s => exact .inl rfl

/-- Completion changes the end of a run by `finish` or by fault entry. -/
theorem conclude_state {r : Run} {t : State} (h : conclude r = .next t) :
    t = finish r.state ∨ ∃ f info, t = faultEntry f info r.state := by
  rcases conclude_cases h with ⟨s, rfl, rfl⟩ | ⟨f, info, s, rfl, rfl⟩
  · exact .inl rfl
  · exact .inr ⟨f, info, rfl⟩

/-- `t` differs from `s` at most in what the encoder, the packer and the framer write: LZ_PHASE, the packed stream, the
framed output, the LZW working registers and DICT. -/
def EncoderFrame (s t : State) : Prop :=
  t = { s with
    phase := t.phase, pkBits := t.pkBits, pbuf := t.pbuf, obLen := t.obLen, obuf := t.obuf, lzPos := t.lzPos
    lzW := t.lzW, lzDsize := t.lzDsize, lzLast := t.lzLast, dict := t.dict }

theorem EncoderFrame.refl (s : State) : EncoderFrame s s := rfl

theorem EncoderFrame.trans {s t u : State} (h₁ : EncoderFrame s t) (h₂ : EncoderFrame t u) : EncoderFrame s u := by
  unfold EncoderFrame at h₁ h₂ ⊢
  rw [h₁] at h₂
  exact h₂

theorem EncoderFrame.andThen {s : State} {r : Run} {k : State → Run} (hr : EncoderFrame s r.state)
    (hk : ∀ u, EncoderFrame u (k u).state) : EncoderFrame s (r.andThen k).state := by
  rcases Run.state_andThen r k with h | h
  · rw [h]; exact hr
  · rw [h]; exact hr.trans (hk _)

theorem pkPush_frame (v n : Nat) (s : State) :
    (pkPush v n s).state = { s with
      pkBits := (pkPush v n s).state.pkBits, pbuf := (pkPush v n s).state.pbuf } := by
  rcases pkPush_cases v n s with ⟨-, e⟩ | ⟨-, e⟩ <;> rw [e] <;> rfl

theorem pkRstRun_frame (s : State) : (pkRstRun s).state = { s with pkBits := (pkRstRun s).state.pkBits } := by
  unfold pkRstRun
  split <;> rfl

theorem pkPushRun_frame (n : Nat) (s : State) :
    (pkPushRun n s).state = { s with
      pkBits := (pkPushRun n s).state.pkBits, pbuf := (pkPushRun n s).state.pbuf } := by
  unfold pkPushRun
  split
  · rfl
  · split
    · rfl
    · exact pkPush_frame _ _ _

theorem upPopRun_frame (n : Nat) (s : State) :
    (upPopRun n s).state = { s with
      upData := (upPopRun n s).state.upData, upPos := (upPopRun n s).state.upPos } := by
  unfold upPopRun
  split
  · rfl
  · split <;> rfl

theorem upAlignRun_frame (s : State) : (upAlignRun s).state = { s with upPos := (upAlignRun s).state.upPos } := by
  unfold upAlignRun
  split
  · rfl
  · split <;> rfl

theorem frRunRun_frame (s : State) :
    (frRunRun s).state = { s with obLen := (frRunRun s).state.obLen, obuf := (frRunRun s).state.obuf } := by
  unfold frRunRun
  split <;> rfl

theorem lzEmit_frame (c : Nat) (s : State) :
    (lzEmit c s).state = { s with
      pkBits := (lzEmit c s).state.pkBits, pbuf := (lzEmit c s).state.pbuf, lzLast := (lzEmit c s).state.lzLast } := by
  rcases lzEmit_cases c s with ⟨-, e⟩ | ⟨-, e⟩ <;> rw [e] <;> rfl

theorem lzAppend_frame (c : Nat) (s : State) :
    lzAppend c s = { s with
      lzW := (lzAppend c s).lzW, lzDsize := (lzAppend c s).lzDsize, dict := (lzAppend c s).dict } := by
  rcases lzAppend_cases c s with ⟨-, e⟩ | ⟨-, e⟩ <;> rw [e]

theorem lzCheck_state (s : State) : (lzCheck s).state = s := by
  cases h : lzCheck s with
  | ok t => exact (lzCheck_eq_ok.1 h).2
  | raise f info t => exact lzCheck_eq_raise h

/-- LZ_BEGIN leaves the framed output alone (44_lzw.md R129). -/
theorem lzBeginRun_frame (s : State) :
    (lzBeginRun s).state = { s with
      phase := (lzBeginRun s).state.phase, pkBits := (lzBeginRun s).state.pkBits
      pbuf := (lzBeginRun s).state.pbuf, lzPos := (lzBeginRun s).state.lzPos, lzW := (lzBeginRun s).state.lzW
      lzDsize := (lzBeginRun s).state.lzDsize, lzLast := (lzBeginRun s).state.lzLast
      dict := (lzBeginRun s).state.dict } := by
  unfold lzBeginRun
  cases h : lzCheck s with
  | raise f info t =>
    obtain rfl := lzCheck_eq_raise h
    rfl
  | ok t =>
    obtain ⟨-, rfl⟩ := lzCheck_eq_ok.1 h
    rcases lzEmit_cases t.lzPalsize.toNat (lzInit { t with pkBits := 0 }) with ⟨-, e⟩ | ⟨-, e⟩ <;>
      (simp only [Run.andThen_ok, e]; rfl)

theorem stepped_frame (c len : Nat) (s : State) :
    stepped c len s = { s with
      pkBits := (stepped c len s).pkBits, pbuf := (stepped c len s).pbuf, lzPos := (stepped c len s).lzPos
      lzW := (stepped c len s).lzW, lzDsize := (stepped c len s).lzDsize, lzLast := (stepped c len s).lzLast
      dict := (stepped c len s).dict } := by
  rcases lzAppend_cases c { emitted c s with lzPos := BitVec.ofNat 32 (s.lzPos.toNat + len) } with ⟨-, e⟩ | ⟨-, e⟩ <;>
    (unfold stepped; rw [e])

/-- LZ_STEP leaves LZ_PHASE and the framed output alone (44_lzw.md R130). -/
theorem lzStepRun_frame (s : State) :
    (lzStepRun s).state = { s with
      pkBits := (lzStepRun s).state.pkBits, pbuf := (lzStepRun s).state.pbuf, lzPos := (lzStepRun s).state.lzPos
      lzW := (lzStepRun s).state.lzW, lzDsize := (lzStepRun s).state.lzDsize
      lzLast := (lzStepRun s).state.lzLast, dict := (lzStepRun s).state.dict } := by
  cases h : lzStepRun s with
  | ok t =>
    obtain ⟨-, -, -, c, len, -, rfl⟩ := lzStepRun_eq_ok.1 h
    exact stepped_frame c len s
  | raise f info t =>
    obtain rfl := lzStepRun_eq_raise h
    rfl

theorem lzEndRun_frame (s : State) :
    (lzEndRun s).state = { s with
      phase := (lzEndRun s).state.phase, pkBits := (lzEndRun s).state.pkBits, pbuf := (lzEndRun s).state.pbuf
      lzLast := (lzEndRun s).state.lzLast } := by
  cases h : lzEndRun s with
  | ok t =>
    obtain ⟨-, -, -, rfl⟩ := lzEndRun_eq_ok.1 h
    rfl
  | raise f info t =>
    obtain rfl := lzEndRun_eq_raise h
    rfl

theorem lzSteps_frame (fuel : Nat) (s : State) : EncoderFrame s (lzSteps fuel s).state := by
  induction fuel generalizing s with
  | zero => exact .refl s
  | succ fuel ih =>
    unfold lzSteps
    split
    · refine EncoderFrame.andThen ?_ ih
      have := lzStepRun_frame s
      unfold EncoderFrame
      rw [this]
    · exact .refl s

/-- LZ_ENC leaves alone what the encoder, the packer and the framer do not write (46_lzw_composite.md R150). -/
theorem lzEncRun_frame (s : State) : EncoderFrame s (lzEncRun s).state := by
  unfold lzEncRun
  refine EncoderFrame.andThen ?_ fun a => EncoderFrame.andThen (lzSteps_frame _ a) fun b =>
    EncoderFrame.andThen ?_ fun e => ?_
  · unfold EncoderFrame; rw [lzBeginRun_frame s]
  · unfold EncoderFrame; rw [lzEndRun_frame b]
  · unfold EncoderFrame; rw [frRunRun_frame e]

/-- LZ_RAW leaves alone everything but the framed output (46_lzw_composite.md R151). -/
theorem lzRawRun_frame (s : State) :
    (lzRawRun s).state = { s with obLen := (lzRawRun s).state.obLen, obuf := (lzRawRun s).state.obuf } := by
  unfold lzRawRun rawFinish
  dsimp only
  repeat' split
  all_goals rfl

theorem ctLookRun_frame (s : State) :
    (ctLookRun s).state = { s with color := (ctLookRun s).state.color, colorT := (ctLookRun s).state.colorT } := by
  unfold ctLookRun
  dsimp only
  split
  · rfl
  · split <;> rfl

theorem pzFoldRun_frame (s : State) : (pzFoldRun s).state = { s with tuple := (pzFoldRun s).state.tuple } := by
  unfold pzFoldRun
  split <;> rfl

theorem pzUnfoldRun_frame (s : State) : (pzUnfoldRun s).state = { s with color := (pzUnfoldRun s).state.color } := by
  unfold pzUnfoldRun
  split <;> rfl

/-! ### Every command at once -/

/-- The run of each command but RST; a command ALZ does not have is an illegal word (30_encoding.md R75). -/
def runOf (i : Instr) (s : State) : Run :=
  match i with
  | .nop => .ok s
  | .rst => .ok s
  | .pkRst => pkRstRun s
  | .pkPush n => if countLegal n then pkPushRun n.toNat s else .raise .cmd s.cmd s
  | .upPop n => if countLegal n then upPopRun n.toNat s else .raise .cmd s.cmd s
  | .upAlign => upAlignRun s
  | .frRun => frRunRun s
  | .lzBegin => lzBeginRun s
  | .lzStep => lzStepRun s
  | .lzEnd => lzEndRun s
  | .lzEnc => lzEncRun s
  | .lzRaw => lzRawRun s
  | .ctLook => if s.params.hasCtm then ctLookRun s else .raise .cmd s.cmd s
  | .pzFold => if s.params.hasPlut then pzFoldRun s else .raise .cmd s.cmd s
  | .pzUnfold => if s.params.hasPlut then pzUnfoldRun s else .raise .cmd s.cmd s

/-- Every command but RST is the completion of its run. -/
theorem exec_eq_conclude (i : Instr) (s : State) (h : i ≠ .rst) : exec i s = conclude (runOf i s) := by
  cases i <;> first
    | rfl
    | exact absurd rfl h
    | (simp only [exec, runOf, execPkPush, execUpPop, execCtLook, execPzFold, execPzUnfold, rejectWord]
       split <;> rfl)

/-- What the run of any command can change. -/
theorem runOf_frame (i : Instr) (s : State) :
    (runOf i s).state = { s with
      phase := (runOf i s).state.phase, pkBits := (runOf i s).state.pkBits, pbuf := (runOf i s).state.pbuf
      obLen := (runOf i s).state.obLen, obuf := (runOf i s).state.obuf, lzPos := (runOf i s).state.lzPos
      lzW := (runOf i s).state.lzW, lzDsize := (runOf i s).state.lzDsize, lzLast := (runOf i s).state.lzLast
      dict := (runOf i s).state.dict, upData := (runOf i s).state.upData, upPos := (runOf i s).state.upPos
      color := (runOf i s).state.color, colorT := (runOf i s).state.colorT, tuple := (runOf i s).state.tuple } := by
  cases i <;> simp only [runOf]
  · rfl
  · rfl
  · rw [pkRstRun_frame]
  · split
    · rw [pkPushRun_frame]
    · rfl
  · split
    · rw [upPopRun_frame]
    · rfl
  · rw [upAlignRun_frame]
  · rw [frRunRun_frame]
  · rw [lzBeginRun_frame]
  · rw [lzStepRun_frame]
  · rw [lzEndRun_frame]
  · have := lzEncRun_frame s
    unfold EncoderFrame at this
    rw [this]
  · rw [lzRawRun_frame]
  · split
    · rw [ctLookRun_frame]
    · rfl
  · split
    · rw [pzFoldRun_frame]
    · rfl
  · split
    · rw [pzUnfoldRun_frame]
    · rfl

end Sys2Proof.Machine
end

