-- ==== Sys2Proof/Laws/PerInstr.lean ====
section
/-! SUPPORT. A family of lemmas about every command as syntax: its word carries its opcode in [7:0] and its count in
[13:8], and every other bit is 0 (30_encoding.md R70). -/

namespace Sys2Proof.Laws.WordFields

/-- The three fields of a command's word (30_encoding.md R70). -/
def Statement (i : Instr) : Prop :=
  opField (encode i) = i.opcode ∧ countField (encode i) = i.countBits ∧ (encode i).extractLsb' 14 18 = 0

/-- The fields of a word OP + 256 * N. -/
theorem fields_of_word (n : BitVec 6) (op : BitVec 8) :
    opField (BitVec.ofNat 32 (op.toNat + 2 ^ 8 * n.toNat)) = op ∧
      countField (BitVec.ofNat 32 (op.toNat + 2 ^ 8 * n.toNat)) = n ∧
        (BitVec.ofNat 32 (op.toNat + 2 ^ 8 * n.toNat)).extractLsb' 14 18 = 0 := by
  have hop := op.isLt
  have hn := n.isLt
  refine ⟨?_, ?_, ?_⟩ <;> apply BitVec.eq_of_toNat_eq <;>
    simp [opField, countField, Nat.shiftRight_eq_div_pow] <;> omega

theorem nop : Statement .nop := fields_of_word _ _
theorem rst : Statement .rst := fields_of_word _ _
theorem pkRst : Statement .pkRst := fields_of_word _ _
theorem pkPush (n : BitVec 6) : Statement (.pkPush n) := fields_of_word _ _
theorem upPop (n : BitVec 6) : Statement (.upPop n) := fields_of_word _ _
theorem upAlign : Statement .upAlign := fields_of_word _ _
theorem frRun : Statement .frRun := fields_of_word _ _
theorem lzBegin : Statement .lzBegin := fields_of_word _ _
theorem lzStep : Statement .lzStep := fields_of_word _ _
theorem lzEnd : Statement .lzEnd := fields_of_word _ _
theorem lzEnc : Statement .lzEnc := fields_of_word _ _
theorem lzRaw : Statement .lzRaw := fields_of_word _ _
theorem ctLook : Statement .ctLook := fields_of_word _ _
theorem pzFold : Statement .pzFold := fields_of_word _ _
theorem pzUnfold : Statement .pzUnfold := fields_of_word _ _

end Sys2Proof.Laws.WordFields
end

