-- ==== Sys2Proof/Laws/Raw.lean ====
section
/-! SUPPORT. What the loop of LZ_RAW can do (46_lzw_composite.md R151): it writes every chunk, or ends at the first
symbol that is not below the palette size. Symbol `i` stands at offset `i + 2 * (i div 126) + 2`, the header of chunk
`c` at `128 * c`. -/

namespace Sys2Proof.Machine

/-- OBUF after the header that may be due before symbol `i`. -/
abbrev rawHeader (p left i : Nat) (l : List Host.Cell) : List Host.Cell :=
  if i % 126 = 0 then
    Memory.writeMany l (i + 2 * ceilDiv i 126) [BitVec.ofNat 8 (min 126 (left + 1) + 1), BitVec.ofNat 8 p]
  else l

theorem rawLoop_succ (s : State) (p left i : Nat) (l : List Host.Cell) :
    rawLoop s p (left + 1) i (i + 2 * ceilDiv i 126) l =
      if p ≤ (readSym s i).toNat then
        { obuf := rawHeader p left i l, off := i + 2 * (i / 126) + 2, bad := some i }
      else
        rawLoop s p left (i + 1) (i + 1 + 2 * ceilDiv (i + 1) 126)
          (Memory.write (rawHeader p left i l) (i + 2 * (i / 126) + 2) (readSym s i)) := by
  have hc : rawChunk = 126 := rfl
  have ho : (if i % rawChunk = 0 then i + 2 * ceilDiv i 126 + 2 else i + 2 * ceilDiv i 126) =
      i + 2 * (i / 126) + 2 := by
    rw [hc]
    unfold ceilDiv
    split <;> omega
  have ho' : i + 2 * (i / 126) + 2 + 1 = i + 1 + 2 * ceilDiv (i + 1) 126 := by
    unfold ceilDiv
    omega
  simp only [rawLoop, ho, ho']
  rfl

/-- The contents after the header and symbol `i`: the header's two bytes where one was due, the symbol, and nothing
else. -/
theorem lookup_rawTurn (s : State) (p left i x : Nat) (l : List Host.Cell) :
    Memory.lookup (Memory.write (rawHeader p left i l) (i + 2 * (i / 126) + 2) (readSym s i)) x =
      if x = i + 2 * (i / 126) + 2 then some (readSym s i)
      else if i % 126 = 0 ∧ x = 128 * (i / 126) then some (BitVec.ofNat 8 (min 126 (left + 1) + 1))
      else if i % 126 = 0 ∧ x = 128 * (i / 126) + 1 then some (BitVec.ofNat 8 p)
      else Memory.lookup l x := by
  rw [Memory.lookup_write]
  by_cases h : x = i + 2 * (i / 126) + 2
  · rw [if_pos h, if_pos h]
  · rw [if_neg h, if_neg h]
    unfold rawHeader
    by_cases hi : i % 126 = 0
    · have hb : i + 2 * ceilDiv i 126 = 128 * (i / 126) := by unfold ceilDiv; omega
      rw [if_pos hi, hb]
      simp only [Memory.writeMany, Memory.lookup_write, hi, true_and]
      by_cases h₁ : x = 128 * (i / 126)
      · rw [if_neg (by omega), if_pos h₁, if_pos h₁]
      · by_cases h₂ : x = 128 * (i / 126) + 1
        · rw [if_pos h₂, if_neg h₁, if_pos h₂]
        · rw [if_neg h₂, if_neg h₁, if_neg h₁, if_neg h₂]
    · rw [if_neg hi, if_neg (fun h' => hi h'.1), if_neg (fun h' => hi h'.1)]

/-- The loop over symbols that are all below the palette size. -/
theorem rawLoop_good (s : State) (p left i : Nat) (l : List Host.Cell)
    (h : ∀ k, i ≤ k → k < i + left → (readSym s k).toNat < p) :
    let r := rawLoop s p left i (i + 2 * ceilDiv i 126) l
    r.bad = none ∧ r.off = i + left + 2 * ceilDiv (i + left) 126 ∧
      (∀ j, i ≤ j → j < i + left → Memory.lookup r.obuf (j + 2 * (j / 126) + 2) = some (readSym s j)) ∧
      (∀ c, i ≤ 126 * c → 126 * c < i + left →
        Memory.lookup r.obuf (128 * c) = some (BitVec.ofNat 8 (min 126 (i + left - 126 * c) + 1)) ∧
          Memory.lookup r.obuf (128 * c + 1) = some (BitVec.ofNat 8 p)) ∧
      ∀ x, x < i + 2 * ceilDiv i 126 ∨ r.off ≤ x → Memory.lookup r.obuf x = Memory.lookup l x := by
  induction left generalizing i l with
  | zero =>
    refine ⟨rfl, rfl, fun j h₁ h₂ => by omega, fun c h₁ h₂ => by omega, fun x _ => rfl⟩
  | succ left ih =>
    have hi := h i le_rfl (by omega)
    intro r
    have hr : r = rawLoop s p left (i + 1) (i + 1 + 2 * ceilDiv (i + 1) 126)
        (Memory.write (rawHeader p left i l) (i + 2 * (i / 126) + 2) (readSym s i)) := by
      show rawLoop _ _ _ _ _ _ = _
      rw [rawLoop_succ, if_neg (by omega)]
    obtain ⟨h₁, h₂, h₃, h₄, h₅⟩ := ih (i + 1)
      (Memory.write (rawHeader p left i l) (i + 2 * (i / 126) + 2) (readSym s i))
      (fun k hk hk' => h k (by omega) (by omega))
    rw [← hr] at h₁ h₂ h₃ h₄ h₅
    have he : i + 1 + left = i + (left + 1) := by omega
    rw [he] at h₂ h₃ h₄
    refine ⟨h₁, h₂, fun j hj hj' => ?_, fun c hc hc' => ?_, fun x hx => ?_⟩
    · rcases Nat.eq_or_lt_of_le hj with rfl | hlt
      · rw [h₅ _ (.inl (by unfold ceilDiv; omega)), lookup_rawTurn, if_pos rfl]
      · exact h₃ j hlt hj'
    · rcases Nat.eq_or_lt_of_le hc with hic | hlt
      · subst hic
        have hd : 126 * c / 126 = c := by omega
        have hm : 126 * c % 126 = 0 := by omega
        constructor
        · rw [h₅ _ (.inl (by unfold ceilDiv; omega)), lookup_rawTurn, if_neg (by omega), if_pos ⟨hm, by omega⟩]
          congr 4
          omega
        · rw [h₅ _ (.inl (by unfold ceilDiv; omega)), lookup_rawTurn, if_neg (by omega), if_neg (by omega),
            if_pos ⟨hm, by omega⟩]
      · exact h₄ c hlt hc'
    · have hout : x < i + 2 * ceilDiv i 126 ∨ i + 1 + 2 * ceilDiv (i + 1) 126 ≤ x := by
        rcases hx with hx | hx
        · exact .inl hx
        · rw [h₂] at hx
          unfold ceilDiv at hx ⊢
          omega
      rw [h₅ x (by rcases hx with hx | hx
                   · exact .inl (by unfold ceilDiv at hx ⊢; omega)
                   · exact .inr hx), lookup_rawTurn]
      unfold ceilDiv at hout
      rw [if_neg (by omega), if_neg (by omega), if_neg (by omega)]

/-- The loop over symbols of which `k` is the first that is not below the palette size. -/
theorem rawLoop_bad (s : State) (p left i k : Nat) (l : List Host.Cell) (hk : i ≤ k) (hk' : k < i + left)
    (h : ∀ j, i ≤ j → j < k → (readSym s j).toNat < p) (hbad : p ≤ (readSym s k).toNat) :
    let r := rawLoop s p left i (i + 2 * ceilDiv i 126) l
    r.bad = some k ∧
      ∀ x, x < i + 2 * ceilDiv i 126 ∨ k + 2 * (k / 126) + 2 ≤ x → Memory.lookup r.obuf x = Memory.lookup l x := by
  induction left generalizing i l with
  | zero => omega
  | succ left ih =>
    intro r
    rcases Nat.eq_or_lt_of_le hk with rfl | hlt
    · have hr : r = { obuf := rawHeader p left i l, off := i + 2 * (i / 126) + 2, bad := some i } := by
        show rawLoop _ _ _ _ _ _ = _
        rw [rawLoop_succ, if_pos hbad]
      rw [hr]
      refine ⟨rfl, fun x hx => ?_⟩
      show Memory.lookup (rawHeader p left i l) x = _
      unfold rawHeader
      split
      · next hi =>
        unfold ceilDiv at hx ⊢
        simp only [Memory.writeMany, Memory.lookup_write]
        rw [if_neg (by omega), if_neg (by omega)]
      · rfl
    · have hr : r = rawLoop s p left (i + 1) (i + 1 + 2 * ceilDiv (i + 1) 126)
          (Memory.write (rawHeader p left i l) (i + 2 * (i / 126) + 2) (readSym s i)) := by
        show rawLoop _ _ _ _ _ _ = _
        rw [rawLoop_succ, if_neg (by have := h i le_rfl hlt; omega)]
      obtain ⟨h₁, h₂⟩ := ih (i + 1)
        (Memory.write (rawHeader p left i l) (i + 2 * (i / 126) + 2) (readSym s i)) hlt (by omega)
        (fun j hj hj' => h j (by omega) hj')
      rw [← hr] at h₁ h₂
      refine ⟨h₁, fun x hx => ?_⟩
      have hout : x < i + 2 * ceilDiv i 126 ∨ i + 1 + 2 * ceilDiv (i + 1) 126 ≤ x := by
        unfold ceilDiv at hx ⊢
        omega
      rw [h₂ x (by unfold ceilDiv at hx ⊢; omega), lookup_rawTurn]
      unfold ceilDiv at hout
      rw [if_neg (by omega), if_neg (by omega), if_neg (by omega)]

/-- Where the loop ends without a bad symbol, every symbol was below the palette size. -/
theorem rawLoop_none {s : State} {p left i o : Nat} {l : List Host.Cell} (h : (rawLoop s p left i o l).bad = none) :
    ∀ k, i ≤ k → k < i + left → (readSym s k).toNat < p := by
  induction left generalizing i o l with
  | zero => intro k h₁ h₂; omega
  | succ left ih =>
    simp only [rawLoop] at h
    split_ifs at h with h₁
    all_goals
      intro k hk hk'
      rcases Nat.eq_or_lt_of_le hk with rfl | hlt
      · omega
      · exact ih h k hlt (by omega)

/-- The canonical form of OBUF is kept by the loop. -/
theorem rawLoop_wf (s : State) (p left i o : Nat) (l : List Host.Cell) (h : Memory.wf l = true) :
    Memory.wf (rawLoop s p left i o l).obuf = true := by
  induction left generalizing i o l with
  | zero => exact h
  | succ left ih =>
    simp only [rawLoop]
    split_ifs
    · exact Memory.wf_writeMany _ _ _ h
    · exact h
    · exact ih _ _ _ (Memory.wf_write _ _ _ (Memory.wf_writeMany _ _ _ h))
    · exact ih _ _ _ (Memory.wf_write _ _ _ h)

end Sys2Proof.Machine
end

