-- ==== Sys2Proof/Laws/Step.lean ====
section
/-! SUPPORT. Everything one step can do (00_scope.md R10; log 1). -/

namespace Sys2Proof.Machine

/-- Everything the engine's turn can do: wait, or complete the command CMD decodes to, or fault on an illegal word. -/
theorem engineTurn_cases {s t : State} (h : engineTurn s = .next t) :
    (s.busy = false ∧ t = s) ∨
      (s.busy = true ∧
        ((∃ i, decode s.cmd = .instr i ∧ exec i s = .next t) ∨
          ((∀ i, decode s.cmd ≠ .instr i) ∧ t = faultEntry .cmd s.cmd s))) := by
  unfold engineTurn at h
  split_ifs at h with hb
  · refine .inr ⟨hb, ?_⟩
    unfold engineComplete at h
    split at h
    · next i hi => exact .inl ⟨i, hi, h⟩
    · next w hi =>
      refine .inr ⟨fun i => ?_, ?_⟩
      · simp only [fetchWord] at hi
        rw [hi]
        simp
      · simp only [rejectWord, conclude_raise, Host.Outcome.next.injEq] at h
        exact h.symm
  · simp only [Host.Outcome.next.injEq] at h
    exact .inl ⟨by simpa using hb, h.symm⟩

/-- Everything a step can do: nothing but use up a move and set the port's response (a wait, a read, a refused write),
a successful write, a hardware reset, or a completion. -/
theorem step_cases {s t : State} (h : step s = .next t) :
    t = { s with inputs := t.inputs, port := t.port } ∨
      (∃ rest addr size v u, s.inputs = .write addr size v :: rest ∧
        hostWrite { s with inputs := rest } addr.toNat (portBytes size) v = some u ∧
        t = { u with port := .okWrite }) ∨
      (∃ rest, s.inputs = .hardwareReset :: rest ∧ t = hardwareReset { s with inputs := rest }) ∨
      ∃ rest, (s.inputs = [] ∧ rest = [] ∨ s.inputs = .engine :: rest) ∧ s.busy = true ∧
        ((∃ i, decode s.cmd = .instr i ∧ exec i { s with inputs := rest } = .next t) ∨
          ((∀ i, decode s.cmd ≠ .instr i) ∧ t = faultEntry .cmd s.cmd { s with inputs := rest })) := by
  unfold step at h
  split at h
  · next hi =>
    have e : s = { s with inputs := [] } := by rw [← hi]
    rw [e] at h
    rcases engineTurn_cases h with ⟨-, rfl⟩ | h'
    · left; rw [← hi]
    · exact .inr (.inr (.inr ⟨[], .inl ⟨hi, rfl⟩, h'⟩))
  · next rest hi =>
    rcases engineTurn_cases h with ⟨-, rfl⟩ | h'
    · exact .inl rfl
    · exact .inr (.inr (.inr ⟨rest, .inr hi, h'⟩))
  · next addr size rest hi =>
    simp only [Host.Outcome.next.injEq] at h
    subst h
    left
    unfold portRead
    split <;> rfl
  · next addr size v rest hi =>
    simp only [Host.Outcome.next.injEq] at h
    subst h
    unfold portWrite
    split
    · next u hu => exact .inr (.inl ⟨rest, addr, size, v, u, hi, hu, rfl⟩)
    · exact .inl rfl
  · next rest hi =>
    simp only [Host.Outcome.next.injEq] at h
    exact .inr (.inr (.inl ⟨rest, hi, h.symm⟩))

end Sys2Proof.Machine
end

