-- ==== Sys2Proof/Tests/Slice0.lean ====
section
/-! SUPPORT. Tests of one step each, with expected values from 95_test_vectors.md (V1 to V29), and for every obligation
with hypotheses a witness: a concrete state and operands that meet them all, for each clause at a boundary value. -/

namespace Sys2Proof.Tests

open Sys2Proof.Machine

-- One theorem at a time: side by side the many `decide`s ask for more threads than the memory limit leaves room for.
set_option Elab.async false

/-! ### Helpers -/

/-- The next state an outcome holds. -/
def after : Result → Option State
  | .next t => some t
  | .fault _ => none
  | .refused _ => none

theorem eq_next_of_after {r : Result} {t : State} (h : after r = some t) : r = .next t := by
  cases r <;> simp_all [after]

theorem exists_next {r : Result} {P : State → Prop} (h : ∃ t, after r = some t ∧ P t) : ∃ t, r = .next t ∧ P t := by
  obtain ⟨t, h, hp⟩ := h
  exact ⟨t, eq_next_of_after h, hp⟩

/-- Small parameters with both optional units. -/
def small : Params := { symCap := 64, uCap := 64, pCap := 64, oCap := 64, hasCtm := true, hasPlut := true }

theorem small_legal : small.Legal := by decide

/-- The state after reset with small parameters. -/
def base : State := State.resetWith small

/-- A byte memory that holds these bytes from index 0 on. -/
def cells (bs : List Byte) : List Host.Cell := Memory.writeMany [] 0 bs

/-- `base` with input symbols, a palette size and a ceiling. -/
def input (symbols : List Byte) (p : BitVec 9) (m : BitVec 4) : State :=
  { base with
    symbuf := cells symbols, lzLen := BitVec.ofNat 32 symbols.length, lzPalsize := p, lzMaxbits := m }

/-- `input` after LZ_BEGIN, and after LZ_BEGIN and a number of LZ_STEPs. -/
def encoding (symbols : List Byte) (p : BitVec 9) (m : BitVec 4) (steps : Nat) : State :=
  ((after (exec .lzBegin (input symbols p m))).bind
    fun s => execAll (List.replicate steps .lzStep) s).getD State.reset

/-! ### Well-formedness and decoding -/

/-- 30_encoding.md R71, R75: N up to 32. -/
theorem test_wellFormed_refuses_counts_above_32 :
    (Instr.pkPush 33).wellFormed = false ∧ (Instr.upPop 33).wellFormed = false ∧ (Instr.pkPush 63).wellFormed = false ∧
      (Instr.pkPush 32).wellFormed = true ∧ (Instr.upPop 0).wellFormed = true := by decide

/-- Every opcode of the table, each word written from 30_encoding.md R70 and R74. -/
theorem test_decode_every_opcode :
    decode 0x00000000 = .instr .nop ∧ decode 0x00000001 = .instr .rst ∧ decode 0x00000010 = .instr .pkRst ∧
      decode 0x00000022 = .instr .upAlign ∧ decode 0x00000030 = .instr .frRun ∧
      decode 0x00000040 = .instr .lzBegin ∧ decode 0x00000041 = .instr .lzStep ∧
      decode 0x00000042 = .instr .lzEnd ∧ decode 0x00000043 = .instr .lzEnc ∧
      decode 0x00000044 = .instr .lzRaw ∧ decode 0x00000050 = .instr .ctLook ∧
      decode 0x00000060 = .instr .pzFold ∧ decode 0x00000061 = .instr .pzUnfold := by decide

/-- V28, V4, V6 and bit by bit: N = 0b010101 in word[13:8]. -/
theorem test_decode_counts :
    decode 0x00000011 = .instr (.pkPush 0) ∧ decode 0x00002011 = .instr (.pkPush 32) ∧
      decode 0x00000821 = .instr (.upPop 8) ∧ decode 0x00001821 = .instr (.upPop 24) ∧
      decode 0b00000000000000000001010100010001 = .instr (.pkPush 21) ∧
      decode 0b00000000000000000000101000100001 = .instr (.upPop 10) := by decide

/-- V28: the illegal words. -/
theorem test_decode_illegal_words :
    decode 0x00002111 = .rejected (.countTooLarge 33) ∧ decode 0x00003F21 = .rejected (.countTooLarge 63) ∧
      decode 0x00004011 = .rejected (.reservedBitsSet 0x4011) ∧ decode 0x00000100 = .rejected (.reservedBitsSet 0x100) ∧
      decode 0x00000122 = .rejected (.reservedBitsSet 0x122) ∧
      decode 0x80000043 = .rejected (.reservedBitsSet 0x80000043) ∧
      decode 0x00000020 = .rejected (.unassignedOpcode 0x20) ∧ decode 0x00000002 = .rejected (.unassignedOpcode 2) ∧
      decode 0x00000045 = .rejected (.unassignedOpcode 0x45) ∧ decode 0x000000FF = .rejected (.unassignedOpcode 0xFF) := by
  decide

/-- The words of the longest operands encode as R70 and R77 say. -/
theorem test_encode :
    encode (.pkPush 32) = 0x00002011 ∧ encode (.upPop 24) = 0x00001821 ∧ encode .lzEnc = 0x00000043 := by decide

/-! ### One step of each command -/

/-- V26, R85: the step that completes a NOP placed by `withFetchWord`. -/
theorem test_nop : (after (step (State.reset.withFetchWord 32 0))).map (fun t => (t.busy, t.intStat)) =
    some (false, { done := true, err := false }) := by decide

/-- V29: the registers at their reset values, the memories kept. -/
theorem test_rst :
    (after (exec .rst { base with err := true, cmd := 1, pkBits := 5, lzMaxbits := 3, symbuf := cells [7] })).map
      (fun t => (t.err, t.pkBits, t.lzMaxbits, t.symbuf)) = some (false, 0, 12, cells [7]) := by decide +kernel

/-- V4, line 8. -/
theorem test_pkRst : (after (exec .pkRst { base with pkBits := 64 })).map (fun t => t.pkBits) = some 0 := by decide

/-- V4, line 6: 12 bits of 0xABC at position 45. -/
theorem test_pkPush_mixed_widths :
    (after (exec (.pkPush 12)
      { base with pkBits := 45, pkData := 0xABC, pbuf := cells [0xFD, 0xFF, 0xEE, 0xDB, 0xEA, 0x1D] })).map
      (fun t => (t.pkBits, t.pbuf)) = some (57, cells [0xFD, 0xFF, 0xEE, 0xDB, 0xEA, 0x9D, 0x57, 0x01]) := by
  decide +kernel

/-- V5: a value that does not fit its count. -/
theorem test_pkPush_range :
    (after (exec (.pkPush 1) { base with pkData := 2 })).map (fun t => (t.errCode, t.errInfo, t.err)) =
      some (4, 2, true) := by decide +kernel

/-- V6: 32 bits from position 3 of A5 3C FF 00 12. -/
theorem test_upPop_five_bytes :
    (after (exec (.upPop 32)
      { base with upLen := 8, upPos := 3, ubuf := cells [0xA5, 0x3C, 0xFF, 0x00, 0x12, 0x34, 0x56, 0x78] })).map
      (fun t => (t.upData, t.upPos)) = some (0x29E7F800, 35) := by decide +kernel

/-- V7: cursor plus count does not wrap. -/
theorem test_upPop_no_wrap :
    (after (exec (.upPop 32) { base with upLen := 4, upPos := 0xFFFFFFFF })).map (fun t => (t.errCode, t.errInfo)) =
      some (5, 0xFFFFFFFF) := by decide +kernel

/-- V6, line 7. -/
theorem test_upAlign : (after (exec .upAlign { base with upLen := 8, upPos := 21 })).map (fun t => t.upPos) = some 24 := by
  decide +kernel

/-- V7: a cursor beyond the end. -/
theorem test_upAlign_bounds :
    (after (exec .upAlign { base with upLen := 1, upPos := 9 })).map (fun t => (t.errCode, t.errInfo)) = some (5, 9) := by
  decide +kernel

/-- V1, the last sentence. -/
theorem test_frRun :
    (after (exec .frRun { base with pkBits := 8, pbuf := cells [0xAF] })).map (fun t => (t.obLen, t.obuf)) =
      some (3, cells [1, 0xAF, 0]) := by decide +kernel

/-- V2, the row LZ_BEGIN. -/
theorem test_lzBegin :
    (after (exec .lzBegin (input [0, 1, 2] 4 12))).map
      (fun t => (t.pkBits, pkTail t, t.lzDsize, t.lzW, t.lzLast, t.phase)) = some (3, 4, 6, 3, 4, .active) := by
  decide +kernel

/-- V2, the row LZ_STEP 1. -/
theorem test_lzStep :
    (after (exec .lzStep (encoding [0, 1, 2] 4 12 0))).map
      (fun t => (t.lzLast, t.lzPos, entryWord (readDict t 6), t.lzDsize, t.pkBits, pkTail t)) =
      some (0, 1, 0x00100001, 7, 6, 4) := by decide +kernel

/-- V2, the row LZ_END. -/
theorem test_lzEnd :
    (after (exec .lzEnd (encoding [0, 1, 2] 4 12 3))).map (fun t => (t.lzLast, t.pkBits, pkTail t, t.phase)) =
      some (5, 15, 0x54, .ended) := by decide +kernel

/-- V2, the end state. -/
theorem test_lzEnc :
    (after (exec .lzEnc (input [0, 1, 2] 4 12))).map (fun t => (t.obLen, t.obuf, statusWord t)) =
      some (4, cells [0x02, 0x44, 0x54, 0x00], 0x20) := by decide +kernel

/-- V24, line 2. -/
theorem test_lzRaw :
    (after (exec .lzRaw (input [0, 64] 65 12))).map (fun t => (t.obLen, t.obuf)) =
      some (8, cells [0x03, 0x41, 0x00, 0x40, 0x02, 0x41, 0x42, 0x00]) := by decide +kernel

/-- V24, the last line. -/
theorem test_lzRaw_symbol :
    (after (exec .lzRaw (input [0, 1, 128] 128 12))).map (fun t => (t.errCode, t.errInfo, t.obLen)) = some (6, 2, 0) := by
  decide +kernel

/-- V8, line 1. -/
theorem test_ctLook_table :
    (after (exec .ctLook { base with ctBpp := 4, pxIn := 1, ct := [(1, 0x00FF8040)] })).map
      (fun t => (t.color, t.colorT)) = some (0xFF4080FF, false) := by decide +kernel

/-- V8, line 5. -/
theorem test_ctLook_alpha :
    (after (exec .ctLook { base with ctBpp := 32, pxIn := 0x10203040 })).map (fun t => (t.color, t.colorT)) =
      some (0x40102030, true) := by decide +kernel

/-- V9, line 2. -/
theorem test_pzFold :
    (after (exec .pzFold { base with pzLevel := 3, pzAbits := 1, color := 0xFF4080FF })).map (fun t => t.tuple) =
      some 0x0108101F := by decide +kernel

/-- V9, line 2, and the host-written tuple. -/
theorem test_pzUnfold :
    (after (exec .pzUnfold { base with pzLevel := 3, pzAbits := 1, tuple := 0x0108101F })).map (fun t => t.color) =
        some 0x804080F8 ∧
      (after (exec .pzUnfold { base with pzLevel := 1, pzAbits := 8, tuple := 0xFFFFFFFF })).map (fun t => t.color) =
        some 0xFEFEFEFE := by decide +kernel

/-! ### Host accesses (V27) -/

theorem test_hostRead_after_reset :
    hostRead State.reset 0x000 4 = some 0x4C5A0100 ∧ hostRead State.reset 0x004 4 = some 0xC3 ∧
      hostRead State.reset 0x074 4 = some 12 ∧ hostRead State.reset 0x0C0 4 = some 0x800 ∧
      hostRead State.reset 0x000 1 = none ∧ hostRead State.reset 0x030 4 = none ∧
      hostRead State.reset 0x08000 4 = none := by decide +kernel

theorem test_hostWrite_little_endian :
    (hostWrite base 0x10000 4 0x44332211).map (fun t => (t.symbuf, hostRead t 0x10001 1, hostRead t 0x10002 2)) =
      some (cells [0x11, 0x22, 0x33, 0x44], some 0x22, some 0x4433) := by decide +kernel

/-- R56: the second of two writes of one value moves nothing, not even `gen`. -/
theorem test_hostWrite_twice :
    ((hostWrite base 0x040 4 5).bind fun t => hostWrite t 0x040 4 5) = hostWrite base 0x040 4 5 ∧
      ((hostWrite base 0x10002 2 7).bind fun t => hostWrite t 0x10002 2 7) = hostWrite base 0x10002 2 7 := by
  decide +kernel

/-! ### Witnesses: invariants on concrete states -/

/-- `DictOk` of a concrete state, from checks Lean can evaluate. -/
theorem dictOk_of {p : Nat} {s : State} (h₁ : p + 2 ≤ s.lzDsize.toNat) (h₂ : s.lzDsize.toNat ≤ dictCap)
    (h₃ : ∀ k, k < p → readDict s k = { kind := .lit, pre := 0, sym := BitVec.ofNat 8 k })
    (h₄ : readDict s p = { kind := .clearCode, pre := 0, sym := 0 })
    (h₅ : readDict s (p + 1) = { kind := .endCode, pre := 0, sym := 0 })
    (h₆ : ∀ k, k < s.lzDsize.toNat → p + 2 ≤ k →
      (readDict s k).kind = .str ∧ (readDict s k).pre.toNat < k ∧
        ((readDict s (readDict s k).pre.toNat).kind = .lit ∨ (readDict s (readDict s k).pre.toNat).kind = .str))
    (h₇ : ∀ j, j < s.lzDsize.toNat → ∀ k, k < s.lzDsize.toNat → seqOf s j = none ∨ seqOf s j ≠ seqOf s k ∨ j = k) :
    DictOk p s where
  sizeLow := h₁
  sizeHigh := h₂
  literals := h₃
  clear := h₄
  endc := h₅
  strings k hk hs := h₆ k hs hk
  distinct j k q hj hk hsj hsk := by
    rcases h₇ j hj k hk with h | h | h
    · rw [h] at hsj; cases hsj
    · rw [hsj, hsk] at h; exact absurd rfl h
    · exact h

/-- `StreamOk` of a concrete state. -/
theorem streamOk_of {s : State} (h₁ : s.params.Legal) (h₂ : s.pkBits.toNat ≤ 8 * s.params.pCap)
    (h₃ : s.obLen.toNat ≤ s.params.oCap)
    (h₄ : ∀ j, j < 8 * pkBytes s → s.pkBits.toNat ≤ j → pbufBit s j = false) : StreamOk s where
  legal := h₁
  bitsFit := h₂
  outFits := h₃
  padded j hj hj' := h₄ j hj' hj

/-- An encoding of 0 1 0 1 0 1 0 0 0 with a palette of 2 and ceiling 3, after some turns. Turn 1 appends and the width
grows; turn 5 finds the dictionary at its ceiling; turn 6 is the last. -/
def run2 (steps : Nat) : State := encoding [0, 1, 0, 1, 0, 1, 0, 0, 0] 2 3 steps

theorem run2_ok :
    (StreamOk (run2 0) ∧ LzOk (run2 0)) ∧ (StreamOk (run2 4) ∧ LzOk (run2 4)) ∧ (StreamOk (run2 5) ∧ LzOk (run2 5)) ∧
      StreamOk (run2 6) ∧ LzOk (run2 6) := by
  refine ⟨⟨streamOk_of ?_ ?_ ?_ ?_, fun _ => ⟨2, 3, ?_, ?_, ?_, ?_, dictOk_of ?_ ?_ ?_ ?_ ?_ ?_ ?_, ?_, ?_, ?_⟩⟩,
    ⟨streamOk_of ?_ ?_ ?_ ?_, fun _ => ⟨2, 3, ?_, ?_, ?_, ?_, dictOk_of ?_ ?_ ?_ ?_ ?_ ?_ ?_, ?_, ?_, ?_⟩⟩,
    ⟨streamOk_of ?_ ?_ ?_ ?_, fun _ => ⟨2, 3, ?_, ?_, ?_, ?_, dictOk_of ?_ ?_ ?_ ?_ ?_ ?_ ?_, ?_, ?_, ?_⟩⟩,
    streamOk_of ?_ ?_ ?_ ?_, fun _ => ⟨2, 3, ?_, ?_, ?_, ?_, dictOk_of ?_ ?_ ?_ ?_ ?_ ?_ ?_, ?_, ?_, ?_⟩⟩ <;>
    decide +kernel

/-- A stream of five bits in a PBUF of four bytes. -/
def fiveBits : State := { base with params := { small with pCap := 4, oCap := 4 }, pkBits := 5, pbuf := cells [0x1F] }

theorem fiveBits_ok : StreamOk fiveBits := by
  refine streamOk_of ?_ ?_ ?_ ?_ <;> decide +kernel

/-! ### Witnesses: encoding and steps -/

theorem witness_StepRunsTheDecodedCommand :
    (∃ (s : State) (i : Instr), s.busy = true ∧ decode s.cmd = .instr i ∧ s.inputs = []) ∧
      ∃ (s : State) (i : Instr), s.busy = true ∧ decode s.cmd = .instr i ∧ s.inputs = [.engine, .read 0x18 2] :=
  ⟨⟨{ base with busy := true, cmd := 0x2011 }, .pkPush 32, by decide⟩,
    { base with busy := true, cmd := 0x43, inputs := [.engine, .read 0x18 2] }, .lzEnc, by decide⟩

/-- Every kind of illegal word, with nothing lined up and with the engine's move before one of the host. -/
theorem witness_IllegalWordFaultsWithTheWord :
    ∀ is ∈ [[], [Input.engine, .read 0x28 2]],
      (∃ s : State, s.busy = true ∧ s.inputs = is ∧ ¬ ∃ i : Instr, i.wellFormed = true ∧ encode i = s.cmd) ∧
      (∃ s : State, s.busy = true ∧ s.inputs = is ∧ s.cmd = 0x50 ∧ s.params.hasCtm = false) ∧
      (∃ s : State, s.busy = true ∧ s.inputs = is ∧ s.cmd = 0x60 ∧ s.params.hasPlut = false) ∧
      ∃ s : State, s.busy = true ∧ s.inputs = is ∧ s.cmd = 0x61 ∧ s.params.hasPlut = false := by
  have push : ∀ n : BitVec 6, ¬ ((Instr.pkPush n).wellFormed = true ∧ encode (.pkPush n) = 0x2111) := by decide
  have pop : ∀ n : BitVec 6, ¬ ((Instr.upPop n).wellFormed = true ∧ encode (.upPop n) = 0x2111) := by decide
  have illegal : ¬ ∃ i : Instr, i.wellFormed = true ∧ encode i = 0x2111 := by
    rintro ⟨i, h⟩
    cases i
    case pkPush n => exact push n h
    case upPop n => exact pop n h
    all_goals exact absurd h.2 (by decide)
  intro is _
  let s : State := { base with busy := true, inputs := is, params := { small with hasCtm := false, hasPlut := false } }
  exact ⟨⟨{ s with cmd := 0x2111 }, rfl, rfl, illegal⟩, ⟨{ s with cmd := 0x50 }, rfl, rfl, rfl, rfl⟩,
    ⟨{ s with cmd := 0x60 }, rfl, rfl, rfl, rfl⟩, { s with cmd := 0x61 }, rfl, rfl, rfl, rfl⟩

theorem witness_StepPerformsTheLinedUpMove :
    (∃ s : State, s.inputs = [.read 0x18 2]) ∧ (∃ s : State, s.inputs = [.write 0x1C 2 1]) ∧
      (∃ s : State, s.inputs = [.hardwareReset]) ∧ (∃ s : State, s.busy = false ∧ s.inputs = []) ∧
      ∃ s : State, s.busy = false ∧ s.inputs = [.engine, .read 0x18 2] :=
  ⟨⟨{ base with inputs := [.read 0x18 2] }, rfl⟩, ⟨{ base with inputs := [.write 0x1C 2 1] }, rfl⟩,
    ⟨{ base with inputs := [.hardwareReset] }, rfl⟩, ⟨base, rfl, rfl⟩,
    { base with inputs := [.engine, .read 0x18 2] }, rfl, rfl⟩

theorem witness_EveryAcceptedCommandCompletes :
    (∃ s : State, s.busy = true ∧ EngineMoves s ∧ s.inputs = []) ∧
      ∃ s : State, s.busy = true ∧ EngineMoves s ∧ s.inputs = [.engine, .read 0x18 2] :=
  ⟨⟨State.reset.withFetchWord 32 0x43, rfl, .inl rfl, rfl⟩,
    { base with busy := true, cmd := 0x43, inputs := [.engine, .read 0x18 2] }, rfl, .inr ⟨_, rfl⟩, rfl⟩

/-- The states of the ERR-state clause. -/
theorem witness_NopOnlyCompletes : ∃ s : State, s.busy = false ∧ s.err = true := ⟨faultEntry .seq 0 base, rfl, rfl⟩

/-- A fault of LZ_RAW after it has written OBUF, and one of PK_PUSH. -/
theorem witness_FaultEntryIsPreciseAndInvalidatesOutput :
    (∃ s t : State, s.params.Legal ∧ s.err = false ∧ exec .lzRaw s = .next t ∧ t.err = true ∧ t.obuf ≠ s.obuf) ∧
      ∃ s t : State, s.params.Legal ∧ s.err = false ∧ exec (.pkPush 1) s = .next t ∧ t.err = true := by
  have h : ∃ t, exec .lzRaw (input [0, 1, 128] 128 12) = .next t ∧ t.err = true ∧
      t.obuf ≠ (input [0, 1, 128] 128 12).obuf :=
    exists_next ⟨(after (exec .lzRaw (input [0, 1, 128] 128 12))).getD base, by decide +kernel⟩
  obtain ⟨t, h⟩ := h
  exact ⟨⟨input [0, 1, 128] 128 12, t, small_legal, rfl, h⟩,
    { base with phase := .active }, faultEntry .seq 0 { base with phase := .active }, small_legal, rfl, rfl, rfl⟩

/-- Every choice of units, each with a register of every unit that is present. -/
theorem witness_HardwareResetGivesTheResetRegisters :
    ∀ c ∈ [false, true], ∀ p ∈ [false, true], ∃ (s : State) (rest : List Input), s.inputs = .hardwareReset :: rest ∧
      s.params.hasCtm = c ∧ s.params.hasPlut = p ∧ s.busy = true ∧
      ∀ r ∈ [Reg.cap] ++ (if c then [.pxMask] else []) ++ (if c || p then [.colorT] else []) ++
          (if p then [.pzCfg] else []),
        (r ∈ [Reg.ctBpp, .pxIn, .pxMask] → s.params.hasCtm = true) ∧
          (r ∈ [Reg.color, .colorT] → s.params.hasCtm = true ∨ s.params.hasPlut = true) ∧
          (r ∈ [Reg.pzCfg, .tuple] → s.params.hasPlut = true) := by
  intro c hc p hp
  refine ⟨{ base with
    busy := true, cmd := 0x43, inputs := [.hardwareReset, .engine], params := { small with hasCtm := c, hasPlut := p } },
    [.engine], rfl, rfl, rfl, rfl, ?_⟩
  revert p c
  decide

/-! ### Witnesses: packer, unpacker, framer -/

theorem witness_PkRstEmptiesTheStreamOrFaults :
    (∃ s : State, s.phase ≠ .active) ∧ ∃ s : State, s.phase = .active :=
  ⟨⟨{ base with phase := .ended }, by decide⟩, { base with phase := .active }, rfl⟩

/-- N = 32 and N = 27 with the largest values, the second filling PBUF; N = 0. -/
theorem witness_PkPushAppendsTheBitsOfPkData :
    (∃ (s : State) (n : BitVec 6), n = 27 ∧ StreamOk s ∧ n.toNat ≤ 32 ∧ s.phase ≠ .active ∧
        s.pkData.toNat < 2 ^ n.toNat ∧ s.pkBits.toNat + n.toNat ≤ 8 * s.params.pCap) ∧
      (∃ (s : State) (n : BitVec 6), n = 32 ∧ StreamOk s ∧ n.toNat ≤ 32 ∧ s.phase ≠ .active ∧
        s.pkData.toNat < 2 ^ n.toNat ∧ s.pkBits.toNat + n.toNat ≤ 8 * s.params.pCap) ∧
      ∃ (s : State) (n : BitVec 6), n = 0 ∧ StreamOk s ∧ n.toNat ≤ 32 ∧ s.phase ≠ .active ∧
        s.pkData.toNat < 2 ^ n.toNat ∧ s.pkBits.toNat + n.toNat ≤ 8 * s.params.pCap := by
  refine ⟨⟨{ fiveBits with pkData := 0x7FFFFFF }, 27, rfl, ?_, ?_⟩, ⟨{ base with pkData := 0xFFFFFFFF }, 32, rfl, ?_, ?_⟩,
    fiveBits, 0, rfl, fiveBits_ok, ?_⟩
  · refine streamOk_of ?_ ?_ ?_ ?_ <;> decide +kernel
  · decide +kernel
  · refine streamOk_of ?_ ?_ ?_ ?_ <;> decide +kernel
  · decide +kernel
  · decide +kernel

theorem witness_PkPushAppendsTheBitsOfPkData_faults :
    (∃ (s : State) (n : BitVec 6), n.toNat ≤ 32 ∧ s.phase = .active) ∧
      (∃ (s : State) (n : BitVec 6), n.toNat ≤ 32 ∧ s.phase ≠ .active ∧ 2 ^ n.toNat ≤ s.pkData.toNat) ∧
      ∃ (s : State) (n : BitVec 6), n.toNat ≤ 32 ∧ s.phase ≠ .active ∧ s.pkData.toNat < 2 ^ n.toNat ∧
        8 * s.params.pCap < s.pkBits.toNat + n.toNat :=
  ⟨⟨{ base with phase := .active }, 3, by decide⟩, ⟨{ base with pkData := 1 }, 0, by decide⟩,
    fiveBits, 28, by decide +kernel⟩

/-- The last 32 bits of an eight-byte buffer, and N = 0 at its end. -/
theorem witness_UpPopReturnsTheNextBitsMsbFirst :
    ∃ (s : State) (n : BitVec 6), n = 32 ∧ s.params.Legal ∧ n.toNat ≤ 32 ∧ s.upLen.toNat ≤ s.params.uCap ∧
      s.upPos.toNat + n.toNat ≤ 8 * s.upLen.toNat ∧ { s with upPos := 64 }.upPos.toNat + 0 ≤ 8 * s.upLen.toNat :=
  ⟨{ base with upLen := 8, upPos := 32 }, 32, rfl, small_legal, by decide +kernel⟩

theorem witness_UpPopReturnsTheNextBitsMsbFirst_faults :
    (∃ (s : State) (n : BitVec 6), n.toNat ≤ 32 ∧ s.params.uCap < s.upLen.toNat) ∧
      ∃ (s : State) (n : BitVec 6), n.toNat ≤ 32 ∧ s.upLen.toNat ≤ s.params.uCap ∧
        8 * s.upLen.toNat < s.upPos.toNat + n.toNat :=
  ⟨⟨{ base with upLen := 65 }, 0, by decide +kernel⟩, { base with upLen := 64, upPos := 512 }, 1, by decide +kernel⟩

theorem witness_UpAlignRoundsTheCursorUp :
    (∃ s : State, s.params.Legal ∧ s.upLen.toNat ≤ s.params.uCap ∧ s.upPos.toNat ≤ 8 * s.upLen.toNat ∧ s.upPos = 9) ∧
      ∃ s : State, s.params.Legal ∧ s.upLen.toNat ≤ s.params.uCap ∧ s.upPos.toNat ≤ 8 * s.upLen.toNat ∧ s.upPos = 512 :=
  ⟨⟨{ base with upLen := 2, upPos := 9 }, small_legal, by decide +kernel⟩,
    { base with upLen := 64, upPos := 512 }, small_legal, by decide +kernel⟩

theorem witness_UpAlignRoundsTheCursorUp_faults :
    (∃ s : State, s.params.uCap < s.upLen.toNat) ∧
      ∃ s : State, s.upLen.toNat ≤ s.params.uCap ∧ 8 * s.upLen.toNat < s.upPos.toNat :=
  ⟨⟨{ base with upLen := 65 }, by decide +kernel⟩, { base with upLen := 1, upPos := 9 }, by decide +kernel⟩

theorem witness_FrRunWritesTheFramedStream_fault :
    ∃ s : State, s.params.oCap < pkBytes s + ceilDiv (pkBytes s) 255 + 1 :=
  ⟨{ fiveBits with pkBits := 17 }, by decide +kernel⟩

/-- Two bytes in an OBUF of four, exactly filling it. -/
theorem witness_FrRunWritesTheFramedStream :
    ∃ s : State, StreamOk s ∧ framedLength (pkBytes s) = s.params.oCap := by
  refine ⟨{ fiveBits with pkBits := 9, pbuf := cells [0xFF, 1] }, streamOk_of ?_ ?_ ?_ ?_, ?_⟩ <;> decide +kernel

/-! ### Witnesses: the LZW commands -/

/-- The smallest and the largest palette. -/
theorem witness_LzBeginSetsUpDictionaryAndEmitsClear :
    (∃ s : State, s.params.Legal ∧ LzConfigOk s ∧ s.lzPalsize = 1 ∧ s.lzMaxbits = 2) ∧
      ∃ s : State, s.params.Legal ∧ LzConfigOk s ∧ s.lzPalsize = 256 ∧ s.lzMaxbits = 9 := by
  refine ⟨⟨input [] 1 2, small_legal, ?_⟩, input [] 256 9, small_legal, ?_⟩ <;> unfold LzConfigOk <;> decide +kernel

/-- The states that meet each configuration fault of LZ_BEGIN and of LZ_ENC. -/
theorem witness_LzBeginSetsUpDictionaryAndEmitsClear_faults :
    (∃ s : State, s.lzPalsize.toNat = 0) ∧ (∃ s : State, 256 < s.lzPalsize.toNat) ∧
      (∃ s : State, 0 < s.lzPalsize.toNat ∧ s.lzPalsize.toNat ≤ 256 ∧
        s.lzMaxbits.toNat < initialWidth s.lzPalsize.toNat) ∧
      (∃ s : State, 0 < s.lzPalsize.toNat ∧ s.lzPalsize.toNat ≤ 256 ∧ 12 < s.lzMaxbits.toNat) ∧
      ∃ s : State, 0 < s.lzPalsize.toNat ∧ s.lzPalsize.toNat ≤ 256 ∧
        initialWidth s.lzPalsize.toNat ≤ s.lzMaxbits.toNat ∧ s.lzMaxbits.toNat ≤ 12 ∧
        s.params.symCap < s.lzLen.toNat :=
  ⟨⟨base, rfl⟩, ⟨input [] 257 12, by decide⟩, ⟨input [] 256 8, by decide +kernel⟩, ⟨input [] 1 13, by decide +kernel⟩,
    { input [] 4 12 with lzLen := 65 }, by decide +kernel⟩

theorem witness_LzEncChecksItsConfigurationFirst :
    (∃ s : State, s.lzPalsize.toNat = 0) ∧
      (∃ s : State, 0 < s.lzPalsize.toNat ∧ s.lzPalsize.toNat ≤ 256 ∧ 12 < s.lzMaxbits.toNat) ∧
      ∃ s : State, 0 < s.lzPalsize.toNat ∧ s.lzPalsize.toNat ≤ 256 ∧
        initialWidth s.lzPalsize.toNat ≤ s.lzMaxbits.toNat ∧ s.lzMaxbits.toNat ≤ 12 ∧
        s.params.symCap < s.lzLen.toNat :=
  ⟨⟨base, rfl⟩, ⟨input [] 1 13, by decide +kernel⟩, { input [] 256 9 with lzLen := 65 }, by decide +kernel⟩

/-- Both cases of the append: one where the width grows, one at the ceiling, one at the end of the input. -/
theorem witness_LzStepEmitsTheMatchAndAppends :
    ∀ n ∈ [0, 4, 5], ∃ c len, StreamOk (run2 n) ∧ LzOk (run2 n) ∧ (run2 n).phase = .active ∧
      (run2 n).lzPos.toNat < (run2 n).lzLen.toNat ∧ lzMatch (run2 n) (run2 n).lzPos.toNat = some (c, len) ∧
      (run2 n).pkBits.toNat + (run2 n).lzW.toNat ≤ 8 * (run2 n).params.pCap := by
  obtain ⟨h₀, h₄, h₅, -⟩ := run2_ok
  intro n hn
  simp only [List.mem_cons, List.not_mem_nil, or_false] at hn
  rcases hn with rfl | rfl | rfl
  · exact ⟨0, 1, h₀.1, h₀.2, by decide +kernel⟩
  · exact ⟨0, 1, h₄.1, h₄.2, by decide +kernel⟩
  · exact ⟨0, 1, h₅.1, h₅.2, by decide +kernel⟩

theorem witness_LzStepEmitsTheMatchAndAppends_faults :
    (∃ s : State, s.phase ≠ .active) ∧ (∃ s : State, s.lzLen.toNat ≤ s.lzPos.toNat ∧ s.phase = .active) ∧
      (∃ s : State, s.phase = .active ∧ s.lzPos.toNat < s.lzLen.toNat ∧ lzMatch s s.lzPos.toNat = none) ∧
      ∃ s : State, s.phase = .active ∧ s.lzPos.toNat < s.lzLen.toNat ∧ lzMatch s s.lzPos.toNat ≠ none ∧
        8 * s.params.pCap < s.pkBits.toNat + s.lzW.toNat :=
  ⟨⟨base, by decide⟩, ⟨run2 6, by decide +kernel⟩, ⟨encoding [4, 0] 4 12 0, by decide +kernel⟩,
    { run2 4 with pkBits := 510 }, by decide +kernel⟩

theorem witness_LzEndEmitsEndAtTheCurrentWidth_faults :
    (∃ s : State, s.phase ≠ .active) ∧ (∃ s : State, s.phase = .active ∧ s.lzPos ≠ s.lzLen) ∧
      ∃ s : State, s.phase = .active ∧ s.lzPos = s.lzLen ∧ 8 * s.params.pCap < s.pkBits.toNat + s.lzW.toNat :=
  ⟨⟨base, by decide⟩, ⟨run2 4, by decide +kernel⟩, { run2 6 with pkBits := 510 }, by decide +kernel⟩

theorem witness_LzEndEmitsEndAtTheCurrentWidth :
    ∃ s : State, StreamOk s ∧ LzOk s ∧ s.phase = .active ∧ s.lzPos = s.lzLen ∧
      s.pkBits.toNat + s.lzW.toNat ≤ 8 * s.params.pCap :=
  ⟨run2 6, run2_ok.2.2.2.1, run2_ok.2.2.2.2, by decide +kernel⟩

theorem witness_LzMatchIsTheLongestCandidate :
    (∃ (s : State) (pos c len : Nat), lzMatch s pos = some (c, len) ∧ 1 < len) ∧
      ∃ (s : State) (pos : Nat), lzMatch s pos = none ∧ 0 < s.lzDsize.toNat :=
  ⟨⟨run2 2, 2, 4, 2, by decide +kernel⟩, encoding [4] 4 12 0, 0, by decide +kernel⟩

theorem witness_LongestMatchIsUnique :
    ∃ (s : State) (pos c d l : Nat), LzOk s ∧ s.phase ≠ .idle ∧ c < s.lzDsize.toNat ∧ d < s.lzDsize.toNat ∧
      candidateLength s pos c = some l ∧ candidateLength s pos d = some l :=
  ⟨run2 4, 4, 6, 6, 3, run2_ok.2.1.2, by decide +kernel⟩

/-- Both sides of the equivalence, at the first symbol above the palette and at the last within it. -/
theorem witness_NothingMatchesExactlyWhenTheSymbolIsTooLarge :
    ∃ (s : State) (p : Nat), p ≤ palMax ∧ DictOk p s ∧ 1 < s.lzLen.toNat ∧ lzMatch s 0 = none ∧
      (readSym s 0).toNat = p ∧ lzMatch s 1 ≠ none ∧ (readSym s 1).toNat + 1 = p := by
  refine ⟨encoding [4, 3] 4 12 0, 4, ?_, dictOk_of ?_ ?_ ?_ ?_ ?_ ?_ ?_, ?_⟩ <;> decide +kernel

theorem witness_ScanEqualsSymbolAtATimeMatch :
    ∃ (s : State) (p pos : Nat), p ≤ palMax ∧ DictOk p s ∧ pos < s.lzLen.toNat ∧ lzMatch s pos = some (7, 4) := by
  refine ⟨run2 4, 2, 4, ?_, dictOk_of ?_ ?_ ?_ ?_ ?_ ?_ ?_, ?_⟩ <;> decide +kernel

/-- The empty input with memories exactly large enough, and three symbols. -/
theorem witness_LzEncCompletesWithinTheBound :
    (∃ s : State, s.params.Legal ∧ LzConfigOk s ∧ (∀ k, k < s.lzLen.toNat → (readSym s k).toNat < s.lzPalsize.toNat) ∧
      s.lzMaxbits.toNat * (s.lzLen.toNat + 2) ≤ 8 * s.params.pCap ∧
      framedLength (ceilDiv (s.lzMaxbits.toNat * (s.lzLen.toNat + 2)) 8) ≤ s.params.oCap ∧ s.lzLen = 0) ∧
    ∃ s : State, s.params.Legal ∧ LzConfigOk s ∧ (∀ k, k < s.lzLen.toNat → (readSym s k).toNat < s.lzPalsize.toNat) ∧
      s.lzMaxbits.toNat * (s.lzLen.toNat + 2) ≤ 8 * s.params.pCap ∧
      framedLength (ceilDiv (s.lzMaxbits.toNat * (s.lzLen.toNat + 2)) 8) ≤ s.params.oCap ∧ s.lzLen = 3 := by
  refine ⟨⟨{ input [] 4 8 with params := { small with pCap := 4, oCap := 4 } }, ?_⟩, input [0, 1, 3] 4 12, ?_⟩ <;>
    unfold LzConfigOk <;> decide +kernel

theorem witness_LzEncIsTheSequenceOfPrimitives : ∃ s t : State, exec .lzEnc s = .next t ∧ t.phase = .ended := by
  refine ⟨input [0, 1, 2] 4 12, exists_next ⟨(after (exec .lzEnc (input [0, 1, 2] 4 12))).getD base, ?_⟩⟩
  decide +kernel

/-- LZ_ENC on a symbol too large after two turns, on a PBUF that is full in the middle, and on an OBUF too small for
the framed stream; each with the code and the information it faults with. -/
def faulting : List (State × Nat × Nat) :=
  [(input [0, 1, 4, 0] 4 12, 6, 2),
    ({ input [0, 1, 2, 3, 0, 0, 1, 1, 2, 2] 4 12 with params := { small with pCap := 4 } }, 7, 0),
    ({ input [0, 1, 2, 3, 0, 0, 1, 1] 4 12 with params := { small with oCap := 4 } }, 7, 1)]

theorem witness_LzEncIsTheSequenceOfPrimitives_faults :
    ∀ p ∈ faulting, ∃ t, exec .lzEnc p.1 = .next t ∧ p.1.err = false ∧ t.err = true ∧
      (t.errCode.toNat, t.errInfo.toNat) = p.2 ∧ p.1.params.Legal := by
  have h : ∀ p ∈ faulting, ((after (exec .lzEnc p.1)).any fun t => decide (p.1.err = false ∧ t.err = true ∧
      (t.errCode.toNat, t.errInfo.toNat) = p.2 ∧ p.1.params.Legal)) = true := by decide +kernel
  intro p hp
  have hp := h p hp
  cases e : after (exec .lzEnc p.1) with
  | none => rw [e] at hp; cases hp
  | some t =>
    rw [e, Option.any_some, decide_eq_true_eq] at hp
    exact ⟨t, eq_next_of_after e, hp⟩

theorem witness_LzEncStreamIsLossless :
    ∃ s t : State, s.params.Legal ∧ exec .lzEnc s = .next t ∧ t.phase = .ended := by
  obtain ⟨t, h⟩ : ∃ t, exec .lzEnc (run2 0) = .next t ∧ t.phase = .ended :=
    exists_next ⟨(after (exec .lzEnc (run2 0))).getD base, by decide +kernel⟩
  exact ⟨run2 0, t, by decide +kernel, h⟩

/-- The input 0 1 2 with another byte behind it, and an older stream and output. -/
def second (q : Params) : State :=
  { input [0, 1, 2] 4 12 with
    params := q, symbuf := cells [0, 1, 2, 9], obuf := cells [5, 5], pkBits := 40, phase := .ended, gen := 7 }

/-- The same input with other bytes behind it and an older stream and output, for LZ_ENC and for LZ_RAW: with one set of
parameters, and with other capacities, where both succeed. -/
theorem witness_EncodedOutputDependsOnTheInputOnly :
    (∀ q ∈ [small, { small with symCap := 4, pCap := 8, oCap := 16 }], ∃ s₁ s₂ t₁ t₂ : State,
      s₁.params = small ∧ s₂.params = q ∧ s₁.params.Legal ∧ s₂.params.Legal ∧ s₁.lzPalsize = s₂.lzPalsize ∧
      s₁.lzLen = s₂.lzLen ∧ (∀ k, k < s₁.lzLen.toNat → readSym s₁ k = readSym s₂ k) ∧ s₁.symbuf ≠ s₂.symbuf ∧
      s₁.lzMaxbits = s₂.lzMaxbits ∧ exec .lzEnc s₁ = .next t₁ ∧ t₁.phase = .ended ∧ exec .lzEnc s₂ = .next t₂ ∧
      t₂.phase = .ended) ∧
    ∀ q ∈ [small, { small with symCap := 4, pCap := 8, oCap := 16 }], ∃ s₁ s₂ t₁ t₂ : State,
      s₁.params = small ∧ s₂.params = q ∧ s₁.params.Legal ∧ s₂.params.Legal ∧ s₁.lzPalsize = s₂.lzPalsize ∧
      s₁.lzLen = s₂.lzLen ∧ (∀ k, k < s₁.lzLen.toNat → readSym s₁ k = readSym s₂ k) ∧ s₁.lzMaxbits ≠ s₂.lzMaxbits ∧
      s₁.err = false ∧ s₂.err = false ∧ exec .lzRaw s₁ = .next t₁ ∧ t₁.err = false ∧ exec .lzRaw s₂ = .next t₂ ∧
      t₂.err = false := by
  refine ⟨fun q hq => ?_, fun q hq => ?_⟩
  · have hq' : q.Legal ∧ ∃ t, exec .lzEnc (second q) = .next t ∧ t.phase = .ended :=
      ⟨by revert q; decide, exists_next ⟨(after (exec .lzEnc (second q))).getD base, by revert q; decide +kernel⟩⟩
    obtain ⟨hl, t₂, h₂⟩ := hq'
    obtain ⟨t₁, h₁⟩ : ∃ t, exec .lzEnc (input [0, 1, 2] 4 12) = .next t ∧ t.phase = .ended :=
      exists_next ⟨(after (exec .lzEnc (input [0, 1, 2] 4 12))).getD base, by decide +kernel⟩
    have hs : ∀ k, k < (input [0, 1, 2] 4 12).lzLen.toNat →
        readSym (input [0, 1, 2] 4 12) k = readSym (second small) k := by decide +kernel
    exact ⟨input [0, 1, 2] 4 12, second q, t₁, t₂, rfl, rfl, small_legal, hl, rfl, rfl, hs, nofun, rfl, h₁.1, h₁.2, h₂⟩
  · have hq' : q.Legal ∧ ∃ t, exec .lzRaw { input [0, 64] 65 0 with params := q, obLen := 9 } = .next t ∧
        t.err = false :=
      ⟨by revert q; decide, exists_next
        ⟨(after (exec .lzRaw { input [0, 64] 65 0 with params := q, obLen := 9 })).getD base,
          by revert q; decide +kernel⟩⟩
    obtain ⟨hl, t₂, h₂⟩ := hq'
    obtain ⟨t₁, h₁⟩ : ∃ t, exec .lzRaw (input [0, 64] 65 12) = .next t ∧ t.err = false :=
      exists_next ⟨(after (exec .lzRaw (input [0, 64] 65 12))).getD base, by decide +kernel⟩
    exact ⟨input [0, 64] 65 12, { input [0, 64] 65 0 with params := q, obLen := 9 }, t₁, t₂, rfl, rfl, small_legal, hl,
      rfl, rfl, fun _ _ => rfl, by simp [input], rfl, rfl, h₁.1, h₁.2, h₂⟩

theorem witness_LzEncFaultsAtTheFirstLargeSymbol :
    ∃ (s : State) (k : Nat), s.params.Legal ∧ LzConfigOk s ∧ k < s.lzLen.toNat ∧
      (∀ j, j < k → (readSym s j).toNat < s.lzPalsize.toNat) ∧ s.lzPalsize.toNat ≤ (readSym s k).toNat ∧
      s.lzMaxbits.toNat * (s.lzLen.toNat + 2) ≤ 8 * s.params.pCap := by
  refine ⟨input [0, 1, 4, 0] 4 12, 2, ?_⟩
  unfold LzConfigOk
  decide +kernel

/-- Both ends of the palette range, the first with an OBUF exactly large enough. -/
theorem witness_LzRawWritesTheChunks :
    (∃ s : State, s.params.Legal ∧ 65 ≤ s.lzPalsize.toNat ∧ s.lzPalsize.toNat ≤ 128 ∧ s.lzLen.toNat ≤ s.params.symCap ∧
      s.lzLen.toNat + 2 * ceilDiv s.lzLen.toNat 126 + 4 = s.params.oCap ∧
      (∀ k, k < s.lzLen.toNat → (readSym s k).toNat < s.lzPalsize.toNat) ∧ s.lzPalsize = 65) ∧
    ∃ s : State, s.params.Legal ∧ 65 ≤ s.lzPalsize.toNat ∧ s.lzPalsize.toNat ≤ 128 ∧ s.lzLen.toNat ≤ s.params.symCap ∧
      s.lzLen.toNat + 2 * ceilDiv s.lzLen.toNat 126 + 4 ≤ s.params.oCap ∧
      (∀ k, k < s.lzLen.toNat → (readSym s k).toNat < s.lzPalsize.toNat) ∧ s.lzPalsize = 128 :=
  ⟨⟨{ input [0, 64] 65 12 with params := { small with oCap := 8 } }, by decide +kernel⟩,
    input [127] 128 12, by decide +kernel⟩

theorem witness_LzRawWritesTheChunks_faults :
    (∃ s : State, s.lzPalsize.toNat = 0) ∧ (∃ s : State, 256 < s.lzPalsize.toNat) ∧
      (∃ s : State, 0 < s.lzPalsize.toNat ∧ s.lzPalsize.toNat < 65 ∧ s.lzPalsize.toNat ≤ 256) ∧
      (∃ s : State, 0 < s.lzPalsize.toNat ∧ 128 < s.lzPalsize.toNat ∧ s.lzPalsize.toNat ≤ 256) ∧
      (∃ s : State, 65 ≤ s.lzPalsize.toNat ∧ s.lzPalsize.toNat ≤ 128 ∧ s.params.symCap < s.lzLen.toNat) ∧
      (∃ s : State, 65 ≤ s.lzPalsize.toNat ∧ s.lzPalsize.toNat ≤ 128 ∧ s.lzLen.toNat ≤ s.params.symCap ∧
        s.params.oCap < s.lzLen.toNat + 2 * ceilDiv s.lzLen.toNat 126 + 4) ∧
      ∃ (s : State) (k : Nat), 65 ≤ s.lzPalsize.toNat ∧ s.lzPalsize.toNat ≤ 128 ∧ s.lzLen.toNat ≤ s.params.symCap ∧
        s.lzLen.toNat + 2 * ceilDiv s.lzLen.toNat 126 + 4 ≤ s.params.oCap ∧ k < s.lzLen.toNat ∧
        (∀ j, j < k → (readSym s j).toNat < s.lzPalsize.toNat) ∧ s.lzPalsize.toNat ≤ (readSym s k).toNat :=
  ⟨⟨base, rfl⟩, ⟨input [] 257 12, by decide⟩, ⟨input [] 64 12, by decide⟩, ⟨input [] 129 12, by decide⟩,
    ⟨{ input [] 65 12 with lzLen := 65 }, by decide +kernel⟩, ⟨{ input [] 128 12 with lzLen := 59 }, by decide +kernel⟩,
    input [0, 1, 128] 128 12, 2, by decide +kernel⟩

/-! ### Witnesses: colours -/

/-- Every depth, with the largest pixel it allows. -/
theorem witness_CtLookGivesColourAndTransparency :
    ∀ b ∈ [1, 4, 8, 24, 32], ∃ s : State, s.params.hasCtm = true ∧ s.ctBpp.toNat = b ∧
      s.ctBpp.toNat ∈ [1, 4, 8, 24, 32] ∧ s.pxIn.toNat < 2 ^ s.ctBpp.toNat ∧ s.pxIn.toNat + 1 = 2 ^ b := by
  intro b hb
  refine ⟨{ base with ctBpp := BitVec.ofNat 6 b, pxIn := BitVec.ofNat 32 (2 ^ b - 1) }, ?_⟩
  simp only [List.mem_cons, List.not_mem_nil, or_false] at hb
  rcases hb with rfl | rfl | rfl | rfl | rfl <;> decide +kernel

theorem witness_PzFoldShiftsTheChannelsRight :
    (∃ s : State, s.params.hasPlut = true ∧ s.pzAbits.toNat ≤ 8 ∧ s.colorT = true) ∧
      ∃ s : State, s.params.hasPlut = true ∧ s.pzAbits = 8 ∧ s.pzAbits.toNat ≤ 8 ∧
        ¬ (s.colorT = true ∨ (byte3 s.color).toNat < 128) :=
  ⟨⟨{ base with colorT := true, pzAbits := 0 }, by decide⟩, { base with color := 0x80000000 }, by decide⟩

theorem witness_PzUnfoldShiftsTheChannelsLeft : ∃ s : State, s.params.hasPlut = true ∧ s.pzAbits.toNat ≤ 8 :=
  ⟨base, by decide⟩

theorem witness_UnfoldAfterFoldClearsTheLowBits :
    ∃ (i ab : Nat) (col : Word), i ≤ 7 ∧ ab ≤ 8 ∧ 128 ≤ (byte3 col).toNat ∧ i = 7 ∧ ab = 8 :=
  ⟨7, 8, 0x804080FF, by decide⟩

theorem witness_CtLookGivesColourAndTransparency_faults :
    (∃ s : State, s.params.hasCtm = true ∧ s.ctBpp.toNat ∉ [1, 4, 8, 24, 32]) ∧
      (∃ s : State, s.params.hasCtm = true ∧ s.ctBpp.toNat ∈ [1, 4, 8, 24] ∧ 2 ^ s.ctBpp.toNat ≤ s.pxIn.toNat) ∧
      ∃ s : State, s.params.hasCtm = false :=
  ⟨⟨{ base with ctBpp := 16 }, by decide⟩, ⟨{ base with ctBpp := 24, pxIn := 0x1000000 }, by decide⟩,
    { base with params := { small with hasCtm := false } }, rfl⟩

theorem witness_PzFoldShiftsTheChannelsRight_faults :
    (∃ s : State, s.params.hasPlut = true ∧ 8 < s.pzAbits.toNat) ∧ ∃ s : State, s.params.hasPlut = false :=
  ⟨⟨{ base with pzAbits := 9 }, by decide⟩, { base with params := { small with hasPlut := false } }, rfl⟩

theorem witness_PzUnfoldShiftsTheChannelsLeft_faults :
    (∃ s : State, s.params.hasPlut = true ∧ 8 < s.pzAbits.toNat) ∧ ∃ s : State, s.params.hasPlut = false :=
  witness_PzFoldShiftsTheChannelsRight_faults

/-! ### Witnesses: frames and phases -/

/-- A command that changes much, and one that faults. -/
theorem witness_CommandsWriteOnlyTheirMemories :
    ∃ (s t u : State), exec .lzEnc s = .next t ∧ exec .lzStep s = .next u := by
  obtain ⟨t, h, -⟩ : ∃ t, exec .lzEnc (input [0] 4 12) = .next t ∧ True :=
    exists_next ⟨(after (exec .lzEnc (input [0] 4 12))).getD base, by decide +kernel⟩
  exact ⟨input [0] 4 12, t, faultEntry .seq 0 (input [0] 4 12), h, rfl⟩

theorem witness_CommandsKeepTheOtherRegisters :
    ∃ (i : Instr) (s t : State), i ≠ .rst ∧ exec i s = .next t ∧ (∀ n, i ≠ .upPop n) ∧ i ≠ .ctLook ∧ i ≠ .pzFold ∧
      i ≠ .lzBegin ∧ i ≠ .lzStep ∧ i ≠ .lzEnd ∧ i ≠ .lzEnc :=
  ⟨.pkRst, { base with pkBits := 5 }, finish base, by decide, rfl, (fun n h => by cases h), by decide⟩

/-- Every clause: a completion, RST, LZ_STEP at the end of the input and in IDLE, LZ_END in IDLE and before the end of
the input, PK_RST and PK_PUSH in ACTIVE. -/
theorem witness_PhaseFollowsTheTransitionTable :
    (∀ i ∈ [Instr.nop, .rst], ∃ s t : State, i.wellFormed = true ∧ s.err = false ∧ exec i s = .next t ∧ t.err = false) ∧
      (∀ s ∈ [base, run2 6], ∃ t : State, Instr.lzStep.wellFormed = true ∧ s.err = false ∧ exec .lzStep s = .next t ∧
        (s.phase ≠ .active ∨ s.lzLen.toNat ≤ s.lzPos.toNat) ∧ t.err = true) ∧
      (∀ s ∈ [base, run2 4], ∃ t : State, Instr.lzEnd.wellFormed = true ∧ s.err = false ∧ exec .lzEnd s = .next t ∧
        (s.phase ≠ .active ∨ s.lzPos ≠ s.lzLen) ∧ t.err = true) ∧
      ∀ i ∈ [Instr.pkRst, .pkPush 32], ∃ s t : State, i.wellFormed = true ∧ s.err = false ∧ exec i s = .next t ∧
        s.phase = .active ∧ t.err = true := by
  have atStep : ∀ s ∈ [base, run2 6], exec .lzStep s = .next (faultEntry .seq s.cmd s) := by
    intro s hs
    simp only [List.mem_cons, List.not_mem_nil, or_false] at hs
    rcases hs with rfl | rfl
    · rfl
    · exact eq_next_of_after (by decide +kernel)
  have atEnd : ∀ s ∈ [base, run2 4], exec .lzEnd s = .next (faultEntry .seq s.cmd s) := by
    intro s hs
    simp only [List.mem_cons, List.not_mem_nil, or_false] at hs
    rcases hs with rfl | rfl
    · rfl
    · exact eq_next_of_after (by decide +kernel)
  refine ⟨?_, fun s hs => ⟨_, rfl, ?_, atStep s hs, ?_, rfl⟩, fun s hs => ⟨_, rfl, ?_, atEnd s hs, ?_, rfl⟩, ?_⟩
  · intro i hi
    simp only [List.mem_cons, List.not_mem_nil, or_false] at hi
    rcases hi with rfl | rfl
    · exact ⟨base, finish base, rfl, rfl, rfl, rfl⟩
    · exact ⟨base, softReset base, rfl, rfl, rfl, rfl⟩
  · revert s; decide +kernel
  · revert s; decide +kernel
  · revert s; decide +kernel
  · revert s; decide +kernel
  · intro i hi
    simp only [List.mem_cons, List.not_mem_nil, or_false] at hi
    rcases hi with rfl | rfl
    · exact ⟨{ base with phase := .active }, faultEntry .seq 0 { base with phase := .active }, rfl, rfl, rfl, rfl, rfl⟩
    · exact ⟨{ base with phase := .active }, faultEntry .seq 0 { base with phase := .active }, rfl, rfl, rfl, rfl, rfl⟩

/-! ### Witnesses: host accesses -/

theorem witness_WritingCmdIsCommandAcceptance :
    (∃ s : State, s.busy = false ∧ s.err = false) ∧ (∃ s : State, s.busy = false ∧ s.err = true) ∧
      ∃ s : State, s.busy = true :=
  ⟨⟨base, rfl, rfl⟩, ⟨faultEntry .seq 0 base, rfl, rfl⟩, { base with busy := true }, rfl⟩

/-- Both sides of the equivalence: the last of the ten registers and the next one. -/
theorem witness_BusyStateAdmitsTenRegisterReads :
    ∃ s : State, s.busy = true ∧ (hostRead s 0x24 4).isSome = true ∧ hostRead s 0x28 4 = none :=
  ⟨{ base with busy := true }, by decide +kernel⟩

theorem witness_ErrStateAdmitsReadsAndRstOnly :
    ∃ s : State, s.busy = false ∧ s.err = true ∧ (hostWrite s 0x1C 4 1).isSome = true ∧
      (hostRead s 0x28 4).isSome = true :=
  ⟨faultEntry .seq 0 base, by decide +kernel⟩

/-- A register and the last byte of SYMBUF, in ACTIVE and in IDLE. -/
theorem witness_ConfigurationAndSymbufLockedWhileActive :
    ∃ s : State, s.busy = false ∧ s.err = false ∧ s.params.Legal ∧ s.params.symCap = 64 ∧
      hostWrite s 0x1003F 1 0 = none ∧ (hostWrite { s with phase := .idle } 0x1003F 1 0).isSome = true ∧
      hostWrite s 0x078 4 0 = none :=
  ⟨{ base with phase := .active }, by decide +kernel⟩

/-- Parameters without the optional units, and the first and last offsets of the ranges. -/
theorem witness_ReadOnlyAndUnmappedLocationsRefuse :
    ∃ s : State, s.params.Legal ∧ s.params.hasCtm = false ∧ s.params.hasPlut = false ∧
      (∀ off ∈ [0x000, 0x08C, 0x4000, 0x7FFC, 0x40000, 0x60000], hostWrite s off 4 0 = none) ∧
      ∀ off ∈ [0x030, 0x0BC, 0x0C8, 0x3FC, 0x400, 0x7FC, 0x800, 0x3FFC, 0x8000, 0xFFFC, 0x10040, 0x1FFFC, 0x20040,
          0x3FFFC, 0x40040, 0x5FFFC, 0x60040, 0x0A0, 0x0A8, 0x0C0, 0x0C4, 0x0AC, 0x0B0],
        hostRead s off 4 = none ∧ hostWrite s off 4 0 = none :=
  ⟨{ base with params := { small with hasCtm := false, hasPlut := false } }, by decide +kernel⟩

/-- Outside ACTIVE with both units, and in ACTIVE with one of them. -/
theorem witness_RegistersReadBackTheirImplementedBits :
    (∃ s : State, s.busy = false ∧ s.err = false ∧ s.phase ≠ .active ∧ s.params.hasCtm = true ∧
      s.params.hasPlut = true) ∧
    (∃ s : State, s.busy = false ∧ s.err = false ∧ s.phase = .active ∧ s.params.hasCtm = true ∧
      s.params.hasPlut = false) ∧
    ∃ s : State, s.busy = false ∧ s.err = false ∧ s.phase = .active ∧ s.params.hasCtm = false ∧
      s.params.hasPlut = true :=
  ⟨⟨base, by decide⟩, ⟨{ base with phase := .active, params := { small with hasPlut := false } }, by decide⟩,
    { base with phase := .active, params := { small with hasCtm := false } }, by decide⟩

/-- Every size, at the first offset of SYMBUF and at the last of UBUF, the latter in ACTIVE too. -/
theorem witness_ByteMemoriesAreLittleEndian :
    ∀ n ∈ [1, 2, 4],
      (∃ (s : State) (off : Nat), s.busy = false ∧ s.err = false ∧ s.params.Legal ∧ (n = 1 ∨ n = 2 ∨ n = 4) ∧
        off % n = 0 ∧ 0x10000 ≤ off ∧ off < 0x10000 + s.params.symCap ∧ s.phase ≠ .active ∧ off = 0x10000) ∧
      ∃ (s : State) (off : Nat), s.busy = false ∧ s.err = false ∧ s.params.Legal ∧ (n = 1 ∨ n = 2 ∨ n = 4) ∧
        off % n = 0 ∧ 0x20000 ≤ off ∧ off < 0x20000 + s.params.uCap ∧ s.phase = .active ∧
        off + n = 0x20000 + s.params.uCap := by
  intro n hn
  refine ⟨⟨base, 0x10000, ?_⟩, { base with phase := .active }, 0x20040 - n, ?_⟩ <;> revert n <;> decide +kernel

theorem witness_InterruptBitsAndOutput : ∃ s : State, s.busy = false ∧ s.err = false := ⟨base, rfl, rfl⟩

/-- The last entry of CT, read in the ERR-state and written outside it, the last valid entry of DICT, the next one and
the last of the window. -/
theorem witness_ColourTableAndDictionaryWindows :
    (∃ (s : State) (k : Nat), s.busy = false ∧ s.params.hasCtm = true ∧ k < 256 ∧ s.err = true ∧ k = 255) ∧
      (∃ (s : State) (k : Nat), s.busy = false ∧ s.err = false ∧ s.params.hasCtm = true ∧ k < 256 ∧ k = 255) ∧
      ∃ s : State, s.busy = false ∧ s.lzDsize = 8 ∧ (readDict s 7).kind = .str ∧
        ∀ c ∈ [7, 8, 4095], c < 4096 ∧ (c < s.lzDsize.toNat ↔ c = 7) :=
  ⟨⟨faultEntry .seq 0 base, 255, by decide⟩, ⟨base, 255, by decide⟩, run2 4, by decide +kernel⟩

/-- Every size, at the last offset of each memory, the byte there valid in PBUF and OBUF, and with both empty. -/
theorem witness_ByteWindowsShowTheirMemories :
    ∀ n ∈ [1, 2, 4], ∃ (s : State) (i : Nat), s.busy = false ∧ s.params.Legal ∧ (n = 1 ∨ n = 2 ∨ n = 4) ∧ i % n = 0 ∧
      i < s.params.symCap ∧ i < s.params.uCap ∧ i < s.params.pCap ∧ i < s.params.oCap ∧ i + n = 64 ∧
      (∀ k, k < n → i + k < pkBytes s ∧ i + k < s.obLen.toNat) ∧ ¬ i < pkBytes { s with pkBits := 0 } ∧
      ¬ i < { s with obLen := 0 }.obLen.toNat := by
  intro n hn
  refine ⟨{ base with pkBits := 512, obLen := 64 }, 64 - n, ?_⟩
  revert n
  decide +kernel

/-- The BUSY-state in ACTIVE, one unit only, and a stream of five bits. -/
theorem witness_StatusAndDerivedRegisters :
    (∃ s : State, s.busy = true ∧ s.phase = .active ∧ s.intEn.done = true) ∧
      (∃ s : State, s.busy = false ∧ s.params.hasCtm = true ∧ s.params.hasPlut = false) ∧
      (∃ s : State, s.busy = false ∧ s.params.hasCtm = false ∧ s.params.hasPlut = true) ∧
      ∃ s : State, s.params.Legal ∧ s.pkBits.toNat ≤ 8 * s.params.pCap ∧ s.busy = false ∧ s.pkBits = 5 :=
  ⟨⟨{ base with busy := true, phase := .active, intEn := { done := true, err := false } }, by decide⟩,
    ⟨{ base with params := { small with hasPlut := false } }, by decide⟩,
    ⟨{ base with params := { small with hasCtm := false } }, by decide⟩, fiveBits, by decide +kernel⟩

/-! ### Witnesses: invariants and rules over all steps -/

theorem witness_StepKeepsMemoriesCanonical : ∃ s t : State, memoriesWf s = true ∧ step s = .next t := by
  refine ⟨{ input [0, 1] 4 12 with busy := true, cmd := 0x40 }, _, by decide +kernel, eq_next_of_after (t := ?_) ?_⟩
  · exact (after (step { input [0, 1] 4 12 with busy := true, cmd := 0x40 })).getD base
  · decide +kernel

/-- A state in error with RST accepted, and one without. -/
theorem witness_StepKeepsErrStateConsistent :
    ∃ s t : State, ErrStateOk s ∧ step s = .next t ∧ s.err = true ∧ s.busy = true := by
  refine ⟨{ faultEntry .seq 0 base with busy := true, cmd := 1 }, softReset { faultEntry .seq 0 base with
    busy := true, cmd := 1 }, ⟨?_, ?_, ?_⟩, rfl, rfl, rfl⟩ <;> decide +kernel

theorem witness_StepKeepsTheStreamInvariant : ∃ s t : State, StreamOk s ∧ step s = .next t ∧ s.busy = true := by
  refine ⟨{ fiveBits with busy := true, cmd := 0x10 }, finish { fiveBits with busy := true, cmd := 0x10, pkBits := 0 },
    streamOk_of ?_ ?_ ?_ ?_, rfl, rfl⟩ <;> decide +kernel

theorem witness_StepKeepsTheDictionaryInvariants :
    ∃ s t : State, LzOk s ∧ s.phase ≠ .idle ∧ step s = .next t ∧ s.busy = true ∧ s.cmd = 0x41 := by
  obtain ⟨t, h, -⟩ : ∃ t, step { run2 0 with busy := true, cmd := 0x41 } = .next t ∧ True :=
    exists_next ⟨(after (step { run2 0 with busy := true, cmd := 0x41 })).getD base, by decide +kernel⟩
  refine ⟨{ run2 0 with busy := true, cmd := 0x41 }, t,
    fun _ => ⟨2, 3, ?_, ?_, ?_, ?_, dictOk_of ?_ ?_ ?_ ?_ ?_ ?_ ?_, ?_, ?_, ?_⟩, ?_, h, rfl, rfl⟩ <;> decide +kernel

/-- The default parameters, the smallest and the largest legal ones. -/
theorem witness_ResetMeetsTheInvariants :
    Params.standard.Legal ∧
      ∃ p q : Params, p.Legal ∧ p.symCap = 4 ∧ p.hasCtm = false ∧ q.Legal ∧ q.pCap = 131072 ∧ q.hasPlut = true :=
  ⟨by decide, { symCap := 4, uCap := 4, pCap := 4, oCap := 4, hasCtm := false, hasPlut := false },
    { symCap := 65536, uCap := 65536, pCap := 131072, oCap := 131072, hasCtm := true, hasPlut := true }, by decide⟩

/-- Both ways out of the ERR state. -/
theorem witness_ErrStateLeftOnlyByRstOrHardwareReset :
    (∃ s t : State, s.err = true ∧ step s = .next t ∧ t.err = false ∧ s.inputs = []) ∧
      ∃ s t : State, s.err = true ∧ step s = .next t ∧ t.err = false ∧ s.inputs = [.hardwareReset] :=
  ⟨⟨{ faultEntry .seq 0 base with busy := true, cmd := 1 }, softReset { faultEntry .seq 0 base with
      busy := true, cmd := 1 }, rfl, rfl, rfl, rfl⟩,
    { faultEntry .seq 0 base with inputs := [.hardwareReset] }, hardwareReset (faultEntry .seq 0 base), rfl, rfl, rfl, rfl⟩

/-- A host write that clears one pending bit and keeps the other, and an RST that clears both. -/
theorem witness_PendingInterruptBitsAreSticky :
    (∃ s t : State, step s = .next t ∧ s.intStat = { done := true, err := true } ∧
      t.intStat = { done := false, err := true }) ∧
    ∃ s t : State, step s = .next t ∧ s.intStat = { done := true, err := true } ∧
      t.intStat = { done := false, err := false } ∧ s.busy = true ∧ s.cmd = 1 ∧ EngineMoves s := by
  refine ⟨⟨{ base with intStat := { done := true, err := true }, inputs := [.write 0x20 2 1] }, exists_next
    ⟨(after (step { base with intStat := { done := true, err := true }, inputs := [.write 0x20 2 1] })).getD base, ?_⟩⟩,
    { base with intStat := { done := true, err := true }, busy := true, cmd := 1, inputs := [.engine] },
    softReset { base with intStat := { done := true, err := true }, busy := true, cmd := 1 },
    rfl, rfl, rfl, rfl, rfl, .inr ⟨_, rfl⟩⟩
  decide +kernel

/-- Acceptance, the completion of RST, hardware reset, and a step that keeps CMD. -/
theorem witness_CmdWrittenByAcceptanceAndResetOnly :
    (∃ s t : State, s.inputs = [.write 0x1C 2 0x43] ∧ s.busy = false ∧ step s = .next t ∧ t.cmd = 0x43) ∧
      (∃ s t : State, s.busy = true ∧ s.cmd = 1 ∧ EngineMoves s ∧ step s = .next t ∧ t.cmd = 0) ∧
      (∃ s t : State, s.cmd = 0x43 ∧ s.inputs = [.hardwareReset] ∧ step s = .next t ∧ t.cmd = 0) ∧
      ∃ s t : State, s.cmd = 0x10 ∧ step s = .next t ∧ t.cmd = 0x10 := by
  refine ⟨⟨{ base with inputs := [.write 0x1C 2 0x43] }, { base with cmd := 0x43, busy := true, port := .okWrite },
      rfl, rfl, eq_next_of_after (by decide +kernel), rfl⟩,
    ⟨{ base with busy := true, cmd := 1 }, softReset { base with busy := true, cmd := 1 }, rfl, rfl, .inl rfl, rfl, rfl⟩,
    ⟨{ base with cmd := 0x43, inputs := [.hardwareReset] }, hardwareReset { base with cmd := 0x43 }, rfl, rfl, rfl, rfl⟩,
    { base with busy := true, cmd := 0x10 }, finish { base with busy := true, cmd := 0x10 }, rfl, rfl, rfl⟩

/-- A step that stays in the ERR state: a write of another command is refused. -/
theorem witness_FaultRecordKeptInTheErrState :
    ∃ s t : State, ErrStateOk s ∧ s.err = true ∧ step s = .next t ∧ t.err = true ∧ t.port = .busError := by
  refine ⟨{ faultEntry .seq 0x41 base with inputs := [.write 0x1C 2 0x43] },
    { faultEntry .seq 0x41 base with port := .busError }, ⟨?_, ?_, ?_⟩, rfl, eq_next_of_after ?_, rfl, rfl⟩ <;>
    decide +kernel

/-- Legal parameters, and a step. -/
theorem witness_ConstantRegistersNeverChange :
    (∃ s : State, s.params.Legal) ∧ ∃ s t : State, step s = .next t ∧ s.busy = true :=
  ⟨⟨base, small_legal⟩,
    { base with busy := true, cmd := 1 }, softReset { base with busy := true, cmd := 1 }, rfl, rfl⟩

/-- The refused accesses of each kind, and the last accesses of each byte memory that succeed. -/
theorem witness_OnlySizedAlignedAccessesSucceed :
    ∃ s : State, s.params.Legal ∧ ¬ ((3 : Nat) = 1 ∨ (3 : Nat) = 2 ∨ (3 : Nat) = 4) ∧ 0x10001 % 2 ≠ 0 ∧
      (0x18 < 0x10000 ∧ 2 ≠ 4) ∧ (hostRead s 0x1003C 4).isSome = true ∧ (hostWrite s 0x2003E 2 0).isSome = true ∧
      (hostRead s 0x4003F 1).isSome = true ∧ (hostRead s 0x6003C 4).isSome = true ∧ s.busy = false :=
  ⟨base, small_legal, by decide +kernel⟩

/-- A read and a write, both while a command is in execution. -/
theorem witness_HostCannotDisturbACommand :
    (∃ s t : State, s.busy = true ∧ s.inputs = [.read 0x18 2] ∧ step s = .next t) ∧
      ∃ s t : State, s.busy = true ∧ s.inputs = [.write 0x1C 2 1] ∧ step s = .next t :=
  ⟨⟨{ base with busy := true, inputs := [.read 0x18 2] }, { base with busy := true, port := .okRead 1 }, rfl, rfl,
      eq_next_of_after (by decide +kernel)⟩,
    { base with busy := true, inputs := [.write 0x1C 2 1] }, { base with busy := true, port := .busError }, rfl, rfl,
    eq_next_of_after (by decide +kernel)⟩

/-- A read, a write that succeeds, and one that is refused. -/
theorem witness_RepeatedAccessesAddNothing :
    ∀ m ∈ [.read 0x40000 0, .write 0x20001 0 7, .write 0x18 2 1], ∃ (s t : State) (rest : List Input),
      s.inputs = m :: m :: rest ∧ (∃ addr size, m = .read addr size ∨ (addr ≠ 0x1C ∧ ∃ v, m = .write addr size v)) ∧
      step s = .next t := by
  intro m hm
  simp only [List.mem_cons, List.not_mem_nil, or_false] at hm
  rcases hm with rfl | rfl | rfl
  · exact ⟨{ base with inputs := _ }, _, [], rfl, ⟨_, _, .inl rfl⟩, rfl⟩
  · exact ⟨{ base with inputs := _ }, _, [], rfl, ⟨_, _, .inr ⟨by decide, _, rfl⟩⟩, rfl⟩
  · exact ⟨{ base with inputs := _ }, _, [], rfl, ⟨_, _, .inr ⟨by decide, _, rfl⟩⟩, rfl⟩

end Sys2Proof.Tests
end

section
/-! Which registers a step can change (10_state.md R18, R20): the six constant registers never, CMD at acceptance and
by resets only. Settles O58 and O60. -/

namespace Sys2Proof.Machine

/-! ### The decoder (30_encoding.md R70) -/

/-- A word of format C0 decodes to the command of its row, and only with zeros above the opcode. -/
theorem decodeC0_eq_instr {i j : Instr} {w : Word} :
    decodeC0 i w = .instr j ↔ i = j ∧ w.extractLsb' 8 24 = 0 := by
  unfold decodeC0
  split_ifs with h
  · simp [h]
  · exact ⟨nofun, fun hz => absurd hz.2 h⟩

/-- A word of format CN decodes to the command of its row with its own count. -/
theorem eq_of_decodeCN_eq_instr {f : BitVec 6 → Instr} {j : Instr} {w : Word} (h : decodeCN f w = .instr j) :
    j = f (countField w) := by
  unfold decodeCN at h
  split_ifs at h
  exact (Decoded.instr.inj h).symm

/-- A word with opcode `op` and zeros above it is `op`. -/
theorem eq_of_opField_of_high_zero {w : Word} {op : Nat} (ho : (opField w).toNat = op)
    (hz : w.extractLsb' 8 24 = 0) : w = BitVec.ofNat 32 op := by
  have hw := w.isLt
  have hhigh : w.toNat / 256 % 2 ^ 24 = 0 := by
    simpa [BitVec.extractLsb'_toNat, Nat.shiftRight_eq_div_pow] using congrArg BitVec.toNat hz
  have hlow : w.toNat % 256 = op := by
    simpa [opField, BitVec.extractLsb'_toNat] using ho
  apply BitVec.eq_of_toNat_eq
  rw [BitVec.toNat_ofNat]
  omega

/-- The one word of RST is 1 (30_encoding.md R74). -/
theorem eq_one_of_decode_rst {w : Word} (h : decode w = .instr .rst) : w = 1 := by
  unfold decode at h
  split at h
  case h_2 ho => exact eq_of_opField_of_high_zero ho (decodeC0_eq_instr.1 h).2
  case h_4 => cases eq_of_decodeCN_eq_instr h
  case h_5 => cases eq_of_decodeCN_eq_instr h
  case h_16 => cases h
  all_goals cases (decodeC0_eq_instr.1 h).1

/-! ### Completions -/

/-- No run of a command writes CMD (10_state.md R20). -/
@[simp] theorem runOf_cmd (i : Instr) (s : State) : (runOf i s).state.cmd = s.cmd := by
  rw [runOf_frame]

/-- No run of a command changes the parameters (10_state.md R18). -/
@[simp] theorem runOf_params (i : Instr) (s : State) : (runOf i s).state.params = s.params := by
  rw [runOf_frame]

/-- How a command ends: RST in its reset, every other command by `finish` or fault entry after its run
(30_encoding.md R73). -/
theorem exec_cases {i : Instr} {s t : State} (h : exec i s = .next t) :
    (i = .rst ∧ t = softReset s) ∨ t = finish (runOf i s).state ∨
      ∃ f info, t = faultEntry f info (runOf i s).state := by
  by_cases hi : i = .rst
  · subst hi
    exact .inl ⟨rfl, (Host.Outcome.next.inj h).symm⟩
  · rw [exec_eq_conclude i s hi] at h
    exact .inr (conclude_state h)

/-- What every completion does to the parameters and to BUSY. -/
theorem exec_params_busy {i : Instr} {s t : State} (h : exec i s = .next t) :
    t.params = s.params ∧ t.busy = false := by
  rcases exec_cases h with ⟨-, rfl⟩ | rfl | ⟨f, info, rfl⟩ <;> simp

/-- Of the completions only that of RST writes CMD, and sets it to 0 (10_state.md R20). -/
theorem exec_cmd {i : Instr} {s t : State} (h : exec i s = .next t) : t.cmd = s.cmd ∨ i = .rst ∧ t.cmd = 0 := by
  rcases exec_cases h with ⟨hi, rfl⟩ | rfl | ⟨f, info, rfl⟩
  · exact .inr ⟨hi, softReset_cmd s⟩
  · simp
  · simp

/-! ### Host writes -/

/-- No host write changes the parameters. -/
theorem hostWrite_params {s t : State} {off n : Nat} {v : Word} (h : hostWrite s off n v = some t) :
    t.params = s.params := by
  rw [hostWrite_frame h]

/-- The write of a register other than CMD leaves CMD and BUSY alone. -/
theorem writeReg_cmd_busy {r : Reg} (hr : r ≠ .cmd) (s : State) (v : Word) :
    (writeReg s r v).cmd = s.cmd ∧ (writeReg s r v).busy = s.busy := by
  cases r with
  | cmd => exact absurd rfl hr
  | _ => exact ⟨rfl, rfl⟩

/-- A successful host write either leaves CMD and BUSY alone, or is the acceptance of its value as a command, by a
4-byte write to CMD outside the BUSY-state (30_encoding.md R72). -/
theorem hostWrite_cmd_busy {s t : State} {off n : Nat} {v : Word} (h : hostWrite s off n v = some t) :
    (t.cmd = s.cmd ∧ t.busy = s.busy) ∨
      (off = 0x1C ∧ n = 4 ∧ s.busy = false ∧ t.busy = true ∧ t.cmd = v) := by
  obtain ⟨hb, hc⟩ := hostWrite_cases h
  rcases hc with ⟨-, hoff, hn, rfl, rfl⟩ | ⟨-, ⟨r, g, hn, hoff, -, -, -, rfl⟩ | ⟨k, g, rfl⟩ | ⟨i, g, -, rfl⟩ |
      ⟨i, g, rfl⟩⟩
  · exact .inr ⟨hoff, hn, hb, rfl, rfl⟩
  · by_cases hr : r = .cmd
    · subst hr
      exact .inr ⟨hoff, hn, hb, rfl, rfl⟩
    · exact .inl (writeReg_cmd_busy hr s v)
  · exact .inl ⟨rfl, rfl⟩
  · exact .inl ⟨rfl, rfl⟩
  · exact .inl ⟨rfl, rfl⟩

/-- A transfer of 4 bytes has h_size 2 (20_memory.md R50). -/
theorem portBytes_eq_four {size : BitVec 2} : portBytes size = 4 ↔ size = 2 := by
  revert size
  decide

/-! ### One step -/

/-- The parameters stay, whatever the step (00_scope.md R5, 10_state.md R18). -/
theorem step_params {s t : State} (h : step s = .next t) : t.params = s.params := by
  rcases step_cases h with ht | ⟨rest, addr, size, v, u, -, hu, rfl⟩ | ⟨rest, -, rfl⟩ |
      ⟨rest, -, -, ⟨i, -, hx⟩ | ⟨-, rfl⟩⟩
  · rw [ht]
  · exact (hostWrite_params hu :)
  · rfl
  · exact (exec_params_busy hx).1
  · rfl

/-- What a step does to CMD and BUSY: it keeps CMD and does not raise BUSY, or accepts a command, or resets CMD with
BUSY down (10_state.md R20). -/
theorem step_cmd_busy {s t : State} (h : step s = .next t) :
    (t.cmd = s.cmd ∧ (s.busy = false → t.busy = false)) ∨
      (∃ v rest, s.inputs = .write 0x1C 2 v :: rest ∧ s.busy = false ∧ t.busy = true ∧ t.cmd = v) ∨
      (t.cmd = 0 ∧ t.busy = false ∧
        ((∃ rest, s.inputs = .hardwareReset :: rest) ∨ (s.busy = true ∧ s.cmd = 1 ∧ EngineMoves s))) := by
  rcases step_cases h with ht | ⟨rest, addr, size, v, u, hin, hu, rfl⟩ | ⟨rest, hin, rfl⟩ |
      ⟨rest, hin, hb, ⟨i, hi, hx⟩ | ⟨-, rfl⟩⟩
  · rw [ht]
    exact .inl ⟨rfl, id⟩
  · rcases hostWrite_cmd_busy hu with ⟨hc, hb⟩ | ⟨hoff, hn, hb, hb', hc⟩
    · exact .inl ⟨hc, hb.trans⟩
    · obtain rfl : addr = 0x1C := BitVec.eq_of_toNat_eq hoff
      obtain rfl := portBytes_eq_four.1 hn
      exact .inr (.inl ⟨v, rest, hin, hb, hb', hc⟩)
  · exact .inr (.inr ⟨rfl, rfl, .inl ⟨rest, hin⟩⟩)
  · have hidle := (exec_params_busy hx).2
    rcases exec_cmd hx with hc | ⟨rfl, hc⟩
    · exact .inl ⟨hc, fun _ => hidle⟩
    · have hm : EngineMoves s := hin.imp And.left fun hin => ⟨rest, hin⟩
      exact .inr (.inr ⟨hc, hidle, .inr ⟨hb, eq_one_of_decode_rst hi, hm⟩⟩)
  · exact .inl ⟨rfl, fun _ => rfl⟩

/-- Settles O58, from what a step does to CMD and BUSY. -/
theorem cmdWrittenByAcceptanceAndResetOnly : Obligations.CmdWrittenByAcceptanceAndResetOnly := by
  refine ⟨fun s => hostRead_reg (r := .cmd) rfl (.inr rfl), fun s t h => ?_⟩
  rcases step_cmd_busy h with ⟨hc, hstay⟩ | ⟨v, rest, hin, hb, hb', hc⟩ | ⟨hc, hidle, hreset⟩
  · exact ⟨.inl hc, fun hb hb' => by simp [hstay hb] at hb'⟩
  · exact ⟨.inr (.inl ⟨v, rest, hin, hb, hb', hc⟩), fun _ _ => ⟨v, rest, hin, hc⟩⟩
  · exact ⟨.inr (.inr ⟨hc, hreset⟩), fun _ hb' => by simp [hidle] at hb'⟩

/-! ### The constant registers (10_state.md R18) -/

/-- The six registers that hold parameters of the implementation. -/
abbrev constantRegs : List Reg := [.id, .cap, .capSym, .capU, .capP, .capO]

/-- A constant register can be read in every state, the BUSY-state included (20_memory.md R55). -/
theorem hostRead_constant (s : State) {r : Reg} (hr : r ∈ constantRegs) :
    hostRead s (regOffset r) 4 = some (readReg s r) := by
  have hp : regPresent s.params r = true ∧ regReadableBusy r = true := by
    fin_cases hr <;> exact ⟨rfl, rfl⟩
  exact hostRead_reg hp.1 (.inr hp.2)

/-- A constant register is a function of the parameters alone. -/
theorem readReg_constant {s t : State} (h : t.params = s.params) {r : Reg} (hr : r ∈ constantRegs) :
    readReg t r = readReg s r := by
  fin_cases hr <;> simp only [readReg, h]

/-- The fields of CAP: HAS_CTM, HAS_PLUT, W_MAX = 12 and zeros. -/
theorem capWord_fields (p : Params) :
    (capWord p).getLsbD 0 = p.hasCtm ∧ (capWord p).getLsbD 1 = p.hasPlut ∧
      (capWord p).extractLsb' 4 4 = 12 ∧ (capWord p).extractLsb' 2 2 = 0 ∧ (capWord p).extractLsb' 8 24 = 0 := by
  unfold capWord
  cases p.hasCtm <;> cases p.hasPlut <;> decide

/-- A word can hold every legal capacity (00_scope.md R5). -/
theorem capacity_toNat {c : Nat} (h : c ≤ 131072) : (BitVec.ofNat 32 c).toNat = c := by
  rw [BitVec.toNat_ofNat]
  omega

/-- Each capacity register reads as its parameter (10_state.md R18). -/
theorem hostRead_capacity {s : State} (h : s.params.Legal) :
    ∀ p ∈ [(0x008, s.params.symCap), (0x00C, s.params.uCap), (0x010, s.params.pCap), (0x014, s.params.oCap)],
      ∃ w, hostRead s p.1 4 = some w ∧ w.toNat = p.2 := by
  obtain ⟨⟨-, hsym, -⟩, ⟨-, hu, -⟩, ⟨-, hpb, -⟩, ⟨-, ho, -⟩⟩ := h
  simp only [List.forall_mem_cons, List.not_mem_nil, false_implies, implies_true, and_true]
  exact ⟨⟨_, hostRead_constant s (r := .capSym) (by decide), capacity_toNat (by omega)⟩,
    ⟨_, hostRead_constant s (r := .capU) (by decide), capacity_toNat (by omega)⟩,
    ⟨_, hostRead_constant s (r := .capP) (by decide), capacity_toNat (by omega)⟩,
    ⟨_, hostRead_constant s (r := .capO) (by decide), capacity_toNat (by omega)⟩⟩

/-- What the constant registers read as with the default parameters. -/
theorem hostRead_constant_reset :
    hostRead State.reset 0x004 4 = some 0x000000C3 ∧ hostRead State.reset 0x008 4 = some 0x00010000 ∧
      hostRead State.reset 0x00C 4 = some 0x00010000 ∧ hostRead State.reset 0x010 4 = some 0x00020000 ∧
      hostRead State.reset 0x014 4 = some 0x00020000 :=
  ⟨hostRead_constant _ (r := .cap) (by decide), hostRead_constant _ (r := .capSym) (by decide),
    hostRead_constant _ (r := .capU) (by decide), hostRead_constant _ (r := .capP) (by decide),
    hostRead_constant _ (r := .capO) (by decide)⟩

/-- Settles O60: the constant registers are readable functions of the parameters, and no step changes those. -/
theorem constantRegistersNeverChange : Obligations.ConstantRegistersNeverChange := by
  refine ⟨fun s hs => ⟨?_, ⟨capWord s.params, ?_, capWord_fields _⟩, hostRead_capacity hs⟩,
    hostRead_constant_reset, fun s t h r hr => ?_⟩
  · exact hostRead_constant s (r := .id) (by decide)
  · exact hostRead_constant s (r := .cap) (by decide)
  · rw [hostRead_constant t hr, hostRead_constant s hr, readReg_constant (step_params h) hr]

end Sys2Proof.Machine
end

section
/-! Which accesses reach a location at all (20_memory.md R51, R52, R54): the sizes a target takes, the byte windows,
and where an access that fits lies in them. Settles O48. -/

namespace Sys2Proof.Machine

/-! ### The byte windows (20_memory.md R51) -/

/-- Where the window of a byte memory begins (20_memory.md R51). -/
def byteBase : Space → Nat
  | .symbuf => 0x10000
  | .ubuf => 0x20000
  | .pbuf => 0x40000
  | .obuf => 0x60000

/-- The capacity of a byte memory (00_scope.md R5). -/
def byteCap (p : Params) : Space → Nat
  | .symbuf => p.symCap
  | .ubuf => p.uCap
  | .pbuf => p.pCap
  | .obuf => p.oCap

/-- Windows and capacities are whole words, and no window reaches down to the registers, CT and DICT. -/
theorem byteWindow_aligned {p : Params} (h : p.Legal) (m : Space) :
    0x10000 ≤ byteBase m ∧ byteBase m % 4 = 0 ∧ byteCap p m % 4 = 0 := by
  obtain ⟨⟨-, -, hsym⟩, ⟨-, -, hu⟩, ⟨-, -, hpb⟩, ⟨-, -, ho⟩⟩ := h
  cases m with
  | symbuf => exact ⟨by decide, by decide, hsym⟩
  | ubuf => exact ⟨by decide, by decide, hu⟩
  | pbuf => exact ⟨by decide, by decide, hpb⟩
  | obuf => exact ⟨by decide, by decide, ho⟩

/-- A mapped offset names a byte exactly where the window of its memory has it. -/
theorem targetAt_eq_byte {p : Params} (h : p.Legal) {off i : Nat} {m : Space} :
    targetAt p off = some (.byte m i) ↔ off = byteBase m + i ∧ i < byteCap p m := by
  constructor
  · intro ht
    unfold targetAt at ht
    split_ifs at ht
    · split at ht
      · split_ifs at ht
        cases ht
      · cases ht
    · cases ht
    · cases ht
    all_goals
      cases ht
      simp only [byteBase, byteCap]
      omega
  · rintro ⟨rfl, hi⟩
    obtain ⟨hsym, hu, hpb, ho⟩ := targetAt_byte h i
    cases m with
    | symbuf => exact hsym hi
    | ubuf => exact hu hi
    | pbuf => exact hpb hi
    | obuf => exact ho hi

/-- From 0x10000 on nothing but the byte memories is mapped. -/
theorem exists_byte_of_targetAt {p : Params} {off : Nat} {g : Target} (h : targetAt p off = some g)
    (hoff : 0x10000 ≤ off) : ∃ m i, g = .byte m i := by
  unfold targetAt at h
  rw [if_neg (by omega), if_neg (by omega), if_neg (by omega)] at h
  split_ifs at h <;> exact ⟨_, _, (Option.some.inj h).symm⟩

/-! ### Sizes and alignment (20_memory.md R54) -/

/-- What every access that reaches a target meets: conditions (1) to (3) of 20_memory.md R52. -/
theorem accessTarget_eq_some {s : State} {off n : Nat} {g : Target} :
    accessTarget s off n = some g ↔
      (n = 1 ∨ n = 2 ∨ n = 4) ∧ off % n = 0 ∧ targetAt s.params off = some g ∧ sizeAllowed g n = true := by
  unfold accessTarget
  constructor
  · intro h
    split_ifs at h with hna
    split at h
    · next g' ht =>
      split_ifs at h with hs
      cases h
      exact ⟨hna.1, hna.2, ht, hs⟩
    · cases h
  · rintro ⟨hn, ha, ht, hs⟩
    rw [if_pos ⟨hn, ha⟩, ht]
    simp only [hs, if_true]

/-- Below the byte windows every access is of a whole word: registers, CT and DICT take no other. -/
theorem size_eq_four_of_low {s : State} (h : s.params.Legal) {off n : Nat} {g : Target}
    (hg : accessTarget s off n = some g) (hoff : off < 0x10000) : n = 4 := by
  obtain ⟨-, -, ht, hs⟩ := accessTarget_eq_some.1 hg
  cases g with
  | reg r => exact beq_iff_eq.1 hs
  | ct k => exact beq_iff_eq.1 hs
  | dict c => exact beq_iff_eq.1 hs
  | byte m i =>
    have hbase := (byteWindow_aligned h m).1
    have hi := (targetAt_eq_byte h).1 ht
    omega

/-- An access reaches a byte memory exactly when it is sized, aligned and wholly inside: aligned accesses never cross
the end, since windows and capacities are whole words. -/
theorem accessTarget_eq_byte {s : State} (h : s.params.Legal) {off n i : Nat} {m : Space} :
    accessTarget s off n = some (.byte m i) ↔
      (n = 1 ∨ n = 2 ∨ n = 4) ∧ off % n = 0 ∧ off = byteBase m + i ∧ i + n ≤ byteCap s.params m := by
  obtain ⟨-, hbase, hcap⟩ := byteWindow_aligned h m
  constructor
  · intro hg
    obtain ⟨hn, ha, ht, -⟩ := accessTarget_eq_some.1 hg
    obtain ⟨hoff, hi⟩ := (targetAt_eq_byte h).1 ht
    refine ⟨hn, ha, hoff, ?_⟩
    rcases hn with rfl | rfl | rfl <;> omega
  · rintro ⟨hn, ha, hoff, hi⟩
    exact accessTarget_byte ((targetAt_eq_byte h).2 ⟨hoff, by omega⟩) hn ha

/-! ### Accesses that succeed -/

/-- An access that reaches no target is refused, read or write. -/
theorem host_refuses_of_no_target {s : State} {off n : Nat} (v : Word) (h : ∀ g, accessTarget s off n ≠ some g) :
    hostRead s off n = none ∧ hostWrite s off n v = none := by
  have hnone := Option.eq_none_iff_forall_ne_some.2 h
  constructor
  · rw [hostRead, hnone]
  · rw [hostWrite, hnone]

/-- An access that succeeds, read or write, reaches a target. -/
theorem exists_target_of_success {s : State} {off n : Nat} {v : Word}
    (h : (hostRead s off n).isSome = true ∨ (hostWrite s off n v).isSome = true) :
    ∃ g, accessTarget s off n = some g := by
  by_contra hno
  obtain ⟨hr, hw⟩ := host_refuses_of_no_target v (not_exists.1 hno)
  simp [hr, hw] at h

/-- An access that is not sized and aligned for what it names reaches nothing. -/
theorem not_accessTarget_of_misfit {s : State} (h : s.params.Legal) {off n : Nat}
    (hbad : ¬ (n = 1 ∨ n = 2 ∨ n = 4) ∨ off % n ≠ 0 ∨ (off < 0x10000 ∧ n ≠ 4)) (g : Target) :
    accessTarget s off n ≠ some g := by
  intro hg
  obtain ⟨hn, ha, -⟩ := accessTarget_eq_some.1 hg
  rcases hbad with hsize | hmis | ⟨hlow, hword⟩
  · exact hsize hn
  · exact hmis ha
  · exact hword (size_eq_four_of_low h hg hlow)

/-- A successful access in the byte windows is not empty and lies wholly inside one memory. -/
theorem wholly_inside_of_success {s : State} (h : s.params.Legal) {off n : Nat} {v : Word}
    (hok : (hostRead s off n).isSome = true ∨ (hostWrite s off n v).isSome = true) (hoff : 0x10000 ≤ off) :
    0 < n ∧ ∃ m, byteBase m ≤ off ∧ off + n ≤ byteBase m + byteCap s.params m := by
  obtain ⟨g, hg⟩ := exists_target_of_success hok
  obtain ⟨-, -, ht, -⟩ := accessTarget_eq_some.1 hg
  obtain ⟨m, i, rfl⟩ := exists_byte_of_targetAt ht hoff
  obtain ⟨hn, -, rfl, hi⟩ := (accessTarget_eq_byte h).1 hg
  exact ⟨by omega, m, by omega, by omega⟩

/-- Outside the BUSY-state every sized, aligned read wholly inside a byte memory succeeds (20_memory.md R55). -/
theorem hostRead_isSome_of_wholly_inside {s : State} (h : s.params.Legal) (hb : s.busy = false) {off n : Nat}
    (hn : n = 1 ∨ n = 2 ∨ n = 4) (ha : off % n = 0) (m : Space)
    (hin : byteBase m ≤ off ∧ off + n ≤ byteBase m + byteCap s.params m) : (hostRead s off n).isSome = true := by
  obtain ⟨i, rfl⟩ := Nat.exists_eq_add_of_le hin.1
  rw [hostRead_byte ((targetAt_eq_byte h).2 ⟨rfl, by omega⟩) hn ha hb]
  rfl

/-- Settles O48: a misfit reaches no target; the byte windows are disjoint, so the one a successful access lies in is
the one its offset names; and a read that fits finds its byte. -/
theorem onlySizedAlignedAccessesSucceed : Obligations.OnlySizedAlignedAccessesSucceed := by
  intro s off n v h
  refine ⟨fun hbad => host_refuses_of_no_target v (not_accessTarget_of_misfit h hbad), fun hok => ?_,
    fun hb hn ha hin => ?_⟩
  · by_cases hoff : 0x10000 ≤ off
    · obtain ⟨hpos, m, hbase, hend⟩ := wholly_inside_of_success h hok hoff
      obtain ⟨⟨-, hsym, -⟩, ⟨-, hu, -⟩, ⟨-, hpb, -⟩, -⟩ := h
      cases m <;> simp only [byteBase, byteCap] at hbase hend <;> omega
    · omega
  · rcases hin with hin | hin | hin | hin
    · exact hostRead_isSome_of_wholly_inside h hb hn ha .symbuf hin
    · exact hostRead_isSome_of_wholly_inside h hb hn ha .ubuf hin
    · exact hostRead_isSome_of_wholly_inside h hb hn ha .pbuf hin
    · exact hostRead_isSome_of_wholly_inside h hb hn ha .obuf hin

end Sys2Proof.Machine
end

section
/-! Command acceptance (30_encoding.md R72): when a write to CMD succeeds, and the state it makes. Settles O37. -/

namespace Sys2Proof.Machine

/-- A write of the register CMD is acceptance and moves nothing else, `gen` included (30_encoding.md R72). -/
theorem writeMoves_writeReg_cmd (s : State) (w : Word) :
    writeMoves (.reg .cmd) s (writeReg s .cmd w) = { s with cmd := w, busy := true } :=
  if_pos (.inl rfl)

/-- CMD takes a word exactly outside the BUSY-state, and in the ERR-state only the word of RST (20_memory.md R55). -/
theorem writePermitted_cmd {s : State} {w : Word} :
    writePermitted s (.reg .cmd) w = true ↔ s.busy = false ∧ (s.err = true → w = 1) := by
  unfold writePermitted
  cases hb : s.busy with
  | true => simp
  | false =>
    cases he : s.err with
    | true => simp
    | false => simp [hostWritable, regWritable, lockedWhileActive, regLocked]

/-- What the write of a word to CMD does, in every state: it is accepted where it is permitted, else refused
(30_encoding.md R72). -/
theorem hostWrite_cmd (s : State) (w : Word) :
    hostWrite s 0x01C 4 w =
      if s.busy = false ∧ (s.err = true → w = 1) then some { s with cmd := w, busy := true } else none := by
  have hreach : accessTarget s 0x01C 4 = some (.reg .cmd) := accessTarget_eq_reg.2 ⟨rfl, rfl, rfl⟩
  unfold hostWrite
  rw [hreach]
  simp only [writePermitted_cmd, writeTarget, writeMoves_writeReg_cmd]

/-- Settles O37: the one condition of acceptance, read in the IDLE-state, the ERR-state and the BUSY-state. -/
theorem writingCmdIsCommandAcceptance : Obligations.WritingCmdIsCommandAcceptance := by
  intro s w
  refine ⟨fun hb he => ?idle, fun hb he => ?err, fun hb => ?busy⟩
  case idle => simp [hostWrite_cmd, hb, he]
  case err => simp [hostWrite_cmd, hb, he]
  case busy => simp [hostWrite_cmd, hb]

end Sys2Proof.Machine
end

section
/-! The command NOP (40_control.md R85): its word, its completion, and its refusal in the ERR-state. Settles O7. -/

namespace Sys2Proof.Machine

/-- The word of NOP is 0 (30_encoding.md R74). -/
theorem decode_zero : decode 0x00000000 = .instr .nop := by decide

/-- NOP is the completion of an empty run: only the flags of `finish` move (40_control.md R85; 30_encoding.md R73). -/
theorem exec_nop (s : State) : exec .nop s = .next (finish s) := by
  rw [exec_eq_conclude .nop s nofun, runOf, conclude_ok]

/-- In the ERR-state CMD refuses every word but that of RST (20_memory.md R55). -/
theorem hostWrite_cmd_eq_none_of_err {s : State} (he : s.err = true) {w : Word} (hw : w ≠ 1) :
    hostWrite s 0x01C 4 w = none := by
  rw [hostWrite_cmd, if_neg]
  rintro ⟨-, hword⟩
  exact hw (hword he)

/-- Settles O7: the word, the completion of an empty run, and the refusal of a word other than RST's. -/
theorem nopOnlyCompletes : Obligations.NopOnlyCompletes := by
  refine ⟨decode_zero, fun s => ⟨finish s, exec_nop s, ?flags⟩, fun s _ he => ?refused⟩
  case flags => rfl
  case refused => exact hostWrite_cmd_eq_none_of_err he (by decide)

end Sys2Proof.Machine
end

section
/-! The bit-packer commands PK_RST and PK_PUSH (41_bitpacker.md R90 to R92): their words, their faults in the order
tested, and what an append leaves in the packed stream. Settles O11 and O12. -/

namespace Sys2Proof.Machine

/-! ### The words (30_encoding.md R74) -/

/-- The one word of PK_RST. -/
theorem decode_pkRst_word : decode 0x00000010 = .instr .pkRst := by decide

/-- The decoder reads a legal count back from the word of PK_PUSH. -/
theorem decode_pkPush_word {n : BitVec 6} (hn : n.toNat ≤ 32) :
    decode (BitVec.ofNat 32 (0x11 + 256 * n.toNat)) = .instr (.pkPush n) := by
  obtain ⟨hop, hcount, hhigh⟩ := Laws.WordFields.pkPush n
  change decode (encode (.pkPush n)) = _
  have hrow : decode (encode (.pkPush n)) = decodeCN .pkPush (encode (.pkPush n)) := by
    unfold decode
    rw [hop]
    rfl
  have hlegal : countLegal (countField (encode (.pkPush n))) = true := by
    rw [hcount]
    exact decide_eq_true hn
  rw [hrow, decodeCN, if_pos hhigh, if_pos hlegal, hcount, Instr.countBits]

/-! ### The run of PK_RST (41_bitpacker.md R91) -/

theorem exec_pkRst (s : State) : exec .pkRst s = conclude (pkRstRun s) := exec_eq_conclude .pkRst s nofun

theorem pkRstRun_of_active {s : State} (hph : s.phase = .active) : pkRstRun s = .raise .seq s.cmd s := if_pos hph

theorem pkRstRun_of_not_active {s : State} (hph : s.phase ≠ .active) : pkRstRun s = .ok { s with pkBits := 0 } :=
  if_neg hph

/-- Settles O11: the run of PK_RST tests the phase and nothing else. -/
theorem pkRstEmptiesTheStreamOrFaults : Obligations.PkRstEmptiesTheStreamOrFaults := by
  refine ⟨decode_pkRst_word, fun s => ⟨fun hph => ?empties, fun hph => ?faults⟩⟩
  case empties =>
    refine ⟨finish { s with pkBits := 0 }, ?_, rfl⟩
    rw [exec_pkRst, pkRstRun_of_not_active hph, conclude_ok]
  case faults => rw [exec_pkRst, pkRstRun_of_active hph, conclude_raise]

/-! ### The state after an append (41_bitpacker.md R90) -/

/-- What `pk_push(v, n)` makes of a state whose packed stream has room for n bits. -/
def appendBits (v n : Nat) (s : State) : State :=
  { s with
    pbuf := mergeBits s.epoch s.pkBits.toNat v n s.pbuf
    pkBits := BitVec.ofNat 32 (s.pkBits.toNat + n) }

theorem pkPush_of_room {v n : Nat} {s : State} (hroom : s.pkBits.toNat + n ≤ 8 * s.params.pCap) :
    pkPush v n s = .ok (appendBits v n s) := by
  rcases pkPush_cases v n s with ⟨hfull, -⟩ | ⟨-, hok⟩
  · omega
  · exact hok

theorem pkPush_of_no_room {v n : Nat} {s : State} (hfull : 8 * s.params.pCap < s.pkBits.toNat + n) :
    pkPush v n s = .raise .ovf 0 s := by
  rcases pkPush_cases v n s with ⟨-, hraise⟩ | ⟨hroom, -⟩
  · exact hraise
  · omega

/-- A legal capacity keeps the count of bits below 2 ^ 32, so PK_BITS does not wrap. -/
theorem appendBits_pkBits_toNat (v : Nat) {n : Nat} {s : State} (hs : s.params.Legal)
    (hroom : s.pkBits.toNat + n ≤ 8 * s.params.pCap) :
    (appendBits v n s).pkBits.toNat = s.pkBits.toNat + n := by
  obtain ⟨-, -, ⟨-, hcap, -⟩, -⟩ := hs
  exact Nat.mod_eq_of_lt (by omega)

/-- An append to a padded stream keeps its bits, puts the n bits of `v` behind them, bit 0 first, and pads the last
byte with 0 (10_state.md R36). -/
theorem pbufBit_appendBits (v : Nat) {n : Nat} {s : State} (hs : StreamOk s)
    (hroom : s.pkBits.toNat + n ≤ 8 * s.params.pCap) :
    (∀ j, j < s.pkBits.toNat → pbufBit (appendBits v n s) j = pbufBit s j) ∧
      (∀ k, k < n → pbufBit (appendBits v n s) (s.pkBits.toNat + k) = v.testBit k) ∧
      ∀ j, (appendBits v n s).pkBits.toNat ≤ j → j < 8 * pkBytes (appendBits v n s) →
        pbufBit (appendBits v n s) j = false := by
  unfold pkBytes
  rw [appendBits_pkBits_toNat v hs.legal hroom]
  exact streamBit_mergeBits s.epoch s.pkBits.toNat v n s.pbuf hs.padded

/-- An append leaves every byte that it does not enter. -/
theorem readPbuf_appendBits {v n i : Nat} {s : State}
    (hi : i < s.pkBits.toNat / 8 ∨ (s.pkBits.toNat + n + 7) / 8 ≤ i) :
    readPbuf (appendBits v n s) i = readPbuf s i :=
  byteAt_mergeBits _ _ _ _ _ _ hi

/-! ### The run of PK_PUSH (41_bitpacker.md R92) -/

/-- With a legal count PK_PUSH is the completion of its run. -/
theorem exec_pkPush {n : BitVec 6} (hn : n.toNat ≤ 32) (s : State) :
    exec (.pkPush n) s = conclude (pkPushRun n.toNat s) := by
  have hlegal : countLegal n = true := decide_eq_true hn
  rw [exec_eq_conclude (.pkPush n) s nofun, runOf, if_pos hlegal]

theorem pkPushRun_of_active {n : Nat} {s : State} (hph : s.phase = .active) :
    pkPushRun n s = .raise .seq s.cmd s := if_pos hph

theorem pkPushRun_of_too_large {n : Nat} {s : State} (hph : s.phase ≠ .active) (hv : 2 ^ n ≤ s.pkData.toNat) :
    pkPushRun n s = .raise .pkRange s.pkData s := by
  rw [pkPushRun, if_neg hph, if_pos hv]

theorem pkPushRun_of_small {n : Nat} {s : State} (hph : s.phase ≠ .active) (hv : s.pkData.toNat < 2 ^ n) :
    pkPushRun n s = pkPush s.pkData.toNat n s := by
  rw [pkPushRun, if_neg hph, if_neg hv.not_ge]

/-- Settles O12: the three tests in order, then the append of the bits of PK_DATA. -/
theorem pkPushAppendsTheBitsOfPkData : Obligations.PkPushAppendsTheBitsOfPkData := by
  intro s n hn
  rw [exec_pkPush hn]
  refine ⟨decode_pkPush_word hn, fun hph => ?seq, fun hph hv => ?range, fun hph hv hfull => ?ovf,
    fun hs hph hv hroom => ?append⟩
  case seq => rw [pkPushRun_of_active hph, conclude_raise]
  case range => rw [pkPushRun_of_too_large hph hv, conclude_raise]
  case ovf => rw [pkPushRun_of_small hph hv, pkPush_of_no_room hfull, conclude_raise]
  case append =>
    rw [pkPushRun_of_small hph hv, pkPush_of_room hroom, conclude_ok]
    have hlength := appendBits_pkBits_toNat s.pkData.toNat hs.legal hroom
    obtain ⟨hbefore, hnew, hpad⟩ := pbufBit_appendBits s.pkData.toNat hs hroom
    exact ⟨finish (appendBits s.pkData.toNat n.toNat s), rfl, rfl, hlength, hbefore, hnew, hpad,
      fun i hi => readPbuf_appendBits hi⟩

end Sys2Proof.Machine
end

section
/-! The bit-unpacker commands UP_POP and UP_ALIGN (42_bitunpacker.md R100 to R102): their words, their faults in the
order tested, the bits a pop returns, and the byte boundary an alignment reaches. Settles O13 and O14. -/

namespace Sys2Proof.Machine

/-! ### The words (30_encoding.md R74) -/

/-- A row of format CN reads a legal count back from the word OP + 256 * N, whatever its opcode. -/
theorem decodeCN_word (f : BitVec 6 → Instr) (op : BitVec 8) {n : BitVec 6} (hn : n.toNat ≤ 32) :
    decodeCN f (BitVec.ofNat 32 (op.toNat + 2 ^ 8 * n.toNat)) = .instr (f n) := by
  obtain ⟨-, hcount, hhigh⟩ := Laws.WordFields.fields_of_word n op
  have hlegal : countLegal n = true := decide_eq_true hn
  rw [decodeCN, if_pos hhigh, hcount, if_pos hlegal]

/-- The opcode of UP_POP selects its row, of format CN. -/
theorem decode_of_opField_upPop {w : Word} (hop : opField w = 0x21) : decode w = decodeCN .upPop w := by
  unfold decode
  rw [hop]
  rfl

/-- The decoder reads a legal count back from the word of UP_POP. -/
theorem decode_upPop_word {n : BitVec 6} (hn : n.toNat ≤ 32) :
    decode (BitVec.ofNat 32 (0x21 + 256 * n.toNat)) = .instr (.upPop n) :=
  (decode_of_opField_upPop (Laws.WordFields.upPop n).1).trans (decodeCN_word .upPop 0x21 hn)

/-- The one word of UP_ALIGN. -/
theorem decode_upAlign_word : decode 0x00000022 = .instr .upAlign := by decide

/-! ### The cursor (10_state.md R24) -/

/-- A legal stream holds fewer than 2 ^ 32 bits, so a cursor inside it does not wrap. -/
theorem toNat_cursor_of_le {s : State} (hs : s.params.Legal) (hlen : s.upLen.toNat ≤ s.params.uCap) {j : Nat}
    (hj : j ≤ 8 * s.upLen.toNat) : (BitVec.ofNat 32 j).toNat = j := by
  obtain ⟨-, ⟨-, hcap, -⟩, -, -⟩ := hs
  exact Nat.mod_eq_of_lt (by omega)

/-! ### The state after a pop (42_bitunpacker.md R101) -/

/-- What UP_POP n makes of a state whose stream still holds n bits. -/
def popBits (n : Nat) (s : State) : State :=
  { s with
    upData := BitVec.ofNat 32 (upPeek s s.upPos.toNat n)
    upPos := BitVec.ofNat 32 (s.upPos.toNat + n) }

/-- Each of the 32 bits of UP_DATA after a pop: the popped bits first bit most significant, then zeros. -/
theorem popBits_upData_getLsbD {n i : Nat} (s : State) (hn : n ≤ 32) :
    (popBits n s).upData.getLsbD i = if i < n then ubufBit s (s.upPos.toNat + (n - 1 - i)) else false := by
  rw [← upPeek_testBit, popBits, BitVec.getLsbD_ofNat]
  by_cases hi : i < 32
  · rw [decide_eq_true hi, Bool.true_and]
  · rw [decide_eq_false hi, Bool.false_and, upPeek_testBit, if_neg (by omega)]

/-- The first bit of the stream popped is the most significant of the n bits. -/
theorem popBits_upData_msbFirst {n k : Nat} (s : State) (hn : n ≤ 32) (hk : k < n) :
    (popBits n s).upData.getLsbD (n - 1 - k) = ubufBit s (s.upPos.toNat + k) := by
  have hmirror : n - 1 - (n - 1 - k) = k := by omega
  rw [popBits_upData_getLsbD s hn, if_pos (by omega), hmirror]

/-- UP_DATA is zero-extended. -/
theorem popBits_upData_high {n k : Nat} (s : State) (hn : n ≤ 32) (hk : n ≤ k) :
    (popBits n s).upData.getLsbD k = false := by
  rw [popBits_upData_getLsbD s hn, if_neg hk.not_gt]

/-! ### The run of UP_POP (42_bitunpacker.md R101) -/

/-- With a legal count UP_POP is the completion of its run. -/
theorem exec_upPop {n : BitVec 6} (hn : n.toNat ≤ 32) (s : State) :
    exec (.upPop n) s = conclude (upPopRun n.toNat s) := by
  have hlegal : countLegal n = true := decide_eq_true hn
  rw [exec_eq_conclude (.upPop n) s nofun, runOf, if_pos hlegal]

theorem upPopRun_of_len_too_large {n : Nat} {s : State} (hlen : s.params.uCap < s.upLen.toNat) :
    upPopRun n s = .raise .cfg 5 s := if_pos hlen

theorem upPopRun_of_short {n : Nat} {s : State} (hlen : s.upLen.toNat ≤ s.params.uCap)
    (hshort : 8 * s.upLen.toNat < s.upPos.toNat + n) : upPopRun n s = .raise .upBounds s.upPos s := by
  rw [upPopRun, if_neg hlen.not_gt, if_pos hshort]

theorem upPopRun_of_enough {n : Nat} {s : State} (hlen : s.upLen.toNat ≤ s.params.uCap)
    (henough : s.upPos.toNat + n ≤ 8 * s.upLen.toNat) : upPopRun n s = .ok (popBits n s) := by
  rw [upPopRun, if_neg hlen.not_gt, if_neg henough.not_gt, popBits]

/-- Settles O13: the two tests in order, then the pop of the next bits. -/
theorem upPopReturnsTheNextBitsMsbFirst : Obligations.UpPopReturnsTheNextBitsMsbFirst := by
  intro s n hn
  rw [exec_upPop hn]
  refine ⟨decode_upPop_word hn, fun hlen => ?cfg, fun hlen hshort => ?bounds, fun hs hlen henough => ?pop⟩
  case cfg => rw [upPopRun_of_len_too_large hlen, conclude_raise]
  case bounds => rw [upPopRun_of_short hlen hshort, conclude_raise]
  case pop =>
    rw [upPopRun_of_enough hlen henough, conclude_ok]
    exact ⟨finish (popBits n.toNat s), rfl, rfl, toNat_cursor_of_le hs hlen henough,
      fun _ hk => popBits_upData_msbFirst s hn hk, fun _ hk => popBits_upData_high s hn hk⟩

/-! ### The run of UP_ALIGN (42_bitunpacker.md R102) -/

/-- What UP_ALIGN makes of a state whose cursor is inside its stream. -/
def alignCursor (s : State) : State := { s with upPos := BitVec.ofNat 32 (8 * ceilDiv s.upPos.toNat 8) }

/-- `8 * ceil(a / 8)` is the least multiple of 8 at or above `a`. -/
theorem mul_ceilDiv_eight_bounds (a : Nat) : a ≤ 8 * ceilDiv a 8 ∧ 8 * ceilDiv a 8 < a + 8 := by
  unfold ceilDiv
  omega

/-- On a byte boundary there is nothing to round. -/
theorem ceilDiv_mul_eight (b : Nat) : ceilDiv (8 * b) 8 = b := by
  unfold ceilDiv
  omega

/-- The stream ends on a byte boundary, so rounding up does not leave it, and the aligned cursor does not wrap. -/
theorem alignCursor_upPos_toNat {s : State} (hs : s.params.Legal) (hlen : s.upLen.toNat ≤ s.params.uCap)
    (hin : s.upPos.toNat ≤ 8 * s.upLen.toNat) :
    (alignCursor s).upPos.toNat = 8 * ceilDiv s.upPos.toNat 8 ∧
      8 * ceilDiv s.upPos.toNat 8 ≤ 8 * s.upLen.toNat := by
  have hround := mul_ceilDiv_eight_bounds s.upPos.toNat
  have hend : 8 * ceilDiv s.upPos.toNat 8 ≤ 8 * s.upLen.toNat := by omega
  exact ⟨toNat_cursor_of_le hs hlen hend, hend⟩

/-- With the cursor on a byte boundary UP_REMB is the length of the tail from there (10_state.md R24). -/
theorem upRemb_of_aligned {s : State} {b : Nat} (hpos : s.upPos.toNat = 8 * b) :
    upRemb s = s.upLen.toNat - s.upPos.toNat / 8 := by
  rw [upRemb, hpos, ceilDiv_mul_eight, Nat.mul_div_cancel_left b (by decide)]

theorem exec_upAlign (s : State) : exec .upAlign s = conclude (upAlignRun s) := exec_eq_conclude .upAlign s nofun

theorem upAlignRun_of_len_too_large {s : State} (hlen : s.params.uCap < s.upLen.toNat) :
    upAlignRun s = .raise .cfg 5 s := if_pos hlen

theorem upAlignRun_of_outside {s : State} (hlen : s.upLen.toNat ≤ s.params.uCap)
    (hout : 8 * s.upLen.toNat < s.upPos.toNat) : upAlignRun s = .raise .upBounds s.upPos s := by
  rw [upAlignRun, if_neg hlen.not_gt, if_pos hout]

theorem upAlignRun_of_inside {s : State} (hlen : s.upLen.toNat ≤ s.params.uCap)
    (hin : s.upPos.toNat ≤ 8 * s.upLen.toNat) : upAlignRun s = .ok (alignCursor s) := by
  rw [upAlignRun, if_neg hlen.not_gt, if_neg hin.not_gt, alignCursor]

/-- Settles O14: the two tests in order, then the cursor rounded up inside its stream. -/
theorem upAlignRoundsTheCursorUp : Obligations.UpAlignRoundsTheCursorUp := by
  refine ⟨decode_upAlign_word, fun s => ?_⟩
  rw [exec_upAlign]
  refine ⟨fun hlen => ?cfg, fun hlen hout => ?bounds, fun hs hlen hin => ?align⟩
  case cfg => rw [upAlignRun_of_len_too_large hlen, conclude_raise]
  case bounds => rw [upAlignRun_of_outside hlen hout, conclude_raise]
  case align =>
    rw [upAlignRun_of_inside hlen hin, conclude_ok]
    obtain ⟨hpos, hend⟩ := alignCursor_upPos_toNat hs hlen hin
    obtain ⟨hge, hlt⟩ := mul_ceilDiv_eight_bounds s.upPos.toNat
    refine ⟨finish (alignCursor s), rfl, rfl, ?_⟩
    rw [upRemb_of_aligned (s := finish (alignCursor s)) hpos, finish_upPos, hpos]
    exact ⟨Nat.mul_mod_right 8 _, hge, hlt, hend, rfl⟩

end Sys2Proof.Machine
end

section
/-! The colour commands CT_LOOK, PZ_FOLD and PZ_UNFOLD (43_colour.md R110 to R114): their words, their faults in the
order tested, and the channels of what they compute. Settles O30, O31 and O32. -/

namespace Sys2Proof.Machine

/-! ### The words (30_encoding.md R74) -/

/-- The one word of CT_LOOK. -/
theorem decode_ctLook_word : decode 0x00000050 = .instr .ctLook := by decide

/-- The one word of PZ_FOLD. -/
theorem decode_pzFold_word : decode 0x00000060 = .instr .pzFold := by decide

/-- The one word of PZ_UNFOLD. -/
theorem decode_pzUnfold_word : decode 0x00000061 = .instr .pzUnfold := by decide

/-! ### The units (30_encoding.md R75) -/

theorem exec_ctLook (s : State) :
    exec .ctLook s = if s.params.hasCtm then conclude (ctLookRun s) else .next (faultEntry .cmd s.cmd s) := rfl

theorem exec_pzFold (s : State) :
    exec .pzFold s = if s.params.hasPlut then conclude (pzFoldRun s) else .next (faultEntry .cmd s.cmd s) := rfl

theorem exec_pzUnfold (s : State) :
    exec .pzUnfold s = if s.params.hasPlut then conclude (pzUnfoldRun s) else .next (faultEntry .cmd s.cmd s) := rfl

/-! ### The colour of a pixel (43_colour.md R110) -/

theorem depthLegal_iff (b : Nat) : depthLegal b = true ↔ b ∈ [1, 4, 8, 24, 32] := by
  simp [depthLegal, or_assoc]

/-- With 8 bits and less the pixel indexes the colour table; its entry has red above blue, and a reserved byte. -/
theorem pxColour_of_table (s : State) {b : Nat} (px : Word) (hb : b ≤ 8) :
    pxColour s b px =
      colourOf 255 (byte0 (readCt s px.toNat)) (byte1 (readCt s px.toNat)) (byte2 (readCt s px.toNat)) := if_pos hb

theorem pxColour_24 (s : State) (px : Word) :
    pxColour s 24 px = colourOf 255 (byte2 px) (byte1 px) (byte0 px) := rfl

theorem pxColour_32 (s : State) (px : Word) :
    pxColour s 32 px = colourOf (byte0 px) (byte3 px) (byte2 px) (byte1 px) := rfl

/-- A Colour is transparent by its alpha or by the mask bit (43_colour.md R111). -/
theorem transparent_iff (col : Word) (mask : Bool) :
    transparent col mask = true ↔ (byte3 col).toNat < 128 ∨ mask = true := by
  rw [transparent, Bool.or_eq_true, decide_eq_true_iff]

/-! ### The run of CT_LOOK (43_colour.md R111) -/

/-- What CT_LOOK makes of a state whose pixel fits its depth. -/
def lookUp (s : State) : State :=
  { s with
    color := pxColour s s.ctBpp.toNat s.pxIn
    colorT := transparent (pxColour s s.ctBpp.toNat s.pxIn) s.pxMask }

theorem ctLookRun_of_illegal_depth {s : State} (hb : s.ctBpp.toNat ∉ [1, 4, 8, 24, 32]) :
    ctLookRun s = .raise .depth (s.ctBpp.setWidth 32) s := by
  rw [← depthLegal_iff, Bool.not_eq_true] at hb
  rw [ctLookRun, if_pos hb, BitVec.ofNat_toNat]

theorem ctLookRun_of_pixel_too_large {s : State} (hb : s.ctBpp.toNat ∈ [1, 4, 8, 24])
    (hpx : 2 ^ s.ctBpp.toNat ≤ s.pxIn.toNat) : ctLookRun s = .raise .pxRange s.pxIn s := by
  have hlegal : depthLegal s.ctBpp.toNat = true :=
    (depthLegal_iff _).2 (List.mem_append_left [32] hb)
  have hbelow : ∀ b ∈ [1, 4, 8, 24], b < 32 := by decide
  rw [ctLookRun, if_neg (Bool.ne_false_iff.2 hlegal), if_pos ⟨hbelow _ hb, hpx⟩]

theorem ctLookRun_of_pixel_fits {s : State} (hb : s.ctBpp.toNat ∈ [1, 4, 8, 24, 32])
    (hpx : s.pxIn.toNat < 2 ^ s.ctBpp.toNat) : ctLookRun s = .ok (lookUp s) := by
  have hlegal : depthLegal s.ctBpp.toNat = true := (depthLegal_iff _).2 hb
  rw [ctLookRun, if_neg (Bool.ne_false_iff.2 hlegal), if_neg fun hlarge => hlarge.2.not_gt hpx, lookUp]

/-- Settles O30: the two tests in order, then the channels of the pixel for each depth. -/
theorem ctLookGivesColourAndTransparency : Obligations.CtLookGivesColourAndTransparency := by
  refine ⟨decode_ctLook_word, fun s => ?_⟩
  rw [exec_ctLook]
  refine ⟨fun habsent => if_neg (Bool.eq_false_iff.1 habsent), fun hpresent => ?_⟩
  rw [if_pos hpresent]
  refine ⟨fun hb => ?depth, fun hb hpx => ?range, fun hb hpx => ?look⟩
  case depth => rw [ctLookRun_of_illegal_depth hb, conclude_raise]
  case range => rw [ctLookRun_of_pixel_too_large hb hpx, conclude_raise]
  case look =>
    rw [ctLookRun_of_pixel_fits hb hpx, conclude_ok]
    refine ⟨finish (lookUp s), rfl, rfl, ?_⟩
    rw [finish_color, finish_colorT, lookUp]
    refine ⟨fun htable => ?_, fun hrgb => ?_, fun hrgba => ?_, transparent_iff _ _⟩
    · rw [pxColour_of_table s s.pxIn htable]
      exact colourOf_channels _ _ _ _
    · rw [hrgb, pxColour_24]
      exact colourOf_channels _ _ _ _
    · rw [hrgba, pxColour_32]
      exact colourOf_channels _ _ _ _

/-! ### Shifts of a channel (43_colour.md R112) -/

/-- A channel shifted right loses its low bits. -/
theorem toNat_channel_shiftRight (c : Byte) (i : Nat) : (c >>> i).toNat = c.toNat / 2 ^ i := by
  rw [BitVec.toNat_ushiftRight, Nat.shiftRight_eq_div_pow]

/-- A channel shifted left is kept to 8 bits. -/
theorem toNat_channel_shiftLeft (c : Byte) (i : Nat) : (c <<< i).toNat = c.toNat * 2 ^ i % 256 := by
  rw [BitVec.toNat_shiftLeft, Nat.shiftLeft_eq]

theorem foldColour_of_transparent {col : Word} {t : Bool} (level abits : Nat)
    (h : t = true ∨ (byte3 col).toNat < 128) : foldColour level abits col t = 0 := if_pos h

theorem foldColour_channels_of_opaque {col : Word} {t : Bool} (level abits : Nat)
    (h : ¬(t = true ∨ (byte3 col).toNat < 128)) :
    (byte3 (foldColour level abits col t)).toNat = (byte3 col).toNat / 2 ^ alphaShift level abits ∧
      (byte2 (foldColour level abits col t)).toNat = (byte2 col).toNat / 2 ^ level ∧
      (byte1 (foldColour level abits col t)).toNat = (byte1 col).toNat / 2 ^ level ∧
      (byte0 (foldColour level abits col t)).toNat = (byte0 col).toNat / 2 ^ level := by
  rw [foldColour, if_neg h]
  simp only [colourOf_channels, toNat_channel_shiftRight, and_self]

theorem unfoldTuple_channels (level abits : Nat) (tup : Word) :
    (byte3 (unfoldTuple level abits tup)).toNat = (byte3 tup).toNat * 2 ^ alphaShift level abits % 256 ∧
      (byte2 (unfoldTuple level abits tup)).toNat = (byte2 tup).toNat * 2 ^ level % 256 ∧
      (byte1 (unfoldTuple level abits tup)).toNat = (byte1 tup).toNat * 2 ^ level % 256 ∧
      (byte0 (unfoldTuple level abits tup)).toNat = (byte0 tup).toNat * 2 ^ level % 256 := by
  simp only [unfoldTuple, colourOf_channels, toNat_channel_shiftLeft, and_self]

/-! ### The run of PZ_FOLD (43_colour.md R113) -/

theorem pzFoldRun_of_abits_too_large {s : State} (hab : 8 < s.pzAbits.toNat) : pzFoldRun s = .raise .cfg 6 s :=
  if_pos hab

theorem pzFoldRun_of_abits_legal {s : State} (hab : s.pzAbits.toNat ≤ 8) :
    pzFoldRun s = .ok { s with tuple := foldColour s.pzLevel.toNat s.pzAbits.toNat s.color s.colorT } :=
  if_neg hab.not_gt

/-- Settles O31: the test of ABITS, then the fold of a transparent and of an opaque colour. -/
theorem pzFoldShiftsTheChannelsRight : Obligations.PzFoldShiftsTheChannelsRight := by
  refine ⟨decode_pzFold_word, fun s => ?_⟩
  rw [exec_pzFold]
  refine ⟨fun habsent => if_neg (Bool.eq_false_iff.1 habsent), fun hpresent => ?_⟩
  rw [if_pos hpresent]
  refine ⟨fun hab => ?cfg, fun hab => ?fold⟩
  case cfg => rw [pzFoldRun_of_abits_too_large hab, conclude_raise]
  case fold =>
    rw [pzFoldRun_of_abits_legal hab, conclude_ok]
    refine ⟨_, rfl, rfl, ?_⟩
    split
    next htransparent => exact foldColour_of_transparent _ _ htransparent
    next hopaque => exact foldColour_channels_of_opaque _ _ hopaque

/-! ### The run of PZ_UNFOLD (43_colour.md R114) -/

theorem pzUnfoldRun_of_abits_too_large {s : State} (hab : 8 < s.pzAbits.toNat) : pzUnfoldRun s = .raise .cfg 6 s :=
  if_pos hab

theorem pzUnfoldRun_of_abits_legal {s : State} (hab : s.pzAbits.toNat ≤ 8) :
    pzUnfoldRun s = .ok { s with color := unfoldTuple s.pzLevel.toNat s.pzAbits.toNat s.tuple } :=
  if_neg hab.not_gt

/-- Settles O32: the test of ABITS, then the four channels shifted back. -/
theorem pzUnfoldShiftsTheChannelsLeft : Obligations.PzUnfoldShiftsTheChannelsLeft := by
  refine ⟨decode_pzUnfold_word, fun s => ?_⟩
  rw [exec_pzUnfold]
  refine ⟨fun habsent => if_neg (Bool.eq_false_iff.1 habsent), fun hpresent => ?_⟩
  rw [if_pos hpresent]
  refine ⟨fun hab => ?cfg, fun hab => ?unfolded⟩
  case cfg => rw [pzUnfoldRun_of_abits_too_large hab, conclude_raise]
  case unfolded =>
    rw [pzUnfoldRun_of_abits_legal hab, conclude_ok]
    exact ⟨_, rfl, rfl, unfoldTuple_channels _ _ _⟩

end Sys2Proof.Machine
end

section
/-! The primitive LZW commands LZ_BEGIN, LZ_STEP and LZ_END (44_lzw.md R125 to R131) and the phase after every command
(R135): their words, their faults in the order tested, what an emission leaves in the packed stream, what an append
leaves in the dictionary. Settles O16, O18, O19 and O36. -/

namespace Sys2Proof.Machine

/-! ### The words (30_encoding.md R74) -/

/-- The one word of LZ_BEGIN. -/
theorem decode_lzBegin_word : decode 0x00000040 = .instr .lzBegin := by decide

/-- The one word of LZ_STEP. -/
theorem decode_lzStep_word : decode 0x00000041 = .instr .lzStep := by decide

/-- The one word of LZ_END. -/
theorem decode_lzEnd_word : decode 0x00000042 = .instr .lzEnd := by decide

theorem exec_lzBegin (s : State) : exec .lzBegin s = conclude (lzBeginRun s) := exec_eq_conclude .lzBegin s nofun

theorem exec_lzStep (s : State) : exec .lzStep s = conclude (lzStepRun s) := exec_eq_conclude .lzStep s nofun

theorem exec_lzEnd (s : State) : exec .lzEnd s = conclude (lzEndRun s) := exec_eq_conclude .lzEnd s nofun

/-! ### The emission of a code (44_lzw.md R128) -/

theorem lzEmit_of_no_room {c : Nat} {s : State} (hfull : 8 * s.params.pCap < s.pkBits.toNat + s.lzW.toNat) :
    lzEmit c s = .raise .ovf 0 s := by
  rw [lzEmit, pkPush_of_no_room hfull, Run.andThen_raise]

/-- The packed stream of `t` is that of `s` with code `c` behind it, bit 0 first, at the width of `s`; the last byte is
padded with 0, and the bytes the code does not enter stay (10_state.md R36; 41_bitpacker.md R90). -/
structure CodeAppended (c : Nat) (s t : State) : Prop where
  length : t.pkBits.toNat = s.pkBits.toNat + s.lzW.toNat
  before : ∀ j, j < s.pkBits.toNat → pbufBit t j = pbufBit s j
  code : ∀ k, k < s.lzW.toNat → pbufBit t (s.pkBits.toNat + k) = c.testBit k
  padded : ∀ j, t.pkBits.toNat ≤ j → j < 8 * pkBytes t → pbufBit t j = false
  bytes : ∀ i, i < s.pkBits.toNat / 8 ∨ (s.pkBits.toNat + s.lzW.toNat + 7) / 8 ≤ i → readPbuf t i = readPbuf s i

/-- A state that has the stream of an emission has the code appended, where the stream was padded and had room. -/
theorem codeAppended_of_emitted {c : Nat} {s t : State} (hlegal : s.params.Legal)
    (hpad : ∀ j, s.pkBits.toNat ≤ j → j < 8 * pkBytes s → pbufBit s j = false)
    (hroom : s.pkBits.toNat + s.lzW.toNat ≤ 8 * s.params.pCap)
    (hbits : t.pkBits = (emitted c s).pkBits) (hpbuf : t.pbuf = (emitted c s).pbuf) (hepoch : t.epoch = s.epoch) :
    CodeAppended c s t := by
  have hlength : t.pkBits.toNat = s.pkBits.toNat + s.lzW.toNat := by
    rw [hbits]
    exact appendBits_pkBits_toNat c hlegal hroom
  obtain ⟨hbefore, hcode, hafter⟩ := streamBit_mergeBits s.epoch s.pkBits.toNat c s.lzW.toNat s.pbuf hpad
  have hbit : ∀ j, pbufBit t j =
      streamBit s.epoch (mergeBits s.epoch s.pkBits.toNat c s.lzW.toNat s.pbuf) j := fun j => by
    rw [pbufBit_eq, hpbuf, hepoch]
  refine ⟨hlength, fun j hj => ?_, fun k hk => ?_, fun j hj hj' => ?_, fun i hi => ?_⟩
  · rw [hbit, hbefore j hj, pbufBit_eq]
  · rw [hbit, hcode k hk]
  · rw [pkBytes, hlength] at hj'
    rw [hbit]
    exact hafter j (hlength ▸ hj) hj'
  · rw [readPbuf, hepoch, hpbuf]
    exact byteAt_mergeBits _ _ _ _ _ _ hi

/-! ### LZ_BEGIN (44_lzw.md R125, R129) -/

theorem lzCheck_of_palette_illegal {s : State} (hp : s.lzPalsize.toNat = 0 ∨ 256 < s.lzPalsize.toNat) :
    lzCheck s = .raise .cfg 1 s := if_pos hp

theorem lzCheck_of_ceiling_illegal {s : State} (hp : 0 < s.lzPalsize.toNat) (hp' : s.lzPalsize.toNat ≤ 256)
    (hm : s.lzMaxbits.toNat < initialWidth s.lzPalsize.toNat ∨ 12 < s.lzMaxbits.toNat) :
    lzCheck s = .raise .cfg 2 s := by
  have hpal : ¬(s.lzPalsize.toNat = 0 ∨ palMax < s.lzPalsize.toNat) := not_or.2 ⟨hp.ne', hp'.not_gt⟩
  rw [lzCheck, if_neg hpal]
  exact if_pos hm

theorem lzCheck_of_input_too_long {s : State} (hp : 0 < s.lzPalsize.toNat) (hp' : s.lzPalsize.toNat ≤ 256)
    (hm : initialWidth s.lzPalsize.toNat ≤ s.lzMaxbits.toNat) (hm' : s.lzMaxbits.toNat ≤ 12)
    (hlen : s.params.symCap < s.lzLen.toNat) : lzCheck s = .raise .cfg 3 s := by
  have hpal : ¬(s.lzPalsize.toNat = 0 ∨ palMax < s.lzPalsize.toNat) := not_or.2 ⟨hp.ne', hp'.not_gt⟩
  have hceil : ¬(s.lzMaxbits.toNat < lzW0 s ∨ wMax < s.lzMaxbits.toNat) := not_or.2 ⟨hm.not_gt, hm'.not_gt⟩
  rw [lzCheck, if_neg hpal, if_neg hceil, if_pos hlen]

/-- LZ_BEGIN ends in the fault of its configuration check. -/
theorem exec_lzBegin_of_check {s : State} {info : Word} (hcheck : lzCheck s = .raise .cfg info s) :
    exec .lzBegin s = .next (faultEntry .cfg info s) := by
  rw [exec_lzBegin, lzBeginRun, hcheck, Run.andThen_raise, conclude_raise]

/-- The smallest legal PBUF holds CLEAR, whatever the palette. -/
theorem clear_fits {s : State} (hlegal : s.params.Legal) (hcfg : LzConfigOk s) :
    (lzInit { s with pkBits := 0 }).lzW.toNat ≤ 8 * s.params.pCap := by
  obtain ⟨-, hw⟩ := lzInit_sizes s hcfg 0
  obtain ⟨hp, hp', -⟩ := hcfg
  obtain ⟨-, -, hw9, -⟩ := initialWidth_legal _ hp hp'
  obtain ⟨-, -, ⟨hcap, -⟩, -⟩ := hlegal
  omega

/-- With a legal configuration LZ_BEGIN completes. -/
theorem exec_lzBegin_of_config {s : State} (hlegal : s.params.Legal) (hcfg : LzConfigOk s) :
    exec .lzBegin s = .next (finish (begun s)) := by
  rw [exec_lzBegin, lzBeginRun_eq_ok.2 ⟨hcfg, clear_fits hlegal hcfg, rfl⟩, conclude_ok]

/-- The initial dictionary leaves every entry above END. -/
theorem readDict_init_above {s t : State} {p c : Nat} (hd : t.dict = initDict p s.dict) (he : t.epoch = s.epoch)
    (hc : p + 2 ≤ c) : readDict t c = readDict s c := by
  rw [readDict_init hd he, if_neg (by omega), if_neg (by omega), if_neg (by omega)]

/-- An empty stream has no byte to pad. -/
theorem padded_of_empty {s : State} (h : s.pkBits = 0) (j : Nat) (hj : j < 8 * pkBytes s) : pbufBit s j = false := by
  have hbytes : pkBytes s = 0 := by
    rw [pkBytes, h]
    rfl
  omega

/-- What LZ_BEGIN leaves in PBUF: CLEAR alone, at the initial width, from the first bit on. -/
theorem stream_begun {s : State} (hlegal : s.params.Legal) (hcfg : LzConfigOk s) :
    (finish (begun s)).pkBits.toNat = initialWidth s.lzPalsize.toNat ∧
      (∀ k, k < (finish (begun s)).pkBits.toNat → pbufBit (finish (begun s)) k = s.lzPalsize.toNat.testBit k) ∧
      (∀ k, (finish (begun s)).pkBits.toNat ≤ k → k < 8 * pkBytes (finish (begun s)) →
        pbufBit (finish (begun s)) k = false) ∧
      ∀ i, ((finish (begun s)).pkBits.toNat + 7) / 8 ≤ i → readPbuf (finish (begun s)) i = readPbuf s i := by
  obtain ⟨-, hw⟩ := lzInit_sizes s hcfg 0
  have hempty : (lzInit { s with pkBits := 0 }).pkBits.toNat = 0 := rfl
  have hroom := clear_fits hlegal hcfg
  obtain ⟨hlength, -, hcode, hpad, hbytes⟩ : CodeAppended s.lzPalsize.toNat (lzInit { s with pkBits := 0 })
      (finish (begun s)) :=
    codeAppended_of_emitted hlegal (fun j _ => padded_of_empty rfl j)
      (by rw [hempty, Nat.zero_add]; exact hroom) rfl rfl rfl
  rw [hempty, Nat.zero_add] at hlength
  rw [hempty] at hcode hbytes
  refine ⟨hlength.trans hw, fun k hk => ?_, hpad, fun i hi => ?_⟩
  · rw [← hcode k (hlength ▸ hk), Nat.zero_add]
  · refine hbytes i (.inr ?_)
    rwa [Nat.zero_add, ← hlength]

/-- Settles O16: the three tests in order, then the initial dictionary and the stream of CLEAR alone. -/
theorem lzBeginSetsUpDictionaryAndEmitsClear : Obligations.LzBeginSetsUpDictionaryAndEmitsClear := by
  refine ⟨decode_lzBegin_word, fun s => ⟨fun hp => ?palette,
    fun hp hp' => ⟨fun hm => ?ceiling, fun hm hm' hlen => ?input⟩, fun hlegal hcfg => ?begins⟩⟩
  case palette => exact exec_lzBegin_of_check (lzCheck_of_palette_illegal hp)
  case ceiling => exact exec_lzBegin_of_check (lzCheck_of_ceiling_illegal hp hp' hm)
  case input => exact exec_lzBegin_of_check (lzCheck_of_input_too_long hp hp' hm hm' hlen)
  case begins =>
    obtain ⟨hbits, hcode, hpad, hbytes⟩ := stream_begun hlegal hcfg
    obtain ⟨hsize, hwidth⟩ := lzInit_sizes s hcfg 0
    have hp : s.lzPalsize.toNat ≤ palMax := hcfg.2.1
    have hlast : (BitVec.ofNat 12 s.lzPalsize.toNat).toNat = s.lzPalsize.toNat :=
      Nat.mod_eq_of_lt (hp.trans_lt (by decide))
    have hdict : DictOk s.lzPalsize.toNat (finish (begun s)) := dictOk_init hp rfl rfl hsize
    exact ⟨finish (begun s), exec_lzBegin_of_config hlegal hcfg, rfl, hbits, hwidth, hsize, hlast, hdict.literals,
      hdict.clear, hdict.endc, fun c hc => readDict_init_above rfl rfl hc, hcode, hpad, hbytes⟩

/-! ### LZ_STEP (44_lzw.md R130) -/

theorem exec_lzStep_of_misplaced {s : State} (h : s.phase ≠ .active ∨ s.lzLen.toNat ≤ s.lzPos.toNat) :
    exec .lzStep s = .next (faultEntry .seq s.cmd s) := by
  rw [exec_lzStep, lzStepRun, if_pos h, conclude_raise]

theorem lzStepRun_of_none {s : State} (hph : s.phase = .active) (hpos : s.lzPos.toNat < s.lzLen.toNat)
    (hm : lzMatch s s.lzPos.toNat = none) : lzStepRun s = .raise .sym s.lzPos s := by
  rw [lzStepRun, if_neg (not_or.2 ⟨not_not.2 hph, hpos.not_ge⟩), hm]

theorem lzStepRun_of_no_room {s : State} (hph : s.phase = .active) (hpos : s.lzPos.toNat < s.lzLen.toNat)
    (hm : lzMatch s s.lzPos.toNat ≠ none) (hfull : 8 * s.params.pCap < s.pkBits.toNat + s.lzW.toNat) :
    lzStepRun s = .raise .ovf 0 s := by
  obtain ⟨⟨c, len⟩, hm⟩ := Option.ne_none_iff_exists'.1 hm
  simp only [lzStepRun, if_neg (not_or.2 ⟨not_not.2 hph, hpos.not_ge⟩), hm, lzEmit_of_no_room hfull, Run.andThen_raise]

/-- The position after a match does not wrap. -/
theorem toNat_position_of_le {s : State} {len : Nat} (hle : s.lzPos.toNat + len ≤ s.lzLen.toNat) :
    (BitVec.ofNat 32 (s.lzPos.toNat + len)).toNat = s.lzPos.toNat + len :=
  Nat.mod_eq_of_lt (hle.trans_lt s.lzLen.isLt)

theorem stepped_lzLast_lzPos (c len : Nat) (s : State) :
    (stepped c len s).lzLast = BitVec.ofNat 12 c ∧
      (stepped c len s).lzPos = BitVec.ofNat 32 (s.lzPos.toNat + len) := by
  rw [stepped, lzAppend_frame]
  exact ⟨rfl, rfl⟩

/-- With input left below the ceiling LZ_STEP appends an entry. -/
theorem stepped_of_room {c len : Nat} {s : State} (hle : s.lzPos.toNat + len ≤ s.lzLen.toNat)
    (hroom : s.lzPos.toNat + len < s.lzLen.toNat ∧ s.lzDsize.toNat < 2 ^ s.lzMaxbits.toNat) :
    (stepped c len s).dict = Memory.write s.dict s.lzDsize.toNat
        { kind := .str, pre := BitVec.ofNat 12 c, sym := readSym s (s.lzPos.toNat + len) } ∧
      (stepped c len s).lzDsize = s.lzDsize + 1 ∧ (stepped c len s).lzW = grownWidth s.lzW (s.lzDsize + 1) := by
  have hpos := toNat_position_of_le hle
  rw [← hpos] at hroom ⊢
  rw [stepped, lzAppend, if_pos hroom]
  exact ⟨rfl, rfl, rfl⟩

/-- At the end of the input, or at the ceiling, LZ_STEP appends nothing. -/
theorem stepped_of_no_room {c len : Nat} {s : State} (hle : s.lzPos.toNat + len ≤ s.lzLen.toNat)
    (hroom : ¬(s.lzPos.toNat + len < s.lzLen.toNat ∧ s.lzDsize.toNat < 2 ^ s.lzMaxbits.toNat)) :
    (stepped c len s).dict = s.dict ∧ (stepped c len s).lzDsize = s.lzDsize ∧ (stepped c len s).lzW = s.lzW := by
  rw [← toNat_position_of_le hle] at hroom
  rw [stepped, lzAppend, if_neg hroom]
  exact ⟨rfl, rfl, rfl⟩

/-- In ACTIVE the palette and the ceiling of the encoding are those of the configuration registers (log 21). -/
theorem LzOk.of_active {s : State} (h : LzOk s) (hph : s.phase = .active) :
    DictOk s.lzPalsize.toNat s ∧ s.lzMaxbits.toNat ≤ 12 ∧
      s.lzW.toNat = max (initialWidth s.lzPalsize.toNat) (clog2 s.lzDsize.toNat) := by
  obtain ⟨p, m, -, -, -, hm, hdict, -, hw, hactive⟩ := h (by rw [hph]; nofun)
  obtain ⟨rfl, rfl, -, -⟩ := hactive hph
  exact ⟨hdict, hm, hw⟩

/-- A matched code is valid, and is neither CLEAR nor END: those have no sequence (44_lzw.md R126). -/
theorem DictOk.lzMatch_ne_control {p c len pos : Nat} {s : State} (h : DictOk p s)
    (hm : lzMatch s pos = some (c, len)) : c ≠ p ∧ c ≠ p + 1 := by
  obtain ⟨-, -, -, hseq, -⟩ := lzMatch_eq_some hm
  obtain ⟨hclear, hend⟩ := h.seqOf_control
  constructor <;> rintro rfl
  · rw [hclear] at hseq; cases hseq
  · rw [hend] at hseq; cases hseq

/-- What LZ_STEP does to DICT, its size and the width: one entry where there is room for it, and the width of the new
size (44_lzw.md R130, R132). -/
theorem stepped_dictionary {c len : Nat} {s : State} (hm : s.lzMaxbits.toNat ≤ 12)
    (hw : s.lzW.toNat = max (initialWidth s.lzPalsize.toNat) (clog2 s.lzDsize.toNat))
    (hle : s.lzPos.toNat + len ≤ s.lzLen.toNat) :
    (∀ d, d ≠ s.lzDsize.toNat → readDict (stepped c len s) d = readDict s d) ∧
      if s.lzPos.toNat + len < s.lzLen.toNat ∧ s.lzDsize.toNat < 2 ^ s.lzMaxbits.toNat then
        (stepped c len s).lzDsize.toNat = s.lzDsize.toNat + 1 ∧
          readDict (stepped c len s) s.lzDsize.toNat =
            { kind := .str, pre := BitVec.ofNat 12 c, sym := readSym s (s.lzPos.toNat + len) } ∧
          (stepped c len s).lzW.toNat = if 2 ^ s.lzW.toNat < s.lzDsize.toNat + 1 then s.lzW.toNat + 1 else s.lzW.toNat
      else
        (stepped c len s).lzDsize = s.lzDsize ∧ (stepped c len s).lzW = s.lzW ∧ (stepped c len s).dict = s.dict := by
  obtain ⟨-, hepoch, -⟩ := stepped_fixed s c len
  split
  next hroom =>
    obtain ⟨hdict, hsize, hwidth⟩ := stepped_of_room (c := c) hle hroom
    obtain ⟨hsucc, -, hgrown⟩ := grownWidth_toNat hm hw hroom.2
    have hread := readDict_write hdict hepoch
    exact ⟨fun d hd => (hread d).trans (if_neg hd), hsize ▸ hsucc, (hread _).trans (if_pos rfl), hwidth ▸ hgrown⟩
  next hroom =>
    obtain ⟨hdict, hsize, hwidth⟩ := stepped_of_no_room (c := c) hle hroom
    exact ⟨fun d _ => readDict_same hdict hepoch d, hsize, hwidth, hdict⟩

/-- Settles O18: the tests in order, then the matched code emitted, and the append. -/
theorem lzStepEmitsTheMatchAndAppends : Obligations.LzStepEmitsTheMatchAndAppends := by
  refine ⟨decode_lzStep_word, fun s => ⟨exec_lzStep_of_misplaced, fun hph hpos =>
    ⟨fun hm => ?symbol, fun hm hfull => ?ovf, fun c len hs hlz hm hroom => ?steps⟩⟩⟩
  case symbol => rw [exec_lzStep, lzStepRun_of_none hph hpos hm, conclude_raise]
  case ovf => rw [exec_lzStep, lzStepRun_of_no_room hph hpos hm hfull, conclude_raise]
  case steps =>
    have hrun : exec .lzStep s = .next (finish (stepped c len s)) := by
      rw [exec_lzStep, lzStepRun_eq_ok.2 ⟨hph, hpos, hroom, c, len, hm, rfl⟩, conclude_ok]
    obtain ⟨hdict, hmax, hw⟩ := hlz.of_active hph
    obtain ⟨hclear, hend⟩ := hdict.lzMatch_ne_control hm
    obtain ⟨hvalid, -, hlen, -⟩ := lzMatch_eq_some hm
    have hle : s.lzPos.toNat + len ≤ s.lzLen.toNat := by omega
    obtain ⟨hlast, hadvanced⟩ := stepped_lzLast_lzPos c len s
    have hcode : (BitVec.ofNat 12 c).toNat = c := Nat.mod_eq_of_lt (hvalid.trans_le hdict.sizeHigh)
    obtain ⟨-, hepoch, -, -, -, -, -, -, hbits, hpbuf⟩ := stepped_fixed s c len
    have hstream : CodeAppended c s (finish (stepped c len s)) :=
      codeAppended_of_emitted hs.legal hs.padded hroom hbits hpbuf hepoch
    obtain ⟨hentries, hgrowth⟩ := stepped_dictionary (c := c) hmax hw hle
    refine ⟨finish (stepped c len s), hrun, ?_, hclear, hend, hle, ?_, ?_, hstream.length, hstream.before, hstream.code,
      hstream.padded, hstream.bytes, hentries, hgrowth⟩
    · rw [stepped_frame]; rfl
    · rw [finish_lzLast, hlast, hcode]
    · rw [finish_lzPos, hadvanced, toNat_position_of_le hle]

/-! ### LZ_END (44_lzw.md R131) -/

theorem exec_lzEnd_of_misplaced {s : State} (h : s.phase ≠ .active ∨ s.lzPos ≠ s.lzLen) :
    exec .lzEnd s = .next (faultEntry .seq s.cmd s) := by
  rw [exec_lzEnd, lzEndRun, if_pos h, conclude_raise]

theorem lzEndRun_of_no_room {s : State} (hph : s.phase = .active) (hpos : s.lzPos = s.lzLen)
    (hfull : 8 * s.params.pCap < s.pkBits.toNat + s.lzW.toNat) : lzEndRun s = .raise .ovf 0 s := by
  rw [lzEndRun, if_neg (not_or.2 ⟨not_not.2 hph, not_not.2 hpos⟩), lzEmit_of_no_room hfull, Run.andThen_raise]

/-- The state LZ_END leaves where it runs to its end. -/
abbrev closed (s : State) : State := { emitted (s.lzPalsize.toNat + 1) s with phase := .ended }

/-- Settles O19: the tests in order, then END emitted; the 9 bits of LZ_PALSIZE leave room for END in the 12 of
LZ_LAST. -/
theorem lzEndEmitsEndAtTheCurrentWidth : Obligations.LzEndEmitsEndAtTheCurrentWidth := by
  refine ⟨decode_lzEnd_word, fun s => ⟨exec_lzEnd_of_misplaced, fun hph hpos hfull => ?ovf,
    fun hs _ hph hpos hroom => ?ends⟩⟩
  case ovf => rw [exec_lzEnd, lzEndRun_of_no_room hph hpos hfull, conclude_raise]
  case ends =>
    have hrun : exec .lzEnd s = .next (finish (closed s)) := by
      rw [exec_lzEnd, lzEndRun_eq_ok.2 ⟨hph, hpos, hroom, rfl⟩, conclude_ok]
    have hstream : CodeAppended (s.lzPalsize.toNat + 1) s (finish (closed s)) :=
      codeAppended_of_emitted hs.legal hs.padded hroom rfl rfl rfl
    have hlast : (BitVec.ofNat 12 (s.lzPalsize.toNat + 1)).toNat = s.lzPalsize.toNat + 1 :=
      Nat.mod_eq_of_lt (by have := s.lzPalsize.isLt; omega)
    exact ⟨finish (closed s), hrun, rfl, hlast, hstream.length, hstream.before, hstream.code, hstream.padded,
      hstream.bytes⟩

/-! ### The phase after a command (44_lzw.md R135) -/

/-- The row of each command in the table of R135, for a completion without fault. -/
def phaseAfter (i : Instr) (ph : Phase) : Phase :=
  match i with
  | .rst => .idle
  | .lzBegin => .active
  | .lzEnd => .ended
  | .lzEnc => .ended
  | _ => ph

/-- No run of a command writes STATUS.ERR: fault entry does. -/
@[simp] theorem runOf_err (i : Instr) (s : State) : (runOf i s).state.err = s.err := by
  rw [runOf_frame]

/-- A command refused by its count or by its absent unit changes nothing, so under that test a run that keeps LZ_PHASE
still keeps it. -/
theorem phase_ite_raise {c : Prop} [Decidable c] {r : Run} {s : State} {f : FaultCode} {info : Word}
    (h : r.state.phase = s.phase) : (if c then r else .raise f info s).state.phase = s.phase := by
  split
  · exact h
  · rfl

/-- The runs that do not begin or end an encoding leave LZ_PHASE alone. -/
theorem runOf_phase_of_ne {i : Instr} (s : State) (hbegin : i ≠ .lzBegin) (hend : i ≠ .lzEnd) (henc : i ≠ .lzEnc) :
    (runOf i s).state.phase = s.phase := by
  cases i <;> simp only [runOf]
  case lzBegin => exact absurd rfl hbegin
  case lzEnd => exact absurd rfl hend
  case lzEnc => exact absurd rfl henc
  case nop => rfl
  case rst => rfl
  case pkRst => rw [pkRstRun_frame]
  case pkPush n => exact phase_ite_raise (by rw [pkPushRun_frame])
  case upPop n => exact phase_ite_raise (by rw [upPopRun_frame])
  case upAlign => rw [upAlignRun_frame]
  case frRun => rw [frRunRun_frame]
  case lzStep => rw [lzStepRun_frame]
  case lzRaw => rw [lzRawRun_frame]
  case ctLook => exact phase_ite_raise (by rw [ctLookRun_frame])
  case pzFold => exact phase_ite_raise (by rw [pzFoldRun_frame])
  case pzUnfold => exact phase_ite_raise (by rw [pzUnfoldRun_frame])

theorem lzBeginRun_phase {s t : State} (h : lzBeginRun s = .ok t) : t.phase = .active := by
  obtain ⟨-, -, rfl⟩ := lzBeginRun_eq_ok.1 h
  rfl

theorem lzEndRun_phase {s t : State} (h : lzEndRun s = .ok t) : t.phase = .ended := by
  obtain ⟨-, -, -, rfl⟩ := lzEndRun_eq_ok.1 h
  rfl

/-- LZ_ENC ends in the phase of its LZ_END: the framing that follows keeps it (46_lzw_composite.md R150). -/
theorem lzEncRun_phase {s t : State} (h : lzEncRun s = .ok t) : t.phase = .ended := by
  obtain ⟨b, e, -, -, hend, hframe⟩ := lzEncRun_eq_ok.1 h
  have hkept : (frRunRun e).state.phase = e.phase := by rw [frRunRun_frame]
  rw [hframe] at hkept
  exact hkept.trans (lzEndRun_phase hend)

theorem runOf_ok_phase {i : Instr} {s t : State} (hi : i ≠ .rst) (h : runOf i s = .ok t) :
    t.phase = phaseAfter i s.phase := by
  have hkept := runOf_phase_of_ne (i := i) s
  rw [h] at hkept
  cases i with
  | rst => exact absurd rfl hi
  | lzBegin => exact lzBeginRun_phase h
  | lzEnd => exact lzEndRun_phase h
  | lzEnc => exact lzEncRun_phase h
  | _ => exact hkept nofun nofun nofun

/-- Outside the ERR state a command ends in a fault, which sets ERR and the phase IDLE, or without one, in the phase of
its row. -/
theorem exec_err_phase {i : Instr} {s t : State} (hs : s.err = false) (h : exec i s = .next t) :
    (t.err = true ∧ t.phase = .idle) ∨ (t.err = false ∧ t.phase = phaseAfter i s.phase) := by
  by_cases hi : i = .rst
  · subst hi
    obtain rfl : softReset s = t := Host.Outcome.next.inj h
    exact .inr ⟨rfl, rfl⟩
  · rw [exec_eq_conclude i s hi] at h
    rcases conclude_cases h with ⟨u, hu, rfl⟩ | ⟨f, info, u, -, rfl⟩
    · have herr := runOf_err i s
      rw [hu] at herr
      exact .inr ⟨herr.trans hs, (finish_phase u).trans (runOf_ok_phase hi hu)⟩
    · exact .inl ⟨rfl, rfl⟩

theorem exec_pkRst_of_active {s : State} (hph : s.phase = .active) :
    exec .pkRst s = .next (faultEntry .seq s.cmd s) := by
  rw [exec_pkRst, pkRstRun_of_active hph, conclude_raise]

theorem exec_pkPush_of_active {n : BitVec 6} (hn : n.toNat ≤ 32) {s : State} (hph : s.phase = .active) :
    exec (.pkPush n) s = .next (faultEntry .seq s.cmd s) := by
  rw [exec_pkPush hn, pkPushRun_of_active hph, conclude_raise]

/-- Settles O36: the row of the command for the two ways it can end, and the cells of E_SEQ. -/
theorem phaseFollowsTheTransitionTable : Obligations.PhaseFollowsTheTransitionTable := by
  intro i s t hwf hs h
  have ends_as : ∀ u, exec i s = .next u → t = u := fun u hu => Host.Outcome.next.inj (h.symm.trans hu)
  refine ⟨fun herr => ?fault, fun herr => ?done, ?step, ?last, ?packer⟩
  case fault =>
    rcases exec_err_phase hs h with ⟨-, hph⟩ | ⟨hok, -⟩
    · exact hph
    · rw [herr] at hok; cases hok
  case done =>
    rcases exec_err_phase hs h with ⟨hbad, -⟩ | ⟨-, hph⟩
    · rw [herr] at hbad; cases hbad
    · exact hph
  case step =>
    rintro ⟨rfl, hbad⟩
    exact ends_as _ (exec_lzStep_of_misplaced hbad)
  case last =>
    rintro ⟨rfl, hbad⟩
    exact ends_as _ (exec_lzEnd_of_misplaced hbad)
  case packer =>
    rintro ⟨rfl | ⟨n, rfl⟩, hph⟩
    · exact ends_as _ (exec_pkRst_of_active hph)
    · exact ends_as _ (exec_pkPush_of_active (of_decide_eq_true hwf) hph)

end Sys2Proof.Machine
end

section
/-! The framer command FR_RUN (45_framer.md R145, R146): its word, its fault, and the framed stream it leaves in OBUF
in the position form of R145. Settles O15. -/

namespace Sys2Proof.Machine

/-! ### The word (30_encoding.md R74) -/

/-- The one word of FR_RUN. -/
theorem decode_frRun_word : decode 0x00000030 = .instr .frRun := by decide

/-! ### OBUF after a framing (45_framer.md R145, R146) -/

/-- What FR_RUN makes of a state whose framed stream fits OBUF. -/
def framed (s : State) : State := storeFramed (frame (packedBytes s (pkBytes s))) s

theorem frame_packedBytes_length (s : State) :
    (frame (packedBytes s (pkBytes s))).length = framedLength (pkBytes s) := by
  rw [frame_length, packedBytes_length]

/-- A legal capacity keeps the length of the framed stream below 2 ^ 32, so OB_LEN does not wrap. -/
theorem framed_obLen_toNat {s : State} (hs : s.params.Legal) (hroom : framedLength (pkBytes s) ≤ s.params.oCap) :
    (framed s).obLen.toNat = framedLength (pkBytes s) := by
  obtain ⟨-, -, -, -, hcap, -⟩ := hs
  rw [framed, storeFramed, frame_packedBytes_length]
  exact Nat.mod_eq_of_lt (by omega)

/-- OBUF of `t` holds the packed stream of `s` framed, in the position form of R145, and the bytes behind the terminator
stay those of `s`. -/
structure StreamFramed (s t : State) : Prop where
  length : t.obLen.toNat = framedLength (pkBytes s)
  data : ∀ j, j < pkBytes s → readObuf t (j + j / 255 + 1) = readPbuf s j
  full : ∀ k, k < pkBytes s / 255 → readObuf t (256 * k) = 255
  last : 0 < pkBytes s % 255 → (readObuf t (256 * (pkBytes s / 255))).toNat = pkBytes s % 255
  terminator : readObuf t (pkBytes s + ceilDiv (pkBytes s) 255) = 0
  beyond : ∀ i, t.obLen.toNat ≤ i → readObuf t i = readObuf s i

/-- A state that has the output of a framing has the stream framed, where the length fits OBUF. -/
theorem streamFramed_of_framed {s t : State} (hs : s.params.Legal) (hroom : framedLength (pkBytes s) ≤ s.params.oCap)
    (hlen : t.obLen = (framed s).obLen) (hobuf : t.obuf = (framed s).obuf) (hepoch : t.epoch = s.epoch) :
    StreamFramed s t := by
  have hbyte : ∀ i, readObuf t i = ((frame (packedBytes s (pkBytes s)))[i]?).getD (readObuf s i) := fun i => by
    rw [readObuf, hobuf, hepoch]
    exact byteAt_writeMany_zero _ _ _ _ _
  have hlength : t.obLen.toNat = framedLength (pkBytes s) := hlen ▸ framed_obLen_toNat hs hroom
  obtain ⟨hdata, hfull, hlast, hterm⟩ := frame_spec (packedBytes s (pkBytes s))
  rw [packedBytes_length] at hdata hfull hlast hterm
  refine ⟨hlength, fun j hj => ?data, fun k hk => ?full, fun hr => ?last, ?terminator, fun i hi => ?beyond⟩
  case data => rw [hbyte, hdata j hj, packedBytes_getElem? s _ j hj, Option.getD_some]
  case full => rw [hbyte, hfull k hk, Option.getD_some]
  case last =>
    rw [hbyte, hlast hr, Option.getD_some]
    exact Nat.mod_eq_of_lt (by omega)
  case terminator => rw [hbyte, hterm, Option.getD_some]
  case beyond =>
    have hend := (frame_packedBytes_length s).trans_le (hlength ▸ hi)
    rw [hbyte, List.getElem?_eq_none hend, Option.getD_none]

/-! ### The run of FR_RUN (45_framer.md R146) -/

theorem exec_frRun (s : State) : exec .frRun s = conclude (frRunRun s) := exec_eq_conclude .frRun s nofun

theorem frRunRun_of_no_room {s : State} (hfull : s.params.oCap < framedLength (pkBytes s)) :
    frRunRun s = .raise .ovf 1 s := if_pos hfull

theorem frRunRun_of_room {s : State} (hroom : framedLength (pkBytes s) ≤ s.params.oCap) :
    frRunRun s = .ok (framed s) := if_neg hroom.not_gt

/-- Settles O15: the test of the capacity, then the stream framed. -/
theorem frRunWritesTheFramedStream : Obligations.FrRunWritesTheFramedStream := by
  refine ⟨decode_frRun_word, fun s => ?_⟩
  rw [exec_frRun]
  refine ⟨fun hfull => ?ovf, fun hs hroom => ?frames⟩
  case ovf => rw [frRunRun_of_no_room hfull, conclude_raise]
  case frames =>
    rw [frRunRun_of_room hroom, conclude_ok]
    have hframed : StreamFramed s (finish (framed s)) := streamFramed_of_framed hs.legal hroom rfl rfl rfl
    exact ⟨finish (framed s), rfl, rfl, hframed.length, hframed.data, hframed.full, hframed.last, hframed.terminator,
      hframed.beyond⟩

end Sys2Proof.Machine
end

section
/-! The whole-call command LZ_RAW (46_lzw_composite.md R151): its word, its faults in the order tested, and the chunks,
the closing sub-block and the terminator it leaves in OBUF. Settles O29. -/

namespace Sys2Proof.Machine

/-! ### The word (30_encoding.md R74) -/

/-- The one word of LZ_RAW. -/
theorem decode_lzRaw_word : decode 0x00000044 = .instr .lzRaw := by decide

theorem exec_lzRaw (s : State) : exec .lzRaw s = conclude (lzRawRun s) := exec_eq_conclude .lzRaw s nofun

/-! ### The tests before the loop (46_lzw_composite.md R151) -/

/-- Codes of one byte: the initial width is 8 exactly for the palettes of 65 to 128 colours. -/
theorem initialWidth_eq_eight_iff {p : Nat} (hp : 0 < p) (hp' : p ≤ 256) :
    initialWidth p = 8 ↔ 65 ≤ p ∧ p ≤ 128 := by
  obtain ⟨hwidth, -⟩ := initialWidth_legal p hp hp'
  have hlow : 6 < clog2 p ↔ 64 < p := lt_clog2 p 6
  have hhigh : clog2 p ≤ 7 ↔ p ≤ 128 := clog2_le p 7
  omega

/-- The tests of LZ_RAW on its configuration: one-byte codes, and an input inside SYMBUF. -/
structure RawConfigOk (s : State) : Prop where
  palette_ge : 65 ≤ s.lzPalsize.toNat
  palette_le : s.lzPalsize.toNat ≤ 128
  input_le : s.lzLen.toNat ≤ s.params.symCap

/-- OB_LEN after LZ_RAW: the symbols, two header bytes per chunk, the four closing bytes. -/
abbrev rawLength (s : State) : Nat := s.lzLen.toNat + 2 * ceilDiv s.lzLen.toNat 126 + 4

/-- How the loop of LZ_RAW ends on the whole input. -/
def rawBody (s : State) : RawEnd := rawLoop s s.lzPalsize.toNat s.lzLen.toNat 0 0 s.obuf

theorem lzRawRun_of_palette_illegal {s : State} (hp : s.lzPalsize.toNat = 0 ∨ 256 < s.lzPalsize.toNat) :
    lzRawRun s = .raise .cfg 1 s := if_pos hp

theorem lzRawRun_of_width_illegal {s : State} (hp : 0 < s.lzPalsize.toNat) (hp' : s.lzPalsize.toNat ≤ 256)
    (hw : s.lzPalsize.toNat < 65 ∨ 128 < s.lzPalsize.toNat) : lzRawRun s = .raise .cfg 4 s := by
  have hpal : ¬(s.lzPalsize.toNat = 0 ∨ palMax < s.lzPalsize.toNat) := not_or.2 ⟨hp.ne', hp'.not_gt⟩
  have hwidth : initialWidth s.lzPalsize.toNat ≠ 8 := fun h => by
    have := (initialWidth_eq_eight_iff hp hp').1 h
    omega
  rw [lzRawRun, if_neg hpal, if_pos hwidth]

/-- A palette with one-byte codes passes the first two tests. -/
theorem lzRawRun_of_palette {s : State} (hp : 65 ≤ s.lzPalsize.toNat) (hp' : s.lzPalsize.toNat ≤ 128) :
    lzRawRun s =
      if s.params.symCap < s.lzLen.toNat then .raise .cfg 3 s
      else if s.params.oCap < rawLength s then .raise .ovf 1 s
      else rawFinish s.lzPalsize.toNat (rawBody s) s := by
  have hpal : ¬(s.lzPalsize.toNat = 0 ∨ palMax < s.lzPalsize.toNat) := not_or.2 ⟨by omega, by unfold palMax; omega⟩
  have hwidth : ¬initialWidth s.lzPalsize.toNat ≠ 8 :=
    not_not.2 ((initialWidth_eq_eight_iff (by omega) (by omega)).2 ⟨hp, hp'⟩)
  rw [lzRawRun, if_neg hpal, if_neg hwidth]
  rfl

theorem lzRawRun_of_input_too_long {s : State} (hp : 65 ≤ s.lzPalsize.toNat) (hp' : s.lzPalsize.toNat ≤ 128)
    (hlen : s.params.symCap < s.lzLen.toNat) : lzRawRun s = .raise .cfg 3 s := by
  rw [lzRawRun_of_palette hp hp', if_pos hlen]

theorem lzRawRun_of_no_room {s : State} (hcfg : RawConfigOk s) (hfull : s.params.oCap < rawLength s) :
    lzRawRun s = .raise .ovf 1 s := by
  rw [lzRawRun_of_palette hcfg.palette_ge hcfg.palette_le, if_neg hcfg.input_le.not_gt, if_pos hfull]

theorem lzRawRun_of_room {s : State} (hcfg : RawConfigOk s) (hroom : rawLength s ≤ s.params.oCap) :
    lzRawRun s = rawFinish s.lzPalsize.toNat (rawBody s) s := by
  rw [lzRawRun_of_palette hcfg.palette_ge hcfg.palette_le, if_neg hcfg.input_le.not_gt, if_neg hroom.not_gt]

/-- The loop over symbols that are all below the palette size. -/
theorem rawBody_of_small_symbols {s : State}
    (hsmall : ∀ k, k < s.lzLen.toNat → (readSym s k).toNat < s.lzPalsize.toNat) :
    (rawBody s).bad = none ∧ (rawBody s).off = s.lzLen.toNat + 2 * ceilDiv s.lzLen.toNat 126 ∧
      (∀ j, j < s.lzLen.toNat → Memory.lookup (rawBody s).obuf (j + 2 * (j / 126) + 2) = some (readSym s j)) ∧
      (∀ c, 126 * c < s.lzLen.toNat →
        Memory.lookup (rawBody s).obuf (128 * c) = some (BitVec.ofNat 8 (min 126 (s.lzLen.toNat - 126 * c) + 1)) ∧
          Memory.lookup (rawBody s).obuf (128 * c + 1) = some (BitVec.ofNat 8 s.lzPalsize.toNat)) ∧
      ∀ x, (rawBody s).off ≤ x → Memory.lookup (rawBody s).obuf x = Memory.lookup s.obuf x := by
  obtain ⟨hbad, hoff, hsyms, hheads, hframe⟩ :=
    rawLoop_good s s.lzPalsize.toNat s.lzLen.toNat 0 s.obuf (fun k _ hk => hsmall k (by omega))
  simp only [Nat.zero_add, Nat.zero_le, true_imp_iff] at hoff hsyms hheads
  exact ⟨hbad, hoff, hsyms, hheads, fun x hx => hframe x (.inr hx)⟩

/-! ### A symbol that is not below the palette size -/

/-- The first symbol that is not below the palette size ends LZ_RAW before its byte is written: OBUF differs in front of
its place only. -/
theorem lzRawRun_of_large_symbol {s : State} {k : Nat} (hcfg : RawConfigOk s) (hroom : rawLength s ≤ s.params.oCap)
    (hk : k < s.lzLen.toNat) (hsmall : ∀ j, j < k → (readSym s j).toNat < s.lzPalsize.toNat)
    (hlarge : s.lzPalsize.toNat ≤ (readSym s k).toNat) :
    lzRawRun s = .raise .sym (BitVec.ofNat 32 k) { s with obuf := (rawBody s).obuf } ∧
      ∀ i, k + 2 * (k / 126) + 2 ≤ i → byteAt s.epoch .obuf (rawBody s).obuf i = readObuf s i := by
  obtain ⟨hbad, hframe⟩ : (rawBody s).bad = some k ∧ _ :=
    rawLoop_bad s s.lzPalsize.toNat s.lzLen.toNat 0 k s.obuf (Nat.zero_le k) (by omega) (fun j _ => hsmall j) hlarge
  refine ⟨?_, fun i hi => ?_⟩
  · rw [lzRawRun_of_room hcfg hroom, rawFinish, hbad]
  · exact congrArg (Option.getD · _) (hframe i (.inr hi))

/-! ### OBUF after a completed LZ_RAW -/

/-- The sub-block of CLEAR and END, and the terminator. -/
def rawClosing (p : Nat) : List Byte := [2, BitVec.ofNat 8 p, BitVec.ofNat 8 (p + 1), 0]

/-- What LZ_RAW makes of a state whose symbols are all below the palette size. -/
def rawWritten (s : State) : State :=
  { s with
    obuf := Memory.writeMany (rawBody s).obuf (rawBody s).off (rawClosing s.lzPalsize.toNat)
    obLen := BitVec.ofNat 32 ((rawBody s).off + 4) }

theorem lzRawRun_of_small_symbols {s : State} (hcfg : RawConfigOk s) (hroom : rawLength s ≤ s.params.oCap)
    (hsmall : ∀ k, k < s.lzLen.toNat → (readSym s k).toNat < s.lzPalsize.toNat) :
    lzRawRun s = .ok (rawWritten s) := by
  obtain ⟨hend, -⟩ := rawBody_of_small_symbols hsmall
  rw [lzRawRun_of_room hcfg hroom, rawFinish, hend]
  rfl

theorem readObuf_rawWritten_body {s : State} {x : Nat} (hx : x < (rawBody s).off ∨ (rawBody s).off + 4 ≤ x) :
    readObuf (rawWritten s) x = byteAt s.epoch .obuf (rawBody s).obuf x :=
  (byteAt_writeMany _ _ _ _ _ _).trans (dif_neg (by simp only [rawClosing, List.length_cons, List.length_nil]; omega))

theorem readObuf_rawWritten_closing (s : State) {i : Nat} (hi : i < (rawClosing s.lzPalsize.toNat).length) :
    readObuf (rawWritten s) ((rawBody s).off + i) = (rawClosing s.lzPalsize.toNat)[i] := by
  refine (byteAt_writeMany _ _ _ _ _ _).trans ?_
  rw [dif_pos ⟨Nat.le_add_right _ _, by omega⟩]
  simp only [Nat.add_sub_cancel_left]

/-- OBUF of `t` holds the `n` symbols of `s` in chunks, closed for the palette size `p`, and the bytes behind the
terminator stay those of `s`. -/
structure RawLayout (p n : Nat) (s t : State) : Prop where
  length : t.obLen.toNat = n + 2 * ceilDiv n 126 + 4
  symbols : ∀ j, j < n → readObuf t (j + 2 * (j / 126) + 2) = readSym s j
  headers : ∀ c, c < ceilDiv n 126 →
    (readObuf t (128 * c)).toNat = min 126 (n - 126 * c) + 1 ∧ (readObuf t (128 * c + 1)).toNat = p
  closing : (readObuf t (t.obLen.toNat - 4)).toNat = 2 ∧ (readObuf t (t.obLen.toNat - 3)).toNat = p ∧
    (readObuf t (t.obLen.toNat - 2)).toNat = p + 1 ∧ readObuf t (t.obLen.toNat - 1) = 0
  beyond : ∀ i, t.obLen.toNat ≤ i → readObuf t i = readObuf s i

/-- Where every symbol is below the palette size, what the loop leaves in OBUF carries over to the end, since the
closing bytes stand behind it. -/
theorem rawLayout_rawWritten {s : State} (hlegal : s.params.Legal) (hp' : s.lzPalsize.toNat ≤ 128)
    (hroom : rawLength s ≤ s.params.oCap) (hsmall : ∀ k, k < s.lzLen.toNat → (readSym s k).toNat < s.lzPalsize.toNat) :
    RawLayout s.lzPalsize.toNat s.lzLen.toNat s (rawWritten s) := by
  obtain ⟨-, hoff, hsyms, hheads, hframe⟩ := rawBody_of_small_symbols hsmall
  obtain ⟨-, -, -, -, hcap, -⟩ := hlegal
  have hlength : (rawWritten s).obLen.toNat = (rawBody s).off + 4 := by
    rw [rawWritten, hoff]
    exact Nat.mod_eq_of_lt ((hroom.trans hcap).trans_lt (by decide))
  have hbody : ∀ {x b}, x < (rawBody s).off → Memory.lookup (rawBody s).obuf x = some b →
      readObuf (rawWritten s) x = b := fun hx hb => by
    rw [readObuf_rawWritten_body (.inl hx), byteAt, hb, Option.getD_some]
  have hclosing : ∀ i (hi : i < 4),
      readObuf (rawWritten s) ((rawWritten s).obLen.toNat - (4 - i)) = (rawClosing s.lzPalsize.toNat)[i] :=
    fun i hi => by rw [← readObuf_rawWritten_closing s hi]; congr 1; omega
  refine ⟨by rw [hlength, hoff], fun j hj => ?symbols, fun c hc => ?headers, ⟨?two, ?clear, ?endc, ?terminator⟩,
    fun i hi => ?beyond⟩
  case symbols => exact hbody (by rw [hoff, ceilDiv]; omega) (hsyms j hj)
  case headers =>
    have hc' : 126 * c < s.lzLen.toNat := by rw [ceilDiv] at hc; omega
    obtain ⟨hsize, hclear⟩ := hheads c hc'
    rw [hbody (by rw [hoff]; omega) hsize, hbody (by rw [hoff]; omega) hclear]
    exact ⟨Nat.mod_eq_of_lt (by omega), Nat.mod_eq_of_lt (by omega)⟩
  case two => rw [hclosing 0 (by decide)]; rfl
  case clear => rw [hclosing 1 (by decide)]; exact Nat.mod_eq_of_lt (by omega)
  case endc => rw [hclosing 2 (by decide)]; exact Nat.mod_eq_of_lt (by omega)
  case terminator => rw [hclosing 3 (by decide)]; rfl
  case beyond =>
    rw [hlength] at hi
    rw [readObuf_rawWritten_body (.inr hi)]
    exact congrArg (Option.getD · _) (hframe i (Nat.le_of_add_right_le hi))

/-- Settles O29: the four tests in order, then the first symbol that is too large, or the chunks and their closing. -/
theorem lzRawWritesTheChunks : Obligations.LzRawWritesTheChunks := by
  refine ⟨decode_lzRaw_word, fun s => ?_⟩
  rw [exec_lzRaw]
  refine ⟨fun hp => ?palette, fun hp hw hp' => ?width, fun hp hp' => ⟨fun hlen => ?input,
    fun hlen => ⟨fun hfull => ?ovf, fun hroom => ⟨fun k hk hsmall hlarge => ?symbol, fun hlegal hsmall => ?writes⟩⟩⟩⟩
  case palette => rw [lzRawRun_of_palette_illegal hp, conclude_raise]
  case width => rw [lzRawRun_of_width_illegal hp hp' hw, conclude_raise]
  case input => rw [lzRawRun_of_input_too_long hp hp' hlen, conclude_raise]
  case ovf => rw [lzRawRun_of_no_room ⟨hp, hp', hlen⟩ hfull, conclude_raise]
  case symbol =>
    obtain ⟨hrun, hbeyond⟩ := lzRawRun_of_large_symbol ⟨hp, hp', hlen⟩ hroom hk hsmall hlarge
    rw [hrun, conclude_raise]
    exact ⟨_, rfl, rfl, hbeyond⟩
  case writes =>
    have hlayout := rawLayout_rawWritten hlegal hp' hroom hsmall
    obtain ⟨htwo, hclear, hendc, hterminator⟩ := hlayout.closing
    rw [lzRawRun_of_small_symbols ⟨hp, hp', hlen⟩ hroom hsmall, conclude_ok]
    exact ⟨finish (rawWritten s), rfl, rfl, hlayout.length, hlayout.symbols, hlayout.headers, htwo, hclear, hendc,
      hterminator, hlayout.beyond⟩

end Sys2Proof.Machine
end

section
/-! Fault entry and its precision (60_exceptions.md R160, R166): every command but LZ_ENC makes its tests before it
changes anything that stays valid. Settles O9. -/

namespace Sys2Proof.Machine

/-! ### Runs that test before they change -/

/-- Whatever fault `r` raises, it raises it in the state `s`. -/
def FaultsOnlyIn (s : State) (r : Run) : Prop := ∀ f info t, r = .raise f info t → t = s

theorem FaultsOnlyIn.ok (s t : State) : FaultsOnlyIn s (.ok t) := fun _ _ _ h => by cases h

theorem FaultsOnlyIn.raise (f : FaultCode) (info : Word) (s : State) : FaultsOnlyIn s (.raise f info s) :=
  fun _ _ _ h => (Run.raise.inj h).2.2.symm

/-- A test in front of a run: both ways on raise their faults in `s`. -/
theorem FaultsOnlyIn.ite {c : Prop} [Decidable c] {s : State} {r r' : Run} (hr : FaultsOnlyIn s r)
    (hr' : FaultsOnlyIn s r') : FaultsOnlyIn s (if c then r else r') := by
  split
  · exact hr
  · exact hr'

/-- A test that refuses before anything has changed, in front of a run. -/
theorem FaultsOnlyIn.refuse {c : Prop} [Decidable c] {s : State} {r : Run} {f : FaultCode} {info : Word}
    (hr : FaultsOnlyIn s r) : FaultsOnlyIn s (if c then .raise f info s else r) := .ite (.raise f info s) hr

/-- The legality test of a command word, which refuses the illegal one before the run begins. -/
theorem FaultsOnlyIn.legal {c : Prop} [Decidable c] {s : State} {r : Run} {f : FaultCode} {info : Word}
    (hr : FaultsOnlyIn s r) : FaultsOnlyIn s (if c then r else .raise f info s) := .ite hr (.raise f info s)

/-! ### The run of each command -/

theorem pkRstRun_faultsOnlyIn (s : State) : FaultsOnlyIn s (pkRstRun s) := .refuse (.ok s _)

theorem pkPushRun_faultsOnlyIn (n : Nat) (s : State) : FaultsOnlyIn s (pkPushRun n s) :=
  .refuse (.refuse (.refuse (.ok s _)))

theorem upPopRun_faultsOnlyIn (n : Nat) (s : State) : FaultsOnlyIn s (upPopRun n s) := .refuse (.refuse (.ok s _))

theorem upAlignRun_faultsOnlyIn (s : State) : FaultsOnlyIn s (upAlignRun s) := .refuse (.refuse (.ok s _))

theorem frRunRun_faultsOnlyIn (s : State) : FaultsOnlyIn s (frRunRun s) := .refuse (.ok s _)

theorem ctLookRun_faultsOnlyIn (s : State) : FaultsOnlyIn s (ctLookRun s) := .refuse (.refuse (.ok s _))

theorem pzFoldRun_faultsOnlyIn (s : State) : FaultsOnlyIn s (pzFoldRun s) := .refuse (.ok s _)

theorem pzUnfoldRun_faultsOnlyIn (s : State) : FaultsOnlyIn s (pzUnfoldRun s) := .refuse (.ok s _)

/-- The emission of CLEAR comes after LZ_BEGIN has written the dictionary, but a legal PBUF has room for it: only the
configuration check can fault (44_lzw.md R125, R129). -/
theorem lzBeginRun_faultsOnlyIn {s : State} (hlegal : s.params.Legal) : FaultsOnlyIn s (lzBeginRun s) := by
  cases hcheck : lzCheck s with
  | ok u =>
    obtain ⟨hcfg, -⟩ := lzCheck_eq_ok.1 hcheck
    rw [lzBeginRun_eq_ok.2 ⟨hcfg, clear_fits hlegal hcfg, rfl⟩]
    exact .ok s _
  | raise f info u =>
    obtain rfl := lzCheck_eq_raise hcheck
    rw [lzBeginRun, hcheck, Run.andThen_raise]
    exact .raise f info u

/-- The commands other than LZ_ENC and LZ_RAW make all their tests before they change anything. -/
theorem runOf_faultsOnlyIn {i : Instr} {s : State} (hlegal : s.params.Legal) (henc : i ≠ .lzEnc) (hraw : i ≠ .lzRaw) :
    FaultsOnlyIn s (runOf i s) := by
  cases i with
  | nop => exact .ok s s
  | rst => exact .ok s s
  | pkRst => exact pkRstRun_faultsOnlyIn s
  | pkPush n => exact .legal (pkPushRun_faultsOnlyIn n.toNat s)
  | upPop n => exact .legal (upPopRun_faultsOnlyIn n.toNat s)
  | upAlign => exact upAlignRun_faultsOnlyIn s
  | frRun => exact frRunRun_faultsOnlyIn s
  | lzBegin => exact lzBeginRun_faultsOnlyIn hlegal
  | lzStep => exact fun _ _ _ => lzStepRun_eq_raise
  | lzEnd => exact fun _ _ _ => lzEndRun_eq_raise
  | lzEnc => exact absurd rfl henc
  | lzRaw => exact absurd rfl hraw
  | ctLook => exact .legal (ctLookRun_faultsOnlyIn s)
  | pzFold => exact .legal (pzFoldRun_faultsOnlyIn s)
  | pzUnfold => exact .legal (pzUnfoldRun_faultsOnlyIn s)

/-! ### Fault entry (60_exceptions.md R166) -/

/-- LZ_RAW writes the framed output only, and fault entry sets OB_LEN to 0 wherever LZ_RAW stopped: what is left of its
work are bytes of OBUF that are no longer valid. -/
theorem faultEntry_of_lzRawRun {s u : State} {f : FaultCode} {info : Word} (h : lzRawRun s = .raise f info u) :
    faultEntry f info u = { faultEntry f info s with obuf := u.obuf } := by
  have hframe := lzRawRun_frame s
  rw [h, Run.state_raise] at hframe
  rw [hframe]
  rfl

/-- From outside the ERR state, a command that ends in the ERR state ends by fault entry after its run. -/
theorem exists_raise_of_exec_err {i : Instr} {s t : State} (hs : s.err = false) (h : exec i s = .next t)
    (ht : t.err = true) : ∃ f info u, runOf i s = .raise f info u ∧ t = faultEntry f info u := by
  have hne : t.err ≠ false := by simp [ht]
  by_cases hi : i = .rst
  · subst hi
    obtain rfl : softReset s = t := Host.Outcome.next.inj h
    exact absurd (softReset_err s) hne
  · rw [exec_eq_conclude i s hi] at h
    rcases conclude_cases h with ⟨u, hu, rfl⟩ | hraise
    · have herr := runOf_err i s
      rw [hu, Run.state_ok] at herr
      exact absurd (herr.trans hs) hne
    · exact hraise

/-- Settles O9: a fault of LZ_RAW leaves bytes of OBUF behind, any other is raised in the state before the command. -/
theorem faultEntryIsPreciseAndInvalidatesOutput : Obligations.FaultEntryIsPreciseAndInvalidatesOutput := by
  refine ⟨fun f info s => rfl, rfl, fun i s t henc hlegal hs h ht => ?_⟩
  obtain ⟨f, info, u, hrun, rfl⟩ := exists_raise_of_exec_err hs h ht
  refine ⟨f, info, ?_⟩
  by_cases hraw : i = .lzRaw
  · subst hraw
    exact ⟨faultEntry_of_lzRawRun hrun, fun hne => absurd rfl hne⟩
  · obtain rfl := runOf_faultsOnlyIn hlegal henc hraw f info u hrun
    exact ⟨rfl, fun _ => rfl⟩

end Sys2Proof.Machine
end

section
/-! The decoder against the encoder (30_encoding.md R70 to R76), and what one step does with the move that is lined up
or with the command in execution (log 1). Settles O1, O2, O3, O4, O5 and O6. -/

namespace Sys2Proof.Machine

/-! ### The decoder (30_encoding.md R70) -/

/-- A word of format CN that decodes has a legal count and zeros above it, and is the word OP + 256 * N. -/
theorem decodeCN_eq_instr {f : BitVec 6 → Instr} {i : Instr} {w : Word} {op : BitVec 8} (hop : opField w = op)
    (h : decodeCN f w = .instr i) :
    ∃ n, i = f n ∧ countLegal n = true ∧ w = BitVec.ofNat 32 (op.toNat + 2 ^ 8 * n.toNat) := by
  unfold decodeCN at h
  split_ifs at h with hhigh hlegal
  refine ⟨countField w, (Decoded.instr.inj h).symm, hlegal, BitVec.eq_of_toNat_eq ?_⟩
  have hw := w.isLt
  have hhigh : w.toNat / 2 ^ 14 % 2 ^ 18 = 0 := by
    simpa [BitVec.extractLsb'_toNat, Nat.shiftRight_eq_div_pow] using congrArg BitVec.toNat hhigh
  have hop : op.toNat = w.toNat % 256 := by simp [← hop, opField, BitVec.extractLsb'_toNat]
  have hcount : (countField w).toNat = w.toNat / 2 ^ 8 % 2 ^ 6 := by
    simp [countField, BitVec.extractLsb'_toNat, Nat.shiftRight_eq_div_pow]
  rw [BitVec.toNat_ofNat, hop, hcount]
  omega

/-- A word that decodes is the word of the command it decodes to, row by row (30_encoding.md R74, R76). -/
theorem encode_of_decode {w : Word} {i : Instr} (h : decode w = .instr i) :
    i.wellFormed = true ∧ encode i = w := by
  unfold decode at h
  split at h
  case h_4 hop =>
    obtain ⟨n, rfl, hn, rfl⟩ := decodeCN_eq_instr (op := 0x11) (BitVec.eq_of_toNat_eq hop) h
    exact ⟨hn, rfl⟩
  case h_5 hop =>
    obtain ⟨n, rfl, hn, rfl⟩ := decodeCN_eq_instr (op := 0x21) (BitVec.eq_of_toNat_eq hop) h
    exact ⟨hn, rfl⟩
  case h_16 => cases h
  all_goals
    next hop =>
      obtain ⟨rfl, hzero⟩ := decodeC0_eq_instr.1 h
      exact ⟨rfl, (eq_of_opField_of_high_zero hop hzero).symm⟩

/-- The decoder reads every well-formed command back from its word. -/
theorem decode_encode {i : Instr} (h : i.wellFormed = true) : decode (encode i) = .instr i := by
  cases i with
  | pkPush n => exact decode_pkPush_word (of_decide_eq_true h)
  | upPop n => exact decode_upPop_word (of_decide_eq_true h)
  | _ => rfl

/-- Settles O1: a word that decodes is the encoding of its command, and every well-formed command is read back. -/
theorem decodeAnswersExactlyTheEncodedCommand : Obligations.DecodeAnswersExactlyTheEncodedCommand := by
  refine fun w i => ⟨encode_of_decode, ?_⟩
  rintro ⟨hwf, rfl⟩
  exact decode_encode hwf

/-- Settles O2: ten fixed words. -/
theorem decodeReadsTheSpecsWords : Obligations.DecodeReadsTheSpecsWords := by
  unfold Obligations.DecodeReadsTheSpecsWords
  decide

/-! ### Which move a step makes (log 1) -/

theorem step_of_no_input {s : State} (h : s.inputs = []) : step s = engineTurn s := by
  rw [step, h]

theorem step_of_engine {s : State} {rest : List Input} (h : s.inputs = .engine :: rest) :
    step s = engineTurn { s with inputs := rest } := by
  rw [step, h]

theorem step_of_read {s : State} {addr : BitVec 19} {size : BitVec 2} {rest : List Input}
    (h : s.inputs = .read addr size :: rest) : step s = .next (portRead { s with inputs := rest } addr size) := by
  rw [step, h]

theorem step_of_write {s : State} {addr : BitVec 19} {size : BitVec 2} {v : Word} {rest : List Input}
    (h : s.inputs = .write addr size v :: rest) :
    step s = .next (portWrite { s with inputs := rest } addr size v) := by
  rw [step, h]

theorem step_of_hardwareReset {s : State} {rest : List Input} (h : s.inputs = .hardwareReset :: rest) :
    step s = .next (hardwareReset { s with inputs := rest }) := by
  rw [step, h]

/-! ### The engine's turn (30_encoding.md R73) -/

/-- With BUSY = 0 the engine waits. -/
theorem engineTurn_of_idle {s : State} (h : s.busy = false) : engineTurn s = .next s := by
  simp [engineTurn, h]

theorem engineTurn_of_instr {s : State} {i : Instr} (hb : s.busy = true) (hi : decode s.cmd = .instr i) :
    engineTurn s = exec i s := by
  rw [engineTurn, if_pos hb, engineComplete, fetchWord, hi]

theorem engineTurn_of_rejected {s : State} {why : IllegalWord} (hb : s.busy = true)
    (hw : decode s.cmd = .rejected why) : engineTurn s = .next (faultEntry .cmd s.cmd s) := by
  rw [engineTurn, if_pos hb, engineComplete, fetchWord, hw]
  rfl

/-- Every command has a next state (60_exceptions.md R160; log 19). -/
theorem exists_exec (i : Instr) (s : State) : ∃ t, exec i s = .next t := by
  by_cases hi : i = .rst
  · subst hi
    exact ⟨softReset s, rfl⟩
  · rw [exec_eq_conclude i s hi]
    cases runOf i s with
    | ok u => exact ⟨finish u, rfl⟩
    | raise f info u => exact ⟨faultEntry f info u, rfl⟩

/-- With BUSY = 1 the engine completes the command in execution, legal or not. -/
theorem exists_engineTurn {s : State} (hb : s.busy = true) : ∃ t, engineTurn s = .next t ∧ t.busy = false := by
  cases hd : decode s.cmd with
  | instr i =>
    obtain ⟨t, ht⟩ := exists_exec i s
    exact ⟨t, (engineTurn_of_instr hb hd).trans ht, (exec_params_busy ht).2⟩
  | rejected why => exact ⟨_, engineTurn_of_rejected hb hd, rfl⟩

/-- Settles O3: the engine's turn with a legal word in CMD. -/
theorem stepRunsTheDecodedCommand : Obligations.StepRunsTheDecodedCommand := by
  intro s i hb hi
  refine ⟨fun hin => ?_, fun rest hin => ?_⟩
  · rw [step_of_no_input hin, engineTurn_of_instr hb hi]
  · exact (step_of_engine hin).trans (engineTurn_of_instr hb hi)

/-- An illegal word in CMD: one that is no encoding, or the word of a command whose unit is absent (R75). -/
theorem engineTurn_of_illegal {s : State} (hb : s.busy = true)
    (h : (¬ ∃ i, i.wellFormed = true ∧ encode i = s.cmd) ∨ (s.cmd = 0x50 ∧ s.params.hasCtm = false) ∨
      ((s.cmd = 0x60 ∨ s.cmd = 0x61) ∧ s.params.hasPlut = false)) :
    engineTurn s = .next (faultEntry .cmd s.cmd s) := by
  rcases h with hnone | ⟨hcmd, habsent⟩ | ⟨hcmd | hcmd, habsent⟩
  · cases hd : decode s.cmd with
    | instr i => exact absurd ⟨i, encode_of_decode hd⟩ hnone
    | rejected why => exact engineTurn_of_rejected hb hd
  · rw [engineTurn_of_instr hb (hcmd ▸ decode_ctLook_word), exec_ctLook, if_neg (Bool.eq_false_iff.1 habsent)]
  · rw [engineTurn_of_instr hb (hcmd ▸ decode_pzFold_word), exec_pzFold, if_neg (Bool.eq_false_iff.1 habsent)]
  · rw [engineTurn_of_instr hb (hcmd ▸ decode_pzUnfold_word), exec_pzUnfold, if_neg (Bool.eq_false_iff.1 habsent)]

/-- Settles O4: the engine's turn with an illegal word in CMD. -/
theorem illegalWordFaultsWithTheWord : Obligations.IllegalWordFaultsWithTheWord := by
  intro s hb hill
  refine ⟨fun hin => ?_, fun rest hin => ?_⟩
  · rw [step_of_no_input hin, engineTurn_of_illegal hb hill]
  · rw [step_of_engine hin]
    exact engineTurn_of_illegal hb hill

/-- Settles O6: the engine's turn has a next state, whatever the word in CMD. -/
theorem everyAcceptedCommandCompletes : Obligations.EveryAcceptedCommandCompletes := by
  rintro s hb (hin | ⟨rest, hin⟩)
  · rw [step_of_no_input hin]
    exact exists_engineTurn hb
  · rw [step_of_engine hin]
    exact exists_engineTurn hb

/-! ### Transfers and waiting (20_memory.md R52) -/

/-- A read transfer changes the response of the port, and nothing else. -/
theorem portRead_eq (s : State) (addr : BitVec 19) (size : BitVec 2) :
    portRead s addr size = { s with
      port := match hostRead s addr.toNat (portBytes size) with
        | some v => .okRead v
        | none => .busError } := by
  unfold portRead
  cases hostRead s addr.toNat (portBytes size) <;> rfl

/-- Settles O5: one move of each kind, and the two idle turns. -/
theorem stepPerformsTheLinedUpMove : Obligations.StepPerformsTheLinedUpMove := by
  refine ⟨fun s addr size rest hin => ?read, fun s addr size v rest hin => ?write, fun s rest hin => ?reset,
    fun s hb hin => ?waits, fun s rest hb hin => ?turn⟩
  case read => exact (step_of_read hin).trans (congrArg _ (portRead_eq _ addr size))
  case write => exact step_of_write hin
  case reset => exact step_of_hardwareReset hin
  case waits => rw [step_of_no_input hin, engineTurn_of_idle hb]
  case turn => exact (step_of_engine hin).trans (engineTurn_of_idle hb)

end Sys2Proof.Machine
end

section
/-! What each command writes (10_state.md R15 to R29; 20_memory.md R51): the fields its run may change, and from them
the memories and registers it leaves alone. Settles O34 and O35. -/

namespace Sys2Proof.Machine

/-! ### The fields a command writes -/

/-- `s` with the fields that the run of command `i` may write taken from `u`. -/
def withWritesOf (i : Instr) (s u : State) : State :=
  match i with
  | .nop => s
  | .rst => s
  | .pkRst => { s with pkBits := u.pkBits }
  | .pkPush _ => { s with pkBits := u.pkBits, pbuf := u.pbuf }
  | .upPop _ => { s with upData := u.upData, upPos := u.upPos }
  | .upAlign => { s with upPos := u.upPos }
  | .frRun => { s with obLen := u.obLen, obuf := u.obuf }
  | .lzBegin => { s with
      phase := u.phase, pkBits := u.pkBits, pbuf := u.pbuf, lzPos := u.lzPos, lzW := u.lzW, lzDsize := u.lzDsize
      lzLast := u.lzLast, dict := u.dict }
  | .lzStep => { s with
      pkBits := u.pkBits, pbuf := u.pbuf, lzPos := u.lzPos, lzW := u.lzW, lzDsize := u.lzDsize, lzLast := u.lzLast
      dict := u.dict }
  | .lzEnd => { s with phase := u.phase, pkBits := u.pkBits, pbuf := u.pbuf, lzLast := u.lzLast }
  | .lzEnc => { s with
      phase := u.phase, pkBits := u.pkBits, pbuf := u.pbuf, obLen := u.obLen, obuf := u.obuf, lzPos := u.lzPos
      lzW := u.lzW, lzDsize := u.lzDsize, lzLast := u.lzLast, dict := u.dict }
  | .lzRaw => { s with obLen := u.obLen, obuf := u.obuf }
  | .ctLook => { s with color := u.color, colorT := u.colorT }
  | .pzFold => { s with tuple := u.tuple }
  | .pzUnfold => { s with color := u.color }

/-- A command taken as an illegal word changes nothing, so it keeps the frame of its run. -/
theorem withWritesOf_ite {c : Prop} [Decidable c] {i : Instr} {r : Run} {s : State} {f : FaultCode} {info : Word}
    (h : r.state = withWritesOf i s r.state) (hself : s = withWritesOf i s s) :
    (if c then r else .raise f info s).state =
      withWritesOf i s (if c then r else .raise f info s).state := by
  split
  · exact h
  · exact hself

/-- The run of a command writes no other field than those listed for it. -/
theorem runOf_eq_withWritesOf (i : Instr) (s : State) :
    (runOf i s).state = withWritesOf i s (runOf i s).state := by
  cases i with
  | nop => rfl
  | rst => rfl
  | pkRst => exact pkRstRun_frame s
  | pkPush n => exact withWritesOf_ite (pkPushRun_frame n.toNat s) rfl
  | upPop n => exact withWritesOf_ite (upPopRun_frame n.toNat s) rfl
  | upAlign => exact upAlignRun_frame s
  | frRun => exact frRunRun_frame s
  | lzBegin => exact lzBeginRun_frame s
  | lzStep => exact lzStepRun_frame s
  | lzEnd => exact lzEndRun_frame s
  | lzEnc => exact lzEncRun_frame s
  | lzRaw => exact lzRawRun_frame s
  | ctLook => exact withWritesOf_ite (ctLookRun_frame s) rfl
  | pzFold => exact withWritesOf_ite (pzFoldRun_frame s) rfl
  | pzUnfold => exact withWritesOf_ite (pzUnfoldRun_frame s) rfl

/-! ### Memories (20_memory.md R51) -/

/-- DICT is written by the commands of the encoder that append or begin. -/
theorem runOf_dict_of_ne {i : Instr} (s : State) (hbegin : i ≠ .lzBegin) (hstep : i ≠ .lzStep) (henc : i ≠ .lzEnc) :
    (runOf i s).state.dict = s.dict := by
  rw [runOf_eq_withWritesOf]
  cases i with
  | lzBegin => exact absurd rfl hbegin
  | lzStep => exact absurd rfl hstep
  | lzEnc => exact absurd rfl henc
  | _ => rfl

/-- PBUF is written by the commands that append to the packed stream. -/
theorem runOf_pbuf_of_ne {i : Instr} (s : State) (hbegin : i ≠ .lzBegin) (hstep : i ≠ .lzStep) (henc : i ≠ .lzEnc)
    (hend : i ≠ .lzEnd) (hpush : ∀ n, i ≠ .pkPush n) : (runOf i s).state.pbuf = s.pbuf := by
  rw [runOf_eq_withWritesOf]
  cases i with
  | lzBegin => exact absurd rfl hbegin
  | lzStep => exact absurd rfl hstep
  | lzEnc => exact absurd rfl henc
  | lzEnd => exact absurd rfl hend
  | pkPush n => exact absurd rfl (hpush n)
  | _ => rfl

/-- OBUF is written by the commands that frame. -/
theorem runOf_obuf_of_ne {i : Instr} (s : State) (hframe : i ≠ .frRun) (henc : i ≠ .lzEnc) (hraw : i ≠ .lzRaw) :
    (runOf i s).state.obuf = s.obuf := by
  rw [runOf_eq_withWritesOf]
  cases i with
  | frRun => exact absurd rfl hframe
  | lzEnc => exact absurd rfl henc
  | lzRaw => exact absurd rfl hraw
  | _ => rfl

/-- The memories no command writes, and the epoch their free contents go by. -/
theorem runOf_fixed_memories (i : Instr) (s : State) :
    (runOf i s).state.epoch = s.epoch ∧ (runOf i s).state.ct = s.ct ∧ (runOf i s).state.symbuf = s.symbuf ∧
      (runOf i s).state.ubuf = s.ubuf := by
  rw [runOf_frame]
  exact ⟨rfl, rfl, rfl, rfl⟩

/-- Completion writes no memory: what a command leaves in the memories is what its run left. -/
theorem exec_memories {i : Instr} {s t : State} (h : exec i s = .next t) :
    (i = .rst ∧ t = softReset s) ∨
      (t.epoch = (runOf i s).state.epoch ∧ t.ct = (runOf i s).state.ct ∧ t.symbuf = (runOf i s).state.symbuf ∧
        t.ubuf = (runOf i s).state.ubuf ∧ t.dict = (runOf i s).state.dict ∧ t.pbuf = (runOf i s).state.pbuf ∧
        t.obuf = (runOf i s).state.obuf) := by
  rcases exec_cases h with hrst | rfl | ⟨f, info, rfl⟩
  · exact .inl hrst
  · exact .inr ⟨rfl, rfl, rfl, rfl, rfl, rfl, rfl⟩
  · exact .inr ⟨rfl, rfl, rfl, rfl, rfl, rfl, rfl⟩

/-- Settles O34: RST keeps every memory, every other command those its run keeps. -/
theorem commandsWriteOnlyTheirMemories : Obligations.CommandsWriteOnlyTheirMemories := by
  intro i s t h
  refine ⟨(exec_params_busy h).1, ?_⟩
  rcases exec_memories h with ⟨rfl, rfl⟩ | ⟨hepoch, hct, hsymbuf, hubuf, hdict, hpbuf, hobuf⟩
  · simp
  · obtain ⟨hepoch', hct', hsymbuf', hubuf'⟩ := runOf_fixed_memories i s
    exact ⟨hepoch.trans hepoch', hct.trans hct', hsymbuf.trans hsymbuf', hubuf.trans hubuf',
      fun hb hs he => hdict.trans (runOf_dict_of_ne s hb hs he),
      fun hb hs he hl hp => hpbuf.trans (runOf_pbuf_of_ne s hb hs he hl hp),
      fun hf he hr => hobuf.trans (runOf_obuf_of_ne s hf he hr)⟩

/-! ### Registers (10_state.md R15, R20, R23, R24, R26 to R29) -/

/-- The registers that only the host writes, RST apart. -/
theorem runOf_host_registers (i : Instr) (s : State) :
    (runOf i s).state.cmd = s.cmd ∧ (runOf i s).state.intEn = s.intEn ∧ (runOf i s).state.pkData = s.pkData ∧
      (runOf i s).state.upLen = s.upLen ∧ (runOf i s).state.lzPalsize = s.lzPalsize ∧
      (runOf i s).state.lzMaxbits = s.lzMaxbits ∧ (runOf i s).state.lzLen = s.lzLen ∧
      (runOf i s).state.ctBpp = s.ctBpp ∧ (runOf i s).state.pxIn = s.pxIn ∧ (runOf i s).state.pxMask = s.pxMask ∧
      (runOf i s).state.pzLevel = s.pzLevel ∧ (runOf i s).state.pzAbits = s.pzAbits := by
  rw [runOf_frame]
  exact ⟨rfl, rfl, rfl, rfl, rfl, rfl, rfl, rfl, rfl, rfl, rfl, rfl⟩

/-- UP_DATA changes by UP_POP only, the cursor by the two unpacker commands. -/
theorem runOf_unpacker_of_ne {i : Instr} (s : State) (hpop : ∀ n, i ≠ .upPop n) :
    (runOf i s).state.upData = s.upData ∧ (i ≠ .upAlign → (runOf i s).state.upPos = s.upPos) := by
  rw [runOf_eq_withWritesOf]
  cases i with
  | upPop n => exact absurd rfl (hpop n)
  | upAlign => exact ⟨rfl, fun halign => absurd rfl halign⟩
  | _ => exact ⟨rfl, fun _ => rfl⟩

/-- COLOR_T changes by CT_LOOK only, COLOR by CT_LOOK and PZ_UNFOLD. -/
theorem runOf_colour_of_ne {i : Instr} (s : State) (hlook : i ≠ .ctLook) :
    (runOf i s).state.colorT = s.colorT ∧ (i ≠ .pzUnfold → (runOf i s).state.color = s.color) := by
  rw [runOf_eq_withWritesOf]
  cases i with
  | ctLook => exact absurd rfl hlook
  | pzUnfold => exact ⟨rfl, fun hunfold => absurd rfl hunfold⟩
  | _ => exact ⟨rfl, fun _ => rfl⟩

/-- TUPLE changes by PZ_FOLD only. -/
theorem runOf_tuple_of_ne {i : Instr} (s : State) (hfold : i ≠ .pzFold) : (runOf i s).state.tuple = s.tuple := by
  rw [runOf_eq_withWritesOf]
  cases i with
  | pzFold => exact absurd rfl hfold
  | _ => rfl

/-- The working registers of the encoder change by its four commands only. -/
theorem runOf_lzw_of_ne {i : Instr} (s : State) (hbegin : i ≠ .lzBegin) (hstep : i ≠ .lzStep) (hend : i ≠ .lzEnd)
    (henc : i ≠ .lzEnc) :
    (runOf i s).state.lzPos = s.lzPos ∧ (runOf i s).state.lzW = s.lzW ∧ (runOf i s).state.lzDsize = s.lzDsize ∧
      (runOf i s).state.lzLast = s.lzLast := by
  rw [runOf_eq_withWritesOf]
  cases i with
  | lzBegin => exact absurd rfl hbegin
  | lzStep => exact absurd rfl hstep
  | lzEnd => exact absurd rfl hend
  | lzEnc => exact absurd rfl henc
  | _ => exact ⟨rfl, rfl, rfl, rfl⟩

/-- Settles O35: completion writes none of these registers, and its run only those of its command. -/
theorem commandsKeepTheOtherRegisters : Obligations.CommandsKeepTheOtherRegisters := by
  intro i s t hi h
  obtain ⟨hcmd, hen, hdata, hlen, hpal, hmax, hinput, hbpp, hpx, hmask, hlevel, habits⟩ := runOf_host_registers i s
  rcases exec_cases h with ⟨rfl, -⟩ | rfl | ⟨f, info, rfl⟩
  · exact absurd rfl hi
  all_goals
    exact ⟨hcmd, hen, hdata, hlen, hpal, hmax, hinput, hbpp, hpx, hmask, hlevel, habits, runOf_unpacker_of_ne s,
      runOf_colour_of_ne s, runOf_tuple_of_ne s, runOf_lzw_of_ne s⟩

end Sys2Proof.Machine
end

section
/-! Invariants along a step (00_scope.md R10): what a property needs to be kept by every step, said once; then the
canonical memories, the ERR state, and the pending interrupt bits. Settles O51, O52, O56, O57 and O59. -/

namespace Sys2Proof.Machine

/-! ### One induction step for every invariant -/

/-- How a command ends, by the run that it completes: RST in its reset, a run to its end by `finish`, a fault by fault
entry (30_encoding.md R73). -/
theorem exec_outcome {i : Instr} {s t : State} (h : exec i s = .next t) :
    (i = .rst ∧ t = softReset s) ∨ (∃ u, i ≠ .rst ∧ runOf i s = .ok u ∧ t = finish u) ∨
      ∃ f info u, i ≠ .rst ∧ runOf i s = .raise f info u ∧ t = faultEntry f info u := by
  by_cases hi : i = .rst
  · subst hi
    exact .inl ⟨rfl, (Host.Outcome.next.inj h).symm⟩
  · rw [exec_eq_conclude i s hi] at h
    rcases conclude_cases h with ⟨u, hu, rfl⟩ | ⟨f, info, u, hu, rfl⟩
    · exact .inr (.inl ⟨u, hi, hu, rfl⟩)
    · exact .inr (.inr ⟨f, info, u, hi, hu, rfl⟩)

/-- The ways a state changes, each of which an invariant `P` has to be kept by: the use of a move and the port's
response, a host write, the two resets, fault entry on an illegal word, and the two ends of the command in execution. -/
structure Kept (P : State → Prop) : Prop where
  move : ∀ s is p, P s → P { s with inputs := is, port := p }
  write : ∀ s t off n v, P s → hostWrite s off n v = some t → P t
  hardwareReset : ∀ s, P s → P (hardwareReset s)
  softReset : ∀ s, P s → P (softReset s)
  reject : ∀ s, P s → P (faultEntry .cmd s.cmd s)
  done : ∀ s i u, P s → s.busy = true → decode s.cmd = .instr i → i ≠ .rst → runOf i s = .ok u → P (finish u)
  fault : ∀ s i f info u, P s → s.busy = true → decode s.cmd = .instr i → i ≠ .rst → runOf i s = .raise f info u →
    P (faultEntry f info u)

/-- What is kept by each way a state changes is kept by every step. -/
theorem Kept.step {P : State → Prop} (h : Kept P) {s t : State} (hs : P s) (ht : step s = .next t) : P t := by
  rcases step_cases ht with e | ⟨rest, addr, size, v, u, -, hu, rfl⟩ | ⟨rest, -, rfl⟩ |
      ⟨rest, -, hb, ⟨i, hi, hx⟩ | ⟨-, rfl⟩⟩
  · rw [e]
    exact h.move s _ _ hs
  · exact h.move u u.inputs .okWrite (h.write _ u _ _ v (h.move s rest s.port hs) hu)
  · exact h.hardwareReset _ (h.move s rest s.port hs)
  · have hs' := h.move s rest s.port hs
    rcases exec_outcome hx with ⟨-, rfl⟩ | ⟨u, hne, hu, rfl⟩ | ⟨f, info, u, hne, hu, rfl⟩
    · exact h.softReset _ hs'
    · exact h.done _ i u hs' hb hi hne hu
    · exact h.fault _ i f info u hs' hb hi hne hu
  · exact h.reject _ (h.move s rest s.port hs)

/-! ### Canonical memories (log 16) -/

theorem memoriesWf_iff (s : State) :
    memoriesWf s = true ↔
      Memory.wf s.ct = true ∧ Memory.wf s.dict = true ∧ Memory.wf s.symbuf = true ∧ Memory.wf s.ubuf = true ∧
        Memory.wf s.pbuf = true ∧ Memory.wf s.obuf = true := by
  simp only [memoriesWf, Bool.and_eq_true, and_assoc]

/-- The three memories that commands write are canonical. -/
structure OutputsWf (s : State) : Prop where
  dict : Memory.wf s.dict = true
  pbuf : Memory.wf s.pbuf = true
  obuf : Memory.wf s.obuf = true

theorem OutputsWf.andThen {r : Run} {k : State → Run} (hr : OutputsWf r.state)
    (hk : ∀ u, OutputsWf u → OutputsWf (k u).state) : OutputsWf (r.andThen k).state := by
  rcases Run.state_andThen r k with h | h
  · exact h ▸ hr
  · exact h ▸ hk _ hr

theorem OutputsWf.emitted {s : State} (h : OutputsWf s) (c : Nat) : OutputsWf (emitted c s) :=
  ⟨h.dict, mergeBits_wf _ _ _ _ _ h.pbuf, h.obuf⟩

theorem OutputsWf.lzEmit {s : State} (h : OutputsWf s) (c : Nat) : OutputsWf (lzEmit c s).state := by
  rcases lzEmit_cases c s with ⟨-, e⟩ | ⟨-, e⟩ <;> rw [e]
  · exact h
  · exact h.emitted c

theorem OutputsWf.lzBeginRun {s : State} (h : OutputsWf s) : OutputsWf (lzBeginRun s).state := by
  refine .andThen (by rwa [lzCheck_state]) fun a ha => .andThen (.lzEmit ?_ _) fun t ht => ⟨ht.dict, ht.pbuf, ht.obuf⟩
  exact ⟨initDict_wf _ _ ha.dict, ha.pbuf, ha.obuf⟩

theorem OutputsWf.lzAppend {s : State} (h : OutputsWf s) (c : Nat) : OutputsWf (lzAppend c s) := by
  rcases lzAppend_cases c s with ⟨-, e⟩ | ⟨-, e⟩ <;> rw [e]
  · exact ⟨Memory.wf_write _ _ _ h.dict, h.pbuf, h.obuf⟩
  · exact h

theorem OutputsWf.lzStepRun {s : State} (h : OutputsWf s) : OutputsWf (lzStepRun s).state := by
  cases hr : Machine.lzStepRun s with
  | ok t =>
    obtain ⟨-, -, -, c, len, -, rfl⟩ := lzStepRun_eq_ok.1 hr
    have he := h.emitted c
    exact OutputsWf.lzAppend (s := { Machine.emitted c s with lzPos := BitVec.ofNat 32 (s.lzPos.toNat + len) })
      ⟨he.dict, he.pbuf, he.obuf⟩ c
  | raise f info t =>
    obtain rfl := lzStepRun_eq_raise hr
    exact h

theorem OutputsWf.lzSteps {s : State} (h : OutputsWf s) (fuel : Nat) : OutputsWf (lzSteps fuel s).state := by
  induction fuel generalizing s with
  | zero => exact h
  | succ fuel ih =>
    unfold Machine.lzSteps
    split
    · exact .andThen h.lzStepRun fun u hu => ih hu
    · exact h

theorem OutputsWf.lzEndRun {s : State} (h : OutputsWf s) : OutputsWf (lzEndRun s).state := by
  unfold Machine.lzEndRun
  split
  · exact h
  · exact .andThen (h.lzEmit _) fun t ht => ⟨ht.dict, ht.pbuf, ht.obuf⟩

theorem OutputsWf.frRunRun {s : State} (h : OutputsWf s) : OutputsWf (frRunRun s).state := by
  unfold Machine.frRunRun
  split
  · exact h
  · exact ⟨h.dict, h.pbuf, Memory.wf_writeMany _ _ _ h.obuf⟩

theorem OutputsWf.lzEncRun {s : State} (h : OutputsWf s) : OutputsWf (lzEncRun s).state :=
  .andThen h.lzBeginRun fun _ ha => .andThen (ha.lzSteps _) fun _ hb => .andThen hb.lzEndRun fun _ he => he.frRunRun

theorem OutputsWf.pkPushRun {s : State} (h : OutputsWf s) (n : Nat) : OutputsWf (pkPushRun n s).state := by
  unfold Machine.pkPushRun
  split
  · exact h
  · split
    · exact h
    · rcases pkPush_cases s.pkData.toNat n s with ⟨-, e⟩ | ⟨-, e⟩ <;> rw [e]
      · exact h
      · exact ⟨h.dict, mergeBits_wf _ _ _ _ _ h.pbuf, h.obuf⟩

theorem OutputsWf.rawFinish {s : State} (h : OutputsWf s) (p : Nat) {e : RawEnd} (he : Memory.wf e.obuf = true) :
    OutputsWf (rawFinish p e s).state := by
  unfold Machine.rawFinish
  split
  · exact ⟨h.dict, h.pbuf, he⟩
  · exact ⟨h.dict, h.pbuf, Memory.wf_writeMany _ _ _ he⟩

theorem OutputsWf.lzRawRun {s : State} (h : OutputsWf s) : OutputsWf (lzRawRun s).state := by
  unfold Machine.lzRawRun
  dsimp only
  repeat' split
  case isFalse => exact h.rawFinish _ (rawLoop_wf _ _ _ _ _ _ h.obuf)
  all_goals exact h

/-- Every run keeps the canonical form of the memories it writes. -/
theorem OutputsWf.runOf {s : State} (h : OutputsWf s) (i : Instr) : OutputsWf (runOf i s).state := by
  have kept : ∀ {u : State}, u.dict = s.dict → u.pbuf = s.pbuf → u.obuf = s.obuf → OutputsWf u :=
    fun hd hp ho => ⟨hd ▸ h.dict, hp ▸ h.pbuf, ho ▸ h.obuf⟩
  cases i with
  | pkPush n =>
    unfold Machine.runOf
    dsimp only
    split
    · exact h.pkPushRun n.toNat
    · exact h
  | frRun => exact h.frRunRun
  | lzBegin => exact h.lzBeginRun
  | lzStep => exact h.lzStepRun
  | lzEnd => exact h.lzEndRun
  | lzEnc => exact h.lzEncRun
  | lzRaw => exact h.lzRawRun
  | _ =>
    exact kept (runOf_dict_of_ne s nofun nofun nofun) (runOf_pbuf_of_ne s nofun nofun nofun nofun nofun)
      (runOf_obuf_of_ne s nofun nofun nofun)

theorem memoriesWf_runOf {s : State} (h : memoriesWf s = true) (i : Instr) : memoriesWf (runOf i s).state = true := by
  obtain ⟨hct, hdict, hsymbuf, hubuf, hpbuf, hobuf⟩ := (memoriesWf_iff s).1 h
  obtain ⟨-, ect, esymbuf, eubuf⟩ := runOf_fixed_memories i s
  obtain ⟨hdict', hpbuf', hobuf'⟩ := OutputsWf.runOf ⟨hdict, hpbuf, hobuf⟩ i
  exact (memoriesWf_iff _).2 ⟨ect ▸ hct, hdict', esymbuf ▸ hsymbuf, eubuf ▸ hubuf, hpbuf', hobuf'⟩

theorem memoriesWf_hostWrite {s t : State} {off n : Nat} {v : Word} (hs : memoriesWf s = true)
    (h : hostWrite s off n v = some t) : memoriesWf t = true := by
  obtain ⟨hct, hdict, hsymbuf, hubuf, hpbuf, hobuf⟩ := (memoriesWf_iff s).1 hs
  rw [memoriesWf_iff]
  rcases (hostWrite_cases h).2 with ⟨-, -, -, -, rfl⟩ | ⟨-, ⟨r, g, -, -, -, -, -, rfl⟩ | ⟨k, g, rfl⟩ | ⟨i, g, -, rfl⟩ |
      ⟨i, g, rfl⟩⟩
  · exact ⟨hct, hdict, hsymbuf, hubuf, hpbuf, hobuf⟩
  · rw [writeReg_frame]
    exact ⟨hct, hdict, hsymbuf, hubuf, hpbuf, hobuf⟩
  · exact ⟨Memory.wf_write _ _ _ hct, hdict, hsymbuf, hubuf, hpbuf, hobuf⟩
  · exact ⟨hct, hdict, Memory.wf_writeMany _ _ _ hsymbuf, hubuf, hpbuf, hobuf⟩
  · exact ⟨hct, hdict, hsymbuf, Memory.wf_writeMany _ _ _ hubuf, hpbuf, hobuf⟩

theorem kept_memoriesWf : Kept fun s => memoriesWf s = true where
  move _ _ _ h := h
  write _ _ _ _ _ hs h := memoriesWf_hostWrite hs h
  hardwareReset _ _ := rfl
  softReset _ h := h
  reject _ h := h
  done s i u hs _ _ _ hu := by
    have hw := memoriesWf_runOf hs i
    rw [hu] at hw
    exact hw
  fault s i f info u hs _ _ _ hu := by
    have hw := memoriesWf_runOf hs i
    rw [hu] at hw
    exact hw

/-- Settles O51: writes keep the canonical form, and memories change by writes only. -/
theorem stepKeepsMemoriesCanonical : Obligations.StepKeepsMemoriesCanonical :=
  fun _ _ => kept_memoriesWf.step

/-! ### The ERR state (10_state.md R22; 60_exceptions.md R166 to R169) -/

/-- The codes of the nine faults. -/
theorem faultNumber_bounds (f : FaultCode) : 1 ≤ (faultNumber f).toNat ∧ (faultNumber f).toNat ≤ 9 := by
  cases f <;> decide

/-- Fault entry meets the rules of the ERR state, from any state. -/
theorem errStateOk_faultEntry (f : FaultCode) (info : Word) (s : State) : ErrStateOk (faultEntry f info s) where
  quiet h := nomatch h
  stopped _ := ⟨rfl, rfl, rfl, rfl, faultNumber_bounds f⟩
  onlyRst _ h := nomatch h

/-- Outside the ERR state the rules ask only for an empty fault record. -/
theorem errStateOk_of_quiet {s : State} (he : s.err = false) (hcode : s.errCode = 0) (hinfo : s.errInfo = 0) :
    ErrStateOk s where
  quiet _ := ⟨hcode, hinfo⟩
  stopped h := by simp [he] at h
  onlyRst h := by simp [he] at h

/-- With BUSY = 1 in the ERR state the command in execution is RST. -/
theorem ErrStateOk.eq_rst {s : State} (h : ErrStateOk s) (he : s.err = true) (hb : s.busy = true) {i : Instr}
    (hi : decode s.cmd = .instr i) : i = .rst := by
  rw [h.onlyRst he hb] at hi
  exact (Decoded.instr.inj hi).symm

/-- No run of a command writes the fault record or the interrupt bits: `finish` and fault entry do. -/
theorem runOf_record (i : Instr) (s : State) :
    (runOf i s).state.errCode = s.errCode ∧ (runOf i s).state.errInfo = s.errInfo ∧
      (runOf i s).state.intStat = s.intStat := by
  rw [runOf_frame]
  exact ⟨rfl, rfl, rfl⟩

/-- A host write in the ERR state is the acceptance of RST; outside it, it leaves the fault record alone. -/
theorem ErrStateOk.hostWrite {s t : State} {off n : Nat} {v : Word} (hs : ErrStateOk s)
    (h : hostWrite s off n v = some t) : ErrStateOk t := by
  have hframe := hostWrite_frame h
  rcases (hostWrite_cases h).2 with ⟨he, -, -, -, rfl⟩ | ⟨he, -⟩
  · exact ⟨hs.quiet, hs.stopped, fun _ _ => rfl⟩
  · obtain ⟨hcode, hinfo⟩ := hs.quiet he
    rw [hframe]
    exact errStateOk_of_quiet he hcode hinfo

theorem kept_errStateOk : Kept ErrStateOk where
  move _ _ _ h := ⟨h.quiet, h.stopped, h.onlyRst⟩
  write _ _ _ _ _ hs h := hs.hostWrite h
  hardwareReset _ _ := errStateOk_of_quiet rfl rfl rfl
  softReset _ _ := errStateOk_of_quiet rfl rfl rfl
  reject _ _ := errStateOk_faultEntry _ _ _
  done s i u hs hb hi hne hu := by
    have he : s.err = false := Bool.eq_false_iff.2 fun he => hne (hs.eq_rst he hb hi)
    obtain ⟨hcode, hinfo⟩ := hs.quiet he
    obtain ⟨ecode, einfo, -⟩ := runOf_record i s
    have eerr := runOf_err i s
    rw [hu, Run.state_ok] at ecode einfo eerr
    exact errStateOk_of_quiet (eerr.trans he) (ecode.trans hcode) (einfo.trans hinfo)
  fault _ _ f info u _ _ _ _ _ := errStateOk_faultEntry f info u

/-- Settles O52: fault entry establishes the rules, and in the ERR state only RST can run. -/
theorem stepKeepsErrStateConsistent : Obligations.StepKeepsErrStateConsistent :=
  fun _ _ => kept_errStateOk.step

/-- What a step does to STATUS.ERR and to the fault record in the ERR state: it keeps them, or takes another fault, or
leaves the ERR state by one of the two resets. -/
theorem step_of_err {s t : State} (he : s.err = true) (h : step s = .next t) :
    (t.err = true ∧ t.errCode = s.errCode ∧ t.errInfo = s.errInfo) ∨
      (t.err = true ∧ s.busy = true ∧ s.cmd ≠ 1) ∨
      (t.err = false ∧
        ((∃ rest, s.inputs = .hardwareReset :: rest) ∨ (s.busy = true ∧ s.cmd = 1 ∧ EngineMoves s))) := by
  rcases step_cases h with ht | ⟨rest, addr, size, v, u, -, hu, rfl⟩ | ⟨rest, hin, rfl⟩ |
      ⟨rest, hin, hb, ⟨i, hi, hx⟩ | ⟨hno, rfl⟩⟩
  · rw [ht]
    exact .inl ⟨he, rfl, rfl⟩
  · rw [hostWrite_frame hu]
    exact .inl ⟨he, rfl, rfl⟩
  · exact .inr (.inr ⟨rfl, .inl ⟨rest, hin⟩⟩)
  · rcases exec_outcome hx with ⟨rfl, rfl⟩ | ⟨u, hne, hu, rfl⟩ | ⟨f, info, u, hne, hu, rfl⟩
    · exact .inr (.inr ⟨rfl, .inr ⟨hb, eq_one_of_decode_rst hi, hin.imp And.left fun hin => ⟨rest, hin⟩⟩⟩)
    · obtain ⟨ecode, einfo, -⟩ := runOf_record i { s with inputs := rest }
      have eerr := runOf_err i { s with inputs := rest }
      rw [hu, Run.state_ok] at ecode einfo eerr
      exact .inl ⟨eerr.trans he, ecode, einfo⟩
    · refine .inr (.inl ⟨rfl, hb, fun hcmd => hne ?_⟩)
      rw [hcmd] at hi
      exact (Decoded.instr.inj hi).symm
  · exact .inr (.inl ⟨rfl, hb, fun hcmd => hno .rst (by rw [hcmd]; rfl)⟩)

/-- Settles O56: of the ways a step can go in the ERR state, only the two resets take ERR down. -/
theorem errStateLeftOnlyByRstOrHardwareReset : Obligations.ErrStateLeftOnlyByRstOrHardwareReset := by
  intro s t he h ht
  rcases step_of_err he h with ⟨ht', -⟩ | ⟨ht', -⟩ | ⟨-, hreset⟩
  · simp [ht'] at ht
  · simp [ht'] at ht
  · exact hreset

/-- Settles O59: in a consistent ERR state no second fault is taken. -/
theorem faultRecordKeptInTheErrState : Obligations.FaultRecordKeptInTheErrState := by
  intro s t hs he h ht
  rcases step_of_err he h with ⟨-, hrecord⟩ | ⟨-, hb, hcmd⟩ | ⟨ht', -⟩
  · exact hrecord
  · exact absurd (hs.onlyRst he hb) hcmd
  · simp [ht'] at ht

/-! ### The pending interrupt bits (60_exceptions.md R170) -/

/-- The write of a register other than INT_STAT leaves the pending bits alone. -/
theorem writeReg_intStat {r : Reg} (hr : r ≠ .intStat) (s : State) (v : Word) :
    (writeReg s r v).intStat = s.intStat := by
  cases r with
  | intStat => exact absurd rfl hr
  | _ => rfl

/-- A host write leaves the pending bits alone, or is the 4-byte write to INT_STAT that clears those under its 1s. -/
theorem hostWrite_intStat {s t : State} {off n : Nat} {v : Word} (h : hostWrite s off n v = some t) :
    t.intStat = s.intStat ∨ (off = 0x20 ∧ n = 4 ∧ t.intStat = intCleared s.intStat v) := by
  rcases (hostWrite_cases h).2 with ⟨-, -, -, -, rfl⟩ | ⟨-, ⟨r, g, hn, hoff, -, -, -, rfl⟩ | ⟨k, g, rfl⟩ |
      ⟨i, g, -, rfl⟩ | ⟨i, g, rfl⟩⟩
  · exact .inl rfl
  · by_cases hr : r = .intStat
    · subst hr
      exact .inr ⟨hoff, hn, rfl⟩
    · exact .inl (writeReg_intStat hr s v)
  · exact .inl rfl
  · exact .inl rfl
  · exact .inl rfl

/-- What a step does to the pending bits: it keeps those that are set, or clears some by a host write to INT_STAT, or
clears both by one of the two resets. -/
theorem step_intStat {s t : State} (h : step s = .next t) :
    ((s.intStat.done = true → t.intStat.done = true) ∧ (s.intStat.err = true → t.intStat.err = true)) ∨
      (∃ v rest, s.inputs = .write 0x20 2 v :: rest ∧ t.intStat = intCleared s.intStat v) ∨
      (∃ rest, s.inputs = .hardwareReset :: rest) ∨ (s.busy = true ∧ s.cmd = 1 ∧ EngineMoves s) := by
  rcases step_cases h with ht | ⟨rest, addr, size, v, u, hin, hu, rfl⟩ | ⟨rest, hin, rfl⟩ |
      ⟨rest, hin, hb, ⟨i, hi, hx⟩ | ⟨-, rfl⟩⟩
  · rw [ht]
    exact .inl ⟨id, id⟩
  · rcases hostWrite_intStat hu with hsame | ⟨hoff, hn, hclear⟩
    · exact .inl ⟨fun hd => (congrArg IntBits.done hsame).trans hd, fun he => (congrArg IntBits.err hsame).trans he⟩
    · obtain rfl : addr = 0x20 := BitVec.eq_of_toNat_eq hoff
      obtain rfl := portBytes_eq_four.1 hn
      exact .inr (.inl ⟨v, rest, hin, hclear⟩)
  · exact .inr (.inr (.inl ⟨rest, hin⟩))
  · obtain ⟨-, -, hint⟩ := runOf_record i { s with inputs := rest }
    rcases exec_cases hx with ⟨rfl, -⟩ | rfl | ⟨f, info, rfl⟩
    · exact .inr (.inr (.inr ⟨hb, eq_one_of_decode_rst hi, hin.imp And.left fun hin => ⟨rest, hin⟩⟩))
    · rw [finish_intStat, hint]
      exact .inl ⟨fun _ => rfl, id⟩
    · rw [faultEntry_intStat, hint]
      exact .inl ⟨id, fun _ => rfl⟩
  · exact .inl ⟨id, fun _ => rfl⟩

/-- A bit that a write to INT_STAT clears is one of those written as 1. -/
theorem eq_true_of_cleared {b c : Bool} (hb : b = true) : (b && !c) = true ∨ c = true := by
  cases c <;> simp [hb]

/-- Settles O57, from what a step does to the pending bits. -/
theorem pendingInterruptBitsAreSticky : Obligations.PendingInterruptBitsAreSticky := by
  intro s t h
  rcases step_intStat h with ⟨hdone, herr⟩ | ⟨v, rest, hin, hclear⟩ | hreset | hrst
  · exact ⟨fun hd => .inl (hdone hd), fun he => .inl (herr he)⟩
  · rw [hclear]
    exact ⟨fun hd => (eq_true_of_cleared hd).imp id fun hv => .inr (.inr ⟨v, rest, hin, hv⟩),
      fun he => (eq_true_of_cleared he).imp id fun hv => .inr (.inr ⟨v, rest, hin, hv⟩)⟩
  · exact ⟨fun _ => .inr (.inl hreset), fun _ => .inr (.inl hreset)⟩
  · exact ⟨fun _ => .inr (.inr (.inl hrst)), fun _ => .inr (.inr (.inl hrst))⟩

end Sys2Proof.Machine
end

section
/-! The stream invariant (10_state.md R23, R25, R36): lengths within capacity, and a packed stream padded with 0. Every
append and every framing keeps it, so every step does. Settles O53. -/

namespace Sys2Proof.Machine

/-! ### How the invariant is kept -/

/-- The invariant depends on the parameters, the two lengths and the bits of PBUF only. -/
theorem StreamOk.congr {s t : State} (h : StreamOk s) (hparams : t.params = s.params) (hbits : t.pkBits = s.pkBits)
    (hob : t.obLen = s.obLen) (hpbuf : t.pbuf = s.pbuf) (hepoch : t.epoch = s.epoch) : StreamOk t where
  legal := hparams ▸ h.legal
  bitsFit := by rw [hparams, hbits]; exact h.bitsFit
  outFits := by rw [hparams, hob]; exact h.outFits
  padded j := by
    rw [pkBytes, hbits, pbufBit_eq, hpbuf, hepoch]
    exact h.padded j

/-- An empty stream needs no padding. -/
theorem StreamOk.of_empty {s : State} (hlegal : s.params.Legal) (hbits : s.pkBits = 0)
    (hob : s.obLen.toNat ≤ s.params.oCap) : StreamOk s where
  legal := hlegal
  bitsFit := by simp [hbits]
  outFits := hob
  padded j _ := padded_of_empty hbits j

/-- With both buffers empty only the parameters matter. -/
theorem streamOk_of_both_empty {s : State} (hlegal : s.params.Legal) (hbits : s.pkBits = 0) (hob : s.obLen = 0) :
    StreamOk s :=
  .of_empty hlegal hbits (by simp [hob])

/-- An append that has room keeps the invariant (41_bitpacker.md R90). -/
theorem StreamOk.appendBits {s : State} (h : StreamOk s) (v : Nat) {n : Nat}
    (hroom : s.pkBits.toNat + n ≤ 8 * s.params.pCap) : StreamOk (appendBits v n s) where
  legal := h.legal
  bitsFit := (appendBits_pkBits_toNat v h.legal hroom).trans_le hroom
  outFits := h.outFits
  padded := (pbufBit_appendBits v h hroom).2.2

/-- An emission is an append (44_lzw.md R128). -/
theorem StreamOk.emitted {s : State} (h : StreamOk s) (c : Nat)
    (hroom : s.pkBits.toNat + s.lzW.toNat ≤ 8 * s.params.pCap) : StreamOk (emitted c s) :=
  (h.appendBits c hroom).congr rfl rfl rfl rfl rfl

/-- A framing that has room keeps the invariant (45_framer.md R146). -/
theorem StreamOk.framed {s : State} (h : StreamOk s) (hroom : framedLength (pkBytes s) ≤ s.params.oCap) :
    StreamOk (framed s) where
  legal := h.legal
  bitsFit := h.bitsFit
  outFits := (framed_obLen_toNat h.legal hroom).trans_le hroom
  padded := h.padded

/-! ### The runs of the commands -/

theorem pkRstRun_eq_ok {s t : State} (h : pkRstRun s = .ok t) : t = { s with pkBits := 0 } := by
  unfold pkRstRun at h
  split at h
  · cases h
  · exact (Run.ok.inj h).symm

theorem pkPushRun_eq_ok {n : Nat} {s t : State} (h : pkPushRun n s = .ok t) :
    s.pkBits.toNat + n ≤ 8 * s.params.pCap ∧ t = appendBits s.pkData.toNat n s := by
  unfold pkPushRun at h
  split_ifs at h
  rcases pkPush_cases s.pkData.toNat n s with ⟨-, e⟩ | ⟨hroom, e⟩ <;> rw [e] at h
  · cases h
  · exact ⟨hroom, (Run.ok.inj h).symm⟩

theorem frRunRun_eq_ok {s t : State} :
    frRunRun s = .ok t ↔ framedLength (pkBytes s) ≤ s.params.oCap ∧ t = framed s := by
  rcases Nat.lt_or_ge s.params.oCap (framedLength (pkBytes s)) with hfull | hroom
  · rw [frRunRun_of_no_room hfull]
    exact ⟨nofun, fun h => absurd h.1 hfull.not_ge⟩
  · rw [frRunRun_of_room hroom]
    exact ⟨fun h => ⟨hroom, (Run.ok.inj h).symm⟩, fun h => congrArg Run.ok h.2.symm⟩

/-- LZ_RAW runs to its end exactly where its tests pass and every symbol is below the palette size. -/
theorem lzRawRun_eq_ok {s t : State} :
    lzRawRun s = .ok t ↔
      RawConfigOk s ∧ rawLength s ≤ s.params.oCap ∧
        (∀ k, k < s.lzLen.toNat → (readSym s k).toNat < s.lzPalsize.toNat) ∧ t = rawWritten s := by
  constructor
  · intro h
    by_cases hpal : s.lzPalsize.toNat = 0 ∨ 256 < s.lzPalsize.toNat
    · rw [lzRawRun_of_palette_illegal hpal] at h; cases h
    by_cases hp : 65 ≤ s.lzPalsize.toNat ∧ s.lzPalsize.toNat ≤ 128
    · by_cases hlen : s.params.symCap < s.lzLen.toNat
      · rw [lzRawRun_of_input_too_long hp.1 hp.2 hlen] at h; cases h
      have hcfg : RawConfigOk s := ⟨hp.1, hp.2, not_lt.1 hlen⟩
      by_cases hfull : s.params.oCap < rawLength s
      · rw [lzRawRun_of_no_room hcfg hfull] at h; cases h
      have hroom : rawLength s ≤ s.params.oCap := not_lt.1 hfull
      have hsmall : ∀ k, k < s.lzLen.toNat → (readSym s k).toNat < s.lzPalsize.toNat := by
        rw [lzRawRun_of_room hcfg hroom, rawFinish] at h
        split at h
        · cases h
        · next hbad => exact fun k hk => rawLoop_none hbad k (Nat.zero_le k) (by omega)
      rw [lzRawRun_of_small_symbols hcfg hroom hsmall] at h
      exact ⟨hcfg, hroom, hsmall, (Run.ok.inj h).symm⟩
    · rw [lzRawRun_of_width_illegal (by omega) (by omega) (by omega)] at h; cases h
  · rintro ⟨hcfg, hroom, hsmall, rfl⟩
    exact lzRawRun_of_small_symbols hcfg hroom hsmall

theorem StreamOk.rawWritten {s : State} (h : StreamOk s) (hcfg : RawConfigOk s) (hroom : rawLength s ≤ s.params.oCap)
    (hsmall : ∀ k, k < s.lzLen.toNat → (readSym s k).toNat < s.lzPalsize.toNat) : StreamOk (rawWritten s) where
  legal := h.legal
  bitsFit := h.bitsFit
  outFits := (rawLayout_rawWritten h.legal hcfg.palette_le hroom hsmall).length.trans_le hroom
  padded := h.padded

theorem StreamOk.begun {s : State} (h : StreamOk s)
    (hroom : (lzInit { s with pkBits := 0 }).lzW.toNat ≤ 8 * s.params.pCap) : StreamOk (begun s) := by
  have hempty : StreamOk (lzInit { s with pkBits := 0 }) := .of_empty h.legal rfl h.outFits
  have hroom' : (lzInit { s with pkBits := 0 }).pkBits.toNat + (lzInit { s with pkBits := 0 }).lzW.toNat ≤
      8 * (lzInit { s with pkBits := 0 }).params.pCap := (Nat.zero_add _).trans_le hroom
  exact (hempty.emitted s.lzPalsize.toNat hroom').congr rfl rfl rfl rfl rfl

theorem stepped_obLen (c len : Nat) (s : State) : (stepped c len s).obLen = s.obLen := by
  rw [stepped_frame]

theorem StreamOk.stepped {s : State} (h : StreamOk s) (c len : Nat)
    (hroom : s.pkBits.toNat + s.lzW.toNat ≤ 8 * s.params.pCap) : StreamOk (stepped c len s) := by
  obtain ⟨hparams, hepoch, -, -, -, -, -, -, hbits, hpbuf⟩ := stepped_fixed s c len
  exact (h.emitted c hroom).congr hparams hbits (stepped_obLen c len s) hpbuf hepoch

theorem StreamOk.lzStepRun {s t : State} (h : StreamOk s) (ht : lzStepRun s = .ok t) : StreamOk t := by
  obtain ⟨-, -, hroom, c, len, -, rfl⟩ := lzStepRun_eq_ok.1 ht
  exact h.stepped c len hroom

theorem StreamOk.lzEndRun {s t : State} (h : StreamOk s) (ht : lzEndRun s = .ok t) : StreamOk t := by
  obtain ⟨-, -, hroom, rfl⟩ := lzEndRun_eq_ok.1 ht
  exact (h.emitted _ hroom).congr rfl rfl rfl rfl rfl

theorem StreamOk.lzBeginRun {s t : State} (h : StreamOk s) (ht : lzBeginRun s = .ok t) : StreamOk t := by
  obtain ⟨-, hroom, rfl⟩ := lzBeginRun_eq_ok.1 ht
  exact h.begun hroom

theorem StreamOk.frRunRun {s t : State} (h : StreamOk s) (ht : frRunRun s = .ok t) : StreamOk t := by
  obtain ⟨hroom, rfl⟩ := frRunRun_eq_ok.1 ht
  exact h.framed hroom

/-- What the four parts of LZ_ENC keep, each where it runs to its end, LZ_ENC keeps (46_lzw_composite.md R150). -/
theorem lzEncRun_keeps {P : State → Prop} (hbegin : ∀ s t, P s → lzBeginRun s = .ok t → P t)
    (hstep : ∀ s t, P s → lzStepRun s = .ok t → P t) (hend : ∀ s t, P s → lzEndRun s = .ok t → P t)
    (hframe : ∀ s t, P s → frRunRun s = .ok t → P t) {s t : State} (hs : P s) (ht : lzEncRun s = .ok t) : P t := by
  obtain ⟨b, e, hrun, hloop, hlast, hout⟩ := lzEncRun_eq_ok.1 ht
  have hb : P b := (lzSteps_invariant P hstep _ _ (hbegin _ _ hs hrun)).1 b hloop
  exact hframe _ _ (hend _ _ hb hlast) hout

/-- Every run that comes to its end keeps the invariant. -/
theorem StreamOk.runOf {s u : State} (h : StreamOk s) {i : Instr} (hu : runOf i s = .ok u) : StreamOk u := by
  have hframe := runOf_eq_withWritesOf i s
  rw [hu, Run.state_ok] at hframe
  cases i with
  | pkRst =>
    rw [pkRstRun_eq_ok hu]
    exact .of_empty h.legal rfl h.outFits
  | pkPush n =>
    unfold Machine.runOf at hu
    dsimp only at hu
    split_ifs at hu
    obtain ⟨hroom, rfl⟩ := pkPushRun_eq_ok hu
    exact h.appendBits _ hroom
  | frRun => exact h.frRunRun hu
  | lzBegin => exact h.lzBeginRun hu
  | lzStep => exact h.lzStepRun hu
  | lzEnd => exact h.lzEndRun hu
  | lzEnc =>
    exact lzEncRun_keeps (fun _ _ => StreamOk.lzBeginRun) (fun _ _ => StreamOk.lzStepRun)
      (fun _ _ => StreamOk.lzEndRun) (fun _ _ => StreamOk.frRunRun) h hu
  | lzRaw =>
    obtain ⟨hcfg, hroom, hsmall, rfl⟩ := lzRawRun_eq_ok.1 hu
    exact h.rawWritten hcfg hroom hsmall
  | _ =>
    rw [hframe]
    exact h.congr rfl rfl rfl rfl rfl

/-! ### Every step -/

theorem kept_streamOk : Kept StreamOk where
  move _ _ _ h := h.congr rfl rfl rfl rfl rfl
  write _ _ _ _ _ hs h := by
    rw [hostWrite_frame h]
    exact hs.congr rfl rfl rfl rfl rfl
  hardwareReset _ h := streamOk_of_both_empty h.legal rfl rfl
  softReset _ h := streamOk_of_both_empty h.legal rfl rfl
  reject _ h := streamOk_of_both_empty h.legal rfl rfl
  done _ _ _ h _ _ _ hu := (h.runOf hu).congr rfl rfl rfl rfl rfl
  fault s i f info u h _ _ _ hu := by
    have hparams := runOf_params i s
    rw [hu, Run.state_raise] at hparams
    exact streamOk_of_both_empty (hparams ▸ h.legal) rfl rfl

/-- Settles O53: appends pad, framings and appends stay within capacity, resets and faults empty both buffers. -/
theorem stepKeepsTheStreamInvariant : Obligations.StepKeepsTheStreamInvariant :=
  fun _ _ => kept_streamOk.step

end Sys2Proof.Machine
end

section
/-! The dictionary invariants and the width law (10_state.md R15, R27, R33; 44_lzw.md R132): LZ_BEGIN establishes them,
LZ_STEP keeps them by its append, and no other step touches what they speak of. Settles O54 and O55. -/

namespace Sys2Proof.Machine

/-! ### How the invariant is kept -/

/-- In IDLE the invariant asks for nothing. -/
theorem lzOk_of_idle {s : State} (h : s.phase = .idle) : LzOk s := fun hne => absurd h hne

/-- The invariant depends on DICT, its size and the width; in ACTIVE on the configuration and the position too. -/
theorem LzOk.congr {s t : State} (h : LzOk s) (hne : t.phase ≠ .idle → s.phase ≠ .idle) (hdict : t.dict = s.dict)
    (hepoch : t.epoch = s.epoch) (hsize : t.lzDsize = s.lzDsize) (hwidth : t.lzW = s.lzW)
    (hactive : t.phase = .active → s.phase = .active ∧ t.lzPalsize = s.lzPalsize ∧ t.lzMaxbits = s.lzMaxbits ∧
      t.lzPos = s.lzPos ∧ t.lzLen = s.lzLen ∧ t.params = s.params) : LzOk t := by
  intro hph
  obtain ⟨p, m, hp, hp', hm, hm', hdictOk, hceil, hw, hact⟩ := h (hne hph)
  refine ⟨p, m, hp, hp', hm, hm', hdictOk.congr hdict hepoch hsize, hsize ▸ hceil, by rw [hwidth, hsize, hw],
    fun ht => ?_⟩
  obtain ⟨hs, epal, emax, epos, elen, eparams⟩ := hactive ht
  rw [epal, emax, epos, elen, eparams]
  exact hact hs

/-! ### LZ_BEGIN (44_lzw.md R125, R129) -/

/-- The initial width is wide enough for the initial dictionary, so the width law holds at once. -/
theorem width_law_init {p : Nat} (hp : 1 ≤ p) (hp' : p ≤ palMax) :
    initialWidth p = max (initialWidth p) (clog2 (p + 2)) :=
  (max_eq_left ((clog2_le _ _).2 (initialWidth_legal p hp hp').2.2.2)).symm

theorem lzOk_begun {s : State} (h : LzConfigOk s) : LzOk (begun s) := by
  obtain ⟨hsize, hwidth⟩ := lzInit_sizes s h 0
  obtain ⟨hp, hp', hm, hm', hlen⟩ := h
  obtain ⟨-, -, -, hfits⟩ := initialWidth_legal _ hp hp'
  refine fun _ => ⟨s.lzPalsize.toNat, s.lzMaxbits.toNat, hp, hp', hm, hm', dictOk_init hp' rfl rfl hsize, ?_, ?_,
    fun _ => ⟨rfl, rfl, Nat.zero_le _, hlen⟩⟩
  · exact hsize.trans_le (hfits.trans (Nat.pow_le_pow_right (by decide) hm))
  · exact (hwidth.trans (width_law_init hp hp')).trans (congrArg (max _ <| clog2 ·) hsize.symm)

/-! ### LZ_STEP (44_lzw.md R130) -/

/-- In ACTIVE the position is inside the input and the input inside SYMBUF (10_state.md R15). -/
theorem LzOk.input_of_active {s : State} (h : LzOk s) (hph : s.phase = .active) :
    s.lzPos.toNat ≤ s.lzLen.toNat ∧ s.lzLen.toNat ≤ s.params.symCap := by
  obtain ⟨p, m, -, -, -, -, -, -, -, hact⟩ := h (by rw [hph]; nofun)
  obtain ⟨-, -, hpos, hlen⟩ := hact hph
  exact ⟨hpos, hlen⟩

/-- A LZ_STEP that has room appends the matched sequence and one symbol more, which is new (44_lzw.md R127). -/
theorem dictOk_stepped_of_room {s : State} {p c len : Nat} (h : DictOk p s) (hm : s.lzMaxbits.toNat ≤ 12)
    (hmatch : lzMatch s s.lzPos.toNat = some (c, len)) (hle : s.lzPos.toNat + len ≤ s.lzLen.toNat)
    (hroom : s.lzPos.toNat + len < s.lzLen.toNat ∧ s.lzDsize.toNat < 2 ^ s.lzMaxbits.toNat)
    (hsucc : (s.lzDsize + 1).toNat = s.lzDsize.toNat + 1) :
    DictOk p (stepped c len s) ∧ (∀ d, d < s.lzDsize.toNat → seqOf (stepped c len s) d = seqOf s d) := by
  obtain ⟨hvalid, -, -, hseq, hnew⟩ := lzMatch_eq_some hmatch
  obtain ⟨hdict, hsize, -⟩ := stepped_of_room (c := c) hle hroom
  obtain ⟨-, hepoch, -⟩ := stepped_fixed s c len
  have hcap : s.lzDsize.toNat < dictCap := hroom.2.trans_le (Nat.pow_le_pow_right (by decide) hm)
  obtain ⟨hok, hold, -⟩ :=
    h.append (readDict_write hdict hepoch) (hsize ▸ hsucc) hcap hvalid hseq (hnew hroom.1)
  exact ⟨hok, hold⟩

/-- LZ_STEP keeps the dictionary invariants and every sequence they speak of. -/
theorem dictOk_stepped {s : State} {c len : Nat} (h : LzOk s) (hph : s.phase = .active)
    (hmatch : lzMatch s s.lzPos.toNat = some (c, len)) (hle : s.lzPos.toNat + len ≤ s.lzLen.toNat) :
    DictOk s.lzPalsize.toNat (stepped c len s) ∧
      (∀ d, d < s.lzDsize.toNat → seqOf (stepped c len s) d = seqOf s d) := by
  obtain ⟨hdict, hm, hw⟩ := h.of_active hph
  by_cases hroom : s.lzPos.toNat + len < s.lzLen.toNat ∧ s.lzDsize.toNat < 2 ^ s.lzMaxbits.toNat
  · exact dictOk_stepped_of_room hdict hm hmatch hle hroom (grownWidth_toNat hm hw hroom.2).1
  · obtain ⟨edict, esize, -⟩ := stepped_of_no_room (c := c) hle hroom
    obtain ⟨-, eepoch, -⟩ := stepped_fixed s c len
    exact ⟨hdict.congr edict eepoch esize, fun d _ => seqOf_congr (readDict_same edict eepoch) d⟩

/-- The size and the width after LZ_STEP: one entry more where there is room, and the width law at the new size. -/
theorem sizes_stepped {s : State} {c len : Nat} (hm : s.lzMaxbits.toNat ≤ 12)
    (hw : s.lzW.toNat = max (initialWidth s.lzPalsize.toNat) (clog2 s.lzDsize.toNat))
    (hle : s.lzPos.toNat + len ≤ s.lzLen.toNat) :
    (stepped c len s).lzDsize.toNat =
        (if s.lzPos.toNat + len < s.lzLen.toNat ∧ s.lzDsize.toNat < 2 ^ s.lzMaxbits.toNat then s.lzDsize.toNat + 1
          else s.lzDsize.toNat) ∧
      (stepped c len s).lzW.toNat =
        max (initialWidth s.lzPalsize.toNat) (clog2 (stepped c len s).lzDsize.toNat) := by
  split
  next hroom =>
    obtain ⟨-, hsize, hwidth⟩ := stepped_of_room (c := c) hle hroom
    obtain ⟨hsucc, hgrown, -⟩ := grownWidth_toNat hm hw hroom.2
    rw [hsize, hwidth, hgrown, hsucc]
    exact ⟨rfl, rfl⟩
  next hroom =>
    obtain ⟨-, hsize, hwidth⟩ := stepped_of_no_room (c := c) hle hroom
    rw [hsize, hwidth]
    exact ⟨rfl, hw⟩

theorem LzOk.stepped {s : State} {c len : Nat} (h : LzOk s) (hph : s.phase = .active)
    (hmatch : lzMatch s s.lzPos.toNat = some (c, len)) (hle : s.lzPos.toNat + len ≤ s.lzLen.toNat) :
    LzOk (stepped c len s) := by
  obtain ⟨hdict, -⟩ := dictOk_stepped h hph hmatch hle
  obtain ⟨p, m, hp, hp', hm, hm', -, hceil, hw, hact⟩ := h (by rw [hph]; nofun)
  obtain ⟨rfl, rfl, -, hlen⟩ := hact hph
  obtain ⟨hsize, hwidth⟩ := sizes_stepped (c := c) hm' hw hle
  obtain ⟨eparams, -, epal, emax, elen, -⟩ := stepped_fixed s c len
  obtain ⟨-, epos⟩ := stepped_lzLast_lzPos c len s
  refine fun _ => ⟨_, _, hp, hp', hm, hm', hdict, ?_, hwidth, fun _ => ?_⟩
  · rw [hsize]
    split
    next hroom => exact hroom.2
    next => exact hceil
  · rw [epal, emax, epos, elen, eparams, toNat_position_of_le hle]
    exact ⟨rfl, rfl, hle, hlen⟩

theorem LzOk.lzStepRun {s t : State} (h : LzOk s) (ht : lzStepRun s = .ok t) : LzOk t := by
  obtain ⟨hph, -, -, c, len, hmatch, rfl⟩ := lzStepRun_eq_ok.1 ht
  obtain ⟨-, -, hlen, -⟩ := lzMatch_eq_some hmatch
  have hpos := (h.input_of_active hph).1
  exact h.stepped hph hmatch (by omega)

/-! ### The other runs -/

theorem LzOk.lzBeginRun {s t : State} (ht : lzBeginRun s = .ok t) : LzOk t := by
  obtain ⟨hcfg, -, rfl⟩ := lzBeginRun_eq_ok.1 ht
  exact lzOk_begun hcfg

/-- LZ_END closes the encoding: what remains asked is what ENDED asks (log 21). -/
theorem LzOk.lzEndRun {s t : State} (h : LzOk s) (ht : lzEndRun s = .ok t) : LzOk t := by
  obtain ⟨hph, -, -, rfl⟩ := lzEndRun_eq_ok.1 ht
  exact h.congr (fun _ => by rw [hph]; nofun) rfl rfl rfl rfl nofun

theorem LzOk.frRunRun {s t : State} (h : LzOk s) (ht : frRunRun s = .ok t) : LzOk t := by
  obtain ⟨-, rfl⟩ := frRunRun_eq_ok.1 ht
  exact h.congr id rfl rfl rfl rfl fun hph => ⟨hph, rfl, rfl, rfl, rfl, rfl⟩

/-- Every run that comes to its end keeps the invariant. -/
theorem LzOk.runOf {s u : State} (h : LzOk s) {i : Instr} (hu : runOf i s = .ok u) : LzOk u := by
  have hframe := runOf_eq_withWritesOf i s
  rw [hu, Run.state_ok] at hframe
  cases i with
  | lzBegin => exact .lzBeginRun hu
  | lzStep => exact h.lzStepRun hu
  | lzEnd => exact h.lzEndRun hu
  | lzEnc =>
    exact lzEncRun_keeps (fun _ _ _ => LzOk.lzBeginRun) (fun _ _ => LzOk.lzStepRun) (fun _ _ => LzOk.lzEndRun)
      (fun _ _ => LzOk.frRunRun) h hu
  | _ =>
    rw [hframe]
    exact h.congr id rfl rfl rfl rfl fun hph => ⟨hph, rfl, rfl, rfl, rfl, rfl⟩

/-- In ACTIVE the host cannot change the configuration of the encoding (20_memory.md R55). -/
theorem hostWrite_of_active {s t : State} {off n : Nat} {v : Word} (h : hostWrite s off n v = some t)
    (hph : s.phase = .active) : t.lzPalsize = s.lzPalsize ∧ t.lzMaxbits = s.lzMaxbits ∧ t.lzLen = s.lzLen := by
  rcases (hostWrite_cases h).2 with ⟨-, -, -, -, rfl⟩ | ⟨-, ⟨r, g, -, -, -, -, hlock, rfl⟩ | ⟨k, g, rfl⟩ |
      ⟨i, g, -, rfl⟩ | ⟨i, g, rfl⟩⟩
  · exact ⟨rfl, rfl, rfl⟩
  · have hopen := hlock hph
    cases r with
    | lzPalsize => cases hopen
    | lzMaxbits => cases hopen
    | lzLen => cases hopen
    | _ => exact ⟨rfl, rfl, rfl⟩
  · exact ⟨rfl, rfl, rfl⟩
  · exact ⟨rfl, rfl, rfl⟩
  · exact ⟨rfl, rfl, rfl⟩

theorem LzOk.hostWrite {s t : State} {off n : Nat} {v : Word} (hs : LzOk s) (h : hostWrite s off n v = some t) :
    LzOk t := by
  have hlock := hostWrite_of_active h
  rw [hostWrite_frame h] at hlock ⊢
  refine hs.congr id rfl rfl rfl rfl fun hph => ?_
  obtain ⟨epal, emax, elen⟩ := hlock hph
  exact ⟨hph, epal, emax, rfl, elen, rfl⟩

/-! ### Every step -/

theorem kept_lzOk : Kept LzOk where
  move _ _ _ h := h.congr id rfl rfl rfl rfl fun hph => ⟨hph, rfl, rfl, rfl, rfl, rfl⟩
  write _ _ _ _ _ hs h := hs.hostWrite h
  hardwareReset _ _ := lzOk_of_idle rfl
  softReset _ _ := lzOk_of_idle rfl
  reject _ _ := lzOk_of_idle rfl
  done _ _ _ h _ _ _ hu :=
    (h.runOf hu).congr id rfl rfl rfl rfl fun hph => ⟨hph, rfl, rfl, rfl, rfl, rfl⟩
  fault _ _ _ _ _ _ _ _ _ _ := lzOk_of_idle rfl

/-- Settles O54: only LZ_BEGIN and LZ_STEP write the dictionary, and in ACTIVE the configuration is locked. -/
theorem stepKeepsTheDictionaryInvariants : Obligations.StepKeepsTheDictionaryInvariants :=
  fun _ _ => kept_lzOk.step

/-! ### The state after reset (10_state.md R39) -/

theorem invariants_resetWith {p : Params} (h : p.Legal) :
    memoriesWf (State.resetWith p) = true ∧ ErrStateOk (State.resetWith p) ∧ StreamOk (State.resetWith p) ∧
      LzOk (State.resetWith p) :=
  ⟨rfl, errStateOk_of_quiet rfl rfl rfl, streamOk_of_both_empty h rfl rfl, lzOk_of_idle rfl⟩

/-- Settles O55: nothing is written, nothing has faulted, both buffers are empty, and no encoding has begun. -/
theorem resetMeetsTheInvariants : Obligations.ResetMeetsTheInvariants :=
  ⟨invariants_resetWith (by decide), fun _ => invariants_resetWith⟩

end Sys2Proof.Machine
end

section
/-! The longest match (44_lzw.md R126, R127, R134): what the scan of the dictionary answers, and that the extension one
symbol at a time finds the same code. Settles O20, O21, O22 and O23. -/

namespace Sys2Proof.Machine

/-! ### Codes that stand for the next symbols -/

/-- Code `c` is valid and stands for the next `l` symbols of the input. -/
structure Matches (s : State) (pos c l : Nat) : Prop where
  valid : c < s.lzDsize.toNat
  fits : l ≤ s.lzLen.toNat - pos
  seq : seqOf s c = some (symbolsAt s pos l)

theorem matches_iff_candidateLength {s : State} {pos c l : Nat} :
    Matches s pos c l ↔ c < s.lzDsize.toNat ∧ candidateLength s pos c = some l := by
  rw [candidateLength_eq_some]
  exact ⟨fun h => ⟨h.valid, h.fits, h.seq⟩, fun ⟨hc, hl, hq⟩ => ⟨hc, hl, hq⟩⟩

/-- What the scan answers is a match that no other exceeds in length. -/
theorem Matches.of_lzMatch {s : State} {pos c l : Nat} (h : lzMatch s pos = some (c, l)) :
    Matches s pos c l ∧ ∀ d m, Matches s pos d m → m ≤ l := by
  obtain ⟨-, hsome⟩ := longestBelow_spec s pos s.lzDsize.toNat
  obtain ⟨hc, hcand, hmax⟩ := hsome c l h
  exact ⟨matches_iff_candidateLength.2 ⟨hc, hcand⟩, fun d m hd =>
    hmax d m hd.valid (matches_iff_candidateLength.1 hd).2⟩

/-- Where the scan answers none there is no match. -/
theorem not_matches_of_lzMatch {s : State} {pos : Nat} (h : lzMatch s pos = none) (c l : Nat) : ¬Matches s pos c l := by
  obtain ⟨hnone, -⟩ := longestBelow_spec s pos s.lzDsize.toNat
  intro hm
  have := hnone h c hm.valid
  rw [(matches_iff_candidateLength.1 hm).2] at this
  cases this

theorem symbolsAt_getElem? {s : State} {pos l k : Nat} (h : k < l) :
    (symbolsAt s pos l)[k]? = some (readSym s (pos + k)) := by
  simp [symbolsAt, h]

/-- A sequence is the next symbols of the input exactly when it agrees with them symbol by symbol. -/
theorem eq_symbolsAt_iff {s : State} {pos : Nat} {q : List Byte} :
    q = symbolsAt s pos q.length ↔ ∀ k, k < q.length → q[k]? = some (readSym s (pos + k)) := by
  constructor
  · intro h k hk
    rw [h]
    exact symbolsAt_getElem? hk
  · refine fun h => List.ext_getElem? fun k => ?_
    rcases Nat.lt_or_ge k q.length with hk | hk
    · rw [h k hk, symbolsAt_getElem? hk]
    · rw [List.getElem?_eq_none hk, List.getElem?_eq_none (by simpa using hk)]

/-- A valid code whose sequence agrees with the input is a match. -/
theorem Matches.of_agrees {s : State} {pos d : Nat} {q : List Byte} (hd : d < s.lzDsize.toNat) (hq : seqOf s d = some q)
    (hfits : q.length ≤ s.lzLen.toNat - pos) (h : ∀ k, k < q.length → q[k]? = some (readSym s (pos + k))) :
    Matches s pos d q.length :=
  ⟨hd, hfits, hq.trans (congrArg some (eq_symbolsAt_iff.2 h))⟩

/-- Settles O20: the scan in terms of matches. -/
theorem lzMatchIsTheLongestCandidate : Obligations.LzMatchIsTheLongestCandidate := by
  refine fun s pos => ⟨fun c len h => ?some, fun h d q hd hq hfits hagree => ?none⟩
  case some =>
    obtain ⟨hm, hmax⟩ := Matches.of_lzMatch h
    exact ⟨hm.valid, ⟨_, hm.seq, symbolsAt_length s pos len, hm.fits, fun k hk => symbolsAt_getElem? hk⟩,
      fun d q hd hq hfits hagree => hmax d _ (.of_agrees hd hq hfits hagree)⟩
  case none => exact not_matches_of_lzMatch h d _ (.of_agrees hd hq hfits hagree)

/-- Two matches of one length are one code, since no two valid codes have one sequence (10_state.md R33). -/
theorem Matches.unique {s : State} {p pos c d l : Nat} (hdict : DictOk p s) (hc : Matches s pos c l)
    (hd : Matches s pos d l) : c = d :=
  hdict.distinct c d _ hc.valid hd.valid hc.seq hd.seq

/-- Settles O21, by the distinctness of the sequences. -/
theorem longestMatchIsUnique : Obligations.LongestMatchIsUnique := by
  intro s pos c d l hs hph hc hd hcand hcand'
  obtain ⟨p, m, -, -, -, -, hdict, -⟩ := hs hph
  exact (matches_iff_candidateLength.2 ⟨hc, hcand⟩).unique hdict (matches_iff_candidateLength.2 ⟨hd, hcand'⟩)

/-! ### The first symbol (44_lzw.md R126) -/

/-- The literal of a symbol below the palette size matches it. -/
theorem matches_literal {s : State} {p pos : Nat} (hdict : DictOk p s) (hpos : pos < s.lzLen.toNat)
    (hsmall : (readSym s pos).toNat < p) : Matches s pos (readSym s pos).toNat 1 := by
  have hlow := hdict.sizeLow
  refine ⟨by omega, by omega, (hdict.seqOf_lit hsmall).trans ?_⟩
  simp [symbolsAt]

/-- A match begins with a symbol below the palette size. -/
theorem Matches.small {s : State} {p pos c l : Nat} (hp : p ≤ palMax) (hdict : DictOk p s) (h : Matches s pos c l) :
    (readSym s pos).toNat < p := by
  obtain ⟨b, hb, hsmall⟩ := hdict.seqOf_head hp c h.valid h.seq
  have hl : 0 < l := candidateLength_pos (matches_iff_candidateLength.1 h).2
  rw [symbolsAt_getElem? hl, Nat.add_zero] at hb
  exact Option.some.inj hb ▸ hsmall

theorem lzMatch_eq_none_iff {s : State} {p pos : Nat} (hp : p ≤ palMax) (hdict : DictOk p s)
    (hpos : pos < s.lzLen.toNat) : lzMatch s pos = none ↔ p ≤ (readSym s pos).toNat := by
  constructor
  · intro h
    by_contra hsmall
    exact not_matches_of_lzMatch h _ _ (matches_literal hdict hpos (not_le.1 hsmall))
  · intro hlarge
    cases h : lzMatch s pos with
    | none => rfl
    | some cl => exact absurd ((Matches.of_lzMatch h).1.small hp hdict) hlarge.not_gt

/-- Settles O22: the literal matches a small symbol, and no sequence begins with a large one. -/
theorem nothingMatchesExactlyWhenTheSymbolIsTooLarge : Obligations.NothingMatchesExactlyWhenTheSymbolIsTooLarge :=
  fun _ _ _ => lzMatch_eq_none_iff

/-! ### The extension one symbol at a time (44_lzw.md R134) -/

/-- Everything the search for a child can answer: a valid code with that PREFIX field and symbol, or none where there
is none. -/
theorem childBelow_spec (s : State) (cur : Nat) (b : Byte) (n : Nat) :
    (∀ c, childBelow s cur b n = some c →
      c < n ∧ (readDict s c).kind = .str ∧ (readDict s c).pre.toNat = cur ∧ (readDict s c).sym = b) ∧
    (childBelow s cur b n = none →
      ∀ c, c < n → ¬((readDict s c).kind = .str ∧ (readDict s c).pre.toNat = cur ∧ (readDict s c).sym = b)) := by
  induction n with
  | zero => exact ⟨nofun, fun _ c hc => absurd hc (Nat.not_lt_zero c)⟩
  | succ n ih =>
    obtain ⟨hsome, hnone⟩ := ih
    unfold childBelow
    split
    next h =>
      refine ⟨fun c hc => ?_, nofun⟩
      obtain rfl := Option.some.inj hc
      exact ⟨Nat.lt_succ_self n, h⟩
    next h =>
      refine ⟨fun c hc => ?_, fun hc c hlt => ?_⟩
      · obtain ⟨hlt, hentry⟩ := hsome c hc
        exact ⟨hlt.trans (Nat.lt_succ_self n), hentry⟩
      · rcases Nat.lt_succ_iff_lt_or_eq.1 hlt with hlt | rfl
        · exact hnone hc c hlt
        · exact h

/-- A child of a match is the match one symbol longer. -/
theorem Matches.extend {s : State} {p pos cur l c : Nat} (hdict : DictOk p s) (h : Matches s pos cur l)
    (hlt : pos + l < s.lzLen.toNat)
    (hc : childBelow s cur (readSym s (pos + l)) s.lzDsize.toNat = some c) : Matches s pos c (l + 1) := by
  obtain ⟨hvalid, hkind, hpre, hsym⟩ := (childBelow_spec _ _ _ _).1 c hc
  obtain ⟨q, hq, hq'⟩ := hdict.seqOf_str hvalid hkind
  rw [hpre, h.seq] at hq
  refine ⟨hvalid, by omega, ?_⟩
  rw [hq', ← Option.some.inj hq, hsym, symbolsAt_succ]

/-- A match of two or more symbols is the child of a match one symbol shorter. -/
theorem Matches.shorten {s : State} {p pos d l : Nat} (hdict : DictOk p s) (hl : 0 < l)
    (h : Matches s pos d (l + 1)) :
    (readDict s d).kind = .str ∧ (readDict s d).sym = readSym s (pos + l) ∧
      Matches s pos (readDict s d).pre.toNat l := by
  have hseq := h.seq
  rw [symbolsAt_succ] at hseq
  have hne : symbolsAt s pos l ≠ [] := List.ne_nil_of_length_pos (by rwa [symbolsAt_length])
  obtain ⟨hkind, hsym, hpre, hshort⟩ := hdict.seqOf_dropLast h.valid hseq hne
  exact ⟨hkind, hsym, hpre.trans h.valid, (Nat.le_succ l).trans h.fits, hshort⟩

/-- Where a match has no child, no match is longer. -/
theorem Matches.longest {s : State} {p pos cur l : Nat} (hdict : DictOk p s) (h : Matches s pos cur l)
    (hc : childBelow s cur (readSym s (pos + l)) s.lzDsize.toNat = none) (d m : Nat) (hd : Matches s pos d m) :
    m ≤ l := by
  have hl : 0 < l := candidateLength_pos (matches_iff_candidateLength.1 h).2
  induction m generalizing d with
  | zero => exact Nat.zero_le l
  | succ m ih =>
    rcases Nat.eq_zero_or_pos m with rfl | hm
    · exact hl
    · obtain ⟨hkind, hsym, hshort⟩ := hd.shorten hdict hm
      rcases (ih _ hshort).lt_or_eq with hlt | rfl
      · exact hlt
      · exact absurd ⟨hkind, hshort.unique hdict h, hsym⟩ ((childBelow_spec _ _ _ _).2 hc d hd.valid)

/-- The extension ends in the longest match, if it has as many turns as there are symbols left. -/
theorem extendMatch_longest {s : State} {p pos : Nat} (hdict : DictOk p s) (fuel cur l : Nat)
    (h : Matches s pos cur l) (hfuel : s.lzLen.toNat - pos ≤ l + fuel) :
    Matches s pos (extendMatch s pos fuel cur l).1 (extendMatch s pos fuel cur l).2 ∧
      ∀ d m, Matches s pos d m → m ≤ (extendMatch s pos fuel cur l).2 := by
  induction fuel generalizing cur l with
  | zero => exact ⟨h, fun d m hd => hd.fits.trans hfuel⟩
  | succ fuel ih =>
    unfold extendMatch
    split
    next hlt =>
      split
      next c hc => exact ih c (l + 1) (h.extend hdict hlt hc) (by omega)
      next hc => exact ⟨h, h.longest hdict hc⟩
    next hend => exact ⟨h, fun d m hd => hd.fits.trans (by omega)⟩

/-- Settles O23: both are the longest match, which is unique, or none where the first symbol is too large. -/
theorem scanEqualsSymbolAtATimeMatch : Obligations.ScanEqualsSymbolAtATimeMatch := by
  intro s p pos hp hdict hpos
  unfold matchBySymbols
  split
  next hsmall =>
    obtain ⟨hext, hlongest⟩ := extendMatch_longest hdict s.lzLen.toNat _ _ (matches_literal hdict hpos hsmall)
      (by omega)
    obtain ⟨⟨c, l⟩, hscan⟩ := Option.ne_none_iff_exists'.1
      (mt (lzMatch_eq_none_iff hp hdict hpos).1 hsmall.not_ge)
    obtain ⟨hm, hmax⟩ := Matches.of_lzMatch hscan
    have hl : l = (extendMatch s pos s.lzLen.toNat (readSym s pos).toNat 1).2 :=
      le_antisymm (hlongest c l hm) (hmax _ _ hext)
    have hc : c = (extendMatch s pos s.lzLen.toNat (readSym s pos).toNat 1).1 := (hl ▸ hm).unique hdict hext
    rw [hscan, hc, hl]
  next hlarge => exact (lzMatch_eq_none_iff hp hdict hpos).2 (not_lt.1 hlarge)

end Sys2Proof.Machine
end

section
/-! The whole-call command LZ_ENC (46_lzw_composite.md R150, R152): its configuration faults, the turns of its loop, and
what holds after each of them of the dictionary, the codes emitted and the packed stream. From it: completion within the
bound, losslessness, and the fault at the first symbol that is too large. Settles O17, O24, O26 and O28. -/

namespace Sys2Proof.Machine

/-! ### The command (46_lzw_composite.md R150) -/

theorem exec_lzEnc (s : State) : exec .lzEnc s = conclude (lzEncRun s) := exec_eq_conclude .lzEnc s nofun

/-- LZ_ENC ends in the fault of its configuration check. -/
theorem exec_lzEnc_of_check {s : State} {info : Word} (hcheck : lzCheck s = .raise .cfg info s) :
    exec .lzEnc s = .next (faultEntry .cfg info s) := by
  rw [exec_lzEnc, lzEncRun, lzBeginRun, hcheck, Run.andThen_raise, Run.andThen_raise, conclude_raise]

/-- Settles O17: the three tests in order. -/
theorem lzEncChecksItsConfigurationFirst : Obligations.LzEncChecksItsConfigurationFirst :=
  fun _ => ⟨fun hp => exec_lzEnc_of_check (lzCheck_of_palette_illegal hp), fun hp hp' =>
    ⟨fun hm => exec_lzEnc_of_check (lzCheck_of_ceiling_illegal hp hp' hm),
      fun hm hm' hlen => exec_lzEnc_of_check (lzCheck_of_input_too_long hp hp' hm hm' hlen)⟩⟩

/-! ### The turns of the loop -/

/-- LZ_STEP `n` times, whatever the position. -/
def stepTimes : Nat → State → Run
  | 0, s => .ok s
  | n + 1, s => (lzStepRun s).andThen (stepTimes n)

/-- What every LZ_STEP keeps, a number of them keeps. -/
theorem stepTimes_keeps {P : State → Prop} (h : ∀ s t, P s → lzStepRun s = .ok t → P t) {n : Nat} {s t : State}
    (hs : P s) (ht : stepTimes n s = .ok t) : P t := by
  induction n generalizing s with
  | zero => exact Run.ok.inj ht ▸ hs
  | succ n ih =>
    obtain ⟨u, hu, ht⟩ := Run.andThen_eq_ok.1 ht
    exact ih (h s u hs hu) ht

/-- LZ_STEP moves the position on, inside the input. -/
theorem lzStepRun_advances {s t : State} (h : lzStepRun s = .ok t) :
    t.lzLen = s.lzLen ∧ s.lzPos.toNat < t.lzPos.toNat ∧ t.lzPos.toNat ≤ t.lzLen.toNat := by
  obtain ⟨-, -, -, c, len, hmatch, rfl⟩ := lzStepRun_eq_ok.1 h
  obtain ⟨-, hpos, hlen, -⟩ := lzMatch_eq_some hmatch
  have hle : s.lzPos.toNat + len ≤ s.lzLen.toNat := by omega
  obtain ⟨-, -, -, -, elen, -⟩ := stepped_fixed s c len
  obtain ⟨-, epos⟩ := stepped_lzLast_lzPos c len s
  rw [elen, epos, toNat_position_of_le hle]
  exact ⟨rfl, by omega, hle⟩

/-- Everything the loop of LZ_ENC can do, with a turn for each symbol left: it comes to the end of the input, or ends in
the fault of a LZ_STEP before it. -/
theorem lzSteps_cases (fuel : Nat) (s : State) (hfuel : s.lzLen.toNat ≤ s.lzPos.toNat + fuel) :
    ∃ n t, n ≤ fuel ∧ stepTimes n s = .ok t ∧
      ((lzSteps fuel s = .ok t ∧ t.lzLen.toNat ≤ t.lzPos.toNat) ∨
        ∃ f info, n < fuel ∧ t.lzPos.toNat < t.lzLen.toNat ∧ lzStepRun t = .raise f info t ∧
          lzSteps fuel s = .raise f info t) := by
  induction fuel generalizing s with
  | zero => exact ⟨0, s, le_rfl, rfl, .inl ⟨rfl, hfuel⟩⟩
  | succ fuel ih =>
    by_cases hlt : s.lzPos.toNat < s.lzLen.toNat
    · have hloop : lzSteps (fuel + 1) s = (lzStepRun s).andThen (lzSteps fuel) := if_pos hlt
      cases hr : lzStepRun s with
      | raise f info u =>
        obtain rfl := lzStepRun_eq_raise hr
        exact ⟨0, u, Nat.zero_le _, rfl, .inr ⟨f, info, Nat.succ_pos _, hlt, hr, by rw [hloop, hr, Run.andThen_raise]⟩⟩
      | ok u =>
        obtain ⟨elen, hadv, -⟩ := lzStepRun_advances hr
        obtain ⟨n, t, hn, hsteps, hend⟩ := ih u (by rw [elen]; omega)
        rw [hr, Run.andThen_ok] at hloop
        refine ⟨n + 1, t, by omega, by rw [stepTimes, hr, Run.andThen_ok, hsteps], ?_⟩
        rw [hloop]
        rcases hend with hend | ⟨f, info, hlt', hpos, hraise, hend⟩
        · exact .inl hend
        · exact .inr ⟨f, info, by omega, hpos, hraise, hend⟩
    · exact ⟨0, s, Nat.zero_le _, rfl, .inl ⟨if_neg hlt, not_lt.1 hlt⟩⟩

/-- Everything LZ_STEP can do with input left. -/
theorem lzStepRun_cases {u : State} (hph : u.phase = .active) (hpos : u.lzPos.toNat < u.lzLen.toNat) :
    (lzMatch u u.lzPos.toNat = none ∧ lzStepRun u = .raise .sym u.lzPos u) ∨
      (8 * u.params.pCap < u.pkBits.toNat + u.lzW.toNat ∧ lzStepRun u = .raise .ovf 0 u) ∨
      ∃ c len, lzMatch u u.lzPos.toNat = some (c, len) ∧ lzStepRun u = .ok (stepped c len u) := by
  cases hm : lzMatch u u.lzPos.toNat with
  | none => exact .inl ⟨rfl, lzStepRun_of_none hph hpos hm⟩
  | some cl =>
    rcases Nat.lt_or_ge (8 * u.params.pCap) (u.pkBits.toNat + u.lzW.toNat) with hfull | hroom
    · exact .inr (.inl ⟨hfull, lzStepRun_of_no_room hph hpos (by rw [hm]; nofun) hfull⟩)
    · exact .inr (.inr ⟨cl.1, cl.2, rfl, lzStepRun_eq_ok.2 ⟨hph, hpos, hroom, cl.1, cl.2, hm, rfl⟩⟩)

/-! ### The bits of codes (20_memory.md R58) -/

theorem streamBits_append (a b : List (Nat × Nat)) : streamBits (a ++ b) = streamBits a ++ streamBits b := by
  induction a with
  | nil => rfl
  | cons cw a ih => simp only [List.cons_append, streamBits, ih, List.append_assoc]

theorem streamBits_singleton (c w : Nat) : streamBits [(c, w)] = (List.range w).map c.testBit := List.append_nil _

/-- Codes of at most `m` bits take at most `m` bits each. -/
theorem streamBits_length_le {m : Nat} {codes : List (Nat × Nat)} (h : ∀ cw ∈ codes, cw.2 ≤ m) :
    (streamBits codes).length ≤ m * codes.length := by
  induction codes with
  | nil => exact Nat.zero_le _
  | cons cw codes ih =>
    rw [List.forall_mem_cons] at h
    have hrest := ih h.2
    simp only [streamBits, List.length_append, List.length_map, List.length_range, List.length_cons, Nat.mul_succ]
    omega

theorem dataCodes_append (p m i : Nat) (cs : List Nat) (c : Nat) :
    dataCodes p m i (cs ++ [c]) = dataCodes p m i cs ++ [(c, dataWidth p m (i + cs.length))] := by
  induction cs generalizing i with
  | nil => rfl
  | cons d cs ih =>
    simp only [List.cons_append, dataCodes, ih, List.length_cons, Nat.add_right_comm, Nat.add_assoc]

theorem dataCodes_length (p m i : Nat) (cs : List Nat) : (dataCodes p m i cs).length = cs.length := by
  induction cs generalizing i with
  | nil => rfl
  | cons d cs ih => simp only [dataCodes, List.length_cons, ih]

/-- No width exceeds the ceiling (44_lzw.md R132). -/
theorem dataWidth_le {p m : Nat} (hm : initialWidth p ≤ m) (i : Nat) : dataWidth p m i ≤ m :=
  max_le hm ((clog2_le _ _).2 (min_le_right _ _))

theorem dataCodes_width_le {p m : Nat} (hm : initialWidth p ≤ m) (i : Nat) (cs : List Nat) :
    ∀ cw ∈ dataCodes p m i cs, cw.2 ≤ m := by
  induction cs generalizing i with
  | nil => exact fun _ h => nomatch h
  | cons d cs ih => exact List.forall_mem_cons.2 ⟨dataWidth_le hm i, ih _⟩

/-- The packed stream of `u` is `codes`, padded with 0, and the bytes of PBUF behind it are those of `s`. -/
structure StreamIs (codes : List (Nat × Nat)) (s u : State) : Prop where
  length : u.pkBits.toNat = (streamBits codes).length
  bits : ∀ j, j < u.pkBits.toNat → (streamBits codes)[j]? = some (pbufBit u j)
  padded : ∀ j, u.pkBits.toNat ≤ j → j < 8 * pkBytes u → pbufBit u j = false
  bytes : ∀ i, pkBytes u ≤ i → readPbuf u i = readPbuf s i

/-- One code more. -/
theorem StreamIs.append {codes : List (Nat × Nat)} {s u t : State} {c : Nat} (h : StreamIs codes s u)
    (ht : CodeAppended c u t) : StreamIs (codes ++ [(c, u.lzW.toNat)]) s t := by
  have hlen := h.length
  have htlen := ht.length
  refine ⟨?_, fun j hj => ?_, ht.padded, fun i hi => ?_⟩
  · rw [htlen, streamBits_append, streamBits_singleton, List.length_append, List.length_map, List.length_range, hlen]
  · rw [streamBits_append, streamBits_singleton]
    rcases Nat.lt_or_ge j u.pkBits.toNat with hlt | hge
    · rw [List.getElem?_append_left (hlen ▸ hlt), h.bits j hlt, ht.before j hlt]
    · obtain ⟨k, rfl⟩ := Nat.exists_eq_add_of_le hge
      have hk : k < u.lzW.toNat := by omega
      rw [ht.code k hk, List.getElem?_append_right (hlen ▸ hge), ← hlen, Nat.add_sub_cancel_left]
      simp [hk]
  · unfold pkBytes ceilDiv at hi
    rw [htlen] at hi
    rw [ht.bytes i (.inr (by omega)), h.bytes i (by unfold pkBytes ceilDiv; omega)]

/-- The stream, the lengths and the bytes of PBUF are all that the predicate speaks of. -/
theorem StreamIs.congr {codes : List (Nat × Nat)} {s u t : State} (h : StreamIs codes s u) (hbits : t.pkBits = u.pkBits)
    (hpbuf : t.pbuf = u.pbuf) (hepoch : t.epoch = u.epoch) : StreamIs codes s t := by
  have hbit : ∀ j, pbufBit t j = pbufBit u j := fun j => by rw [pbufBit_eq, hpbuf, hepoch, pbufBit_eq]
  have hbyte : ∀ i, readPbuf t i = readPbuf u i := fun i => by rw [readPbuf, hpbuf, hepoch, readPbuf]
  have hcount : pkBytes t = pkBytes u := by rw [pkBytes, hbits, pkBytes]
  refine ⟨hbits ▸ h.length, fun j => ?_, fun j => ?_, fun i => ?_⟩
  · rw [hbits, hbit]; exact h.bits j
  · rw [hbits, hcount, hbit]; exact h.padded j
  · rw [hcount, hbyte]; exact h.bytes i

/-! ### Codes that spell the input (44_lzw.md R133) -/

theorem spelled_congr {s t : State} {cs : List Nat} (h : ∀ c ∈ cs, seqOf t c = seqOf s c) :
    spelled t cs = spelled s cs := by
  induction cs with
  | nil => rfl
  | cons c cs ih =>
    rw [List.forall_mem_cons] at h
    rw [spelled, h.1, ih h.2, spelled]

theorem spelled_append {s : State} {cs : List Nat} {c : Nat} {q r : List Byte} (hcs : spelled s cs = some q)
    (hc : seqOf s c = some r) : spelled s (cs ++ [c]) = some (q ++ r) := by
  induction cs generalizing q with
  | nil =>
    obtain rfl := Option.some.inj hcs
    simp [spelled, hc]
  | cons d cs ih =>
    unfold spelled at hcs
    split at hcs
    next q₁ q₂ hd hrest =>
      obtain rfl := Option.some.inj hcs
      rw [List.cons_append, spelled, hd, ih hrest, List.append_assoc]
    next => cases hcs

theorem symbolsAt_add (s : State) (pos k l : Nat) :
    symbolsAt s pos (k + l) = symbolsAt s pos k ++ symbolsAt s (pos + k) l := by
  simp [symbolsAt, List.range_add, Nat.add_assoc]

/-- Symbols depend on SYMBUF and the epoch only. -/
theorem readSym_same {s t : State} (hsymbuf : t.symbuf = s.symbuf) (hepoch : t.epoch = s.epoch) (i : Nat) :
    readSym t i = readSym s i := by
  rw [readSym, hsymbuf, hepoch, readSym]

theorem symbolsAt_same {s t : State} (hsymbuf : t.symbuf = s.symbuf) (hepoch : t.epoch = s.epoch) (pos l : Nat) :
    symbolsAt t pos l = symbolsAt s pos l :=
  List.map_congr_left fun _ _ => readSym_same hsymbuf hepoch _

/-! ### An encoding under way -/

/-- What the parts of LZ_ENC leave alone and the encoding depends on. -/
theorem EncoderFrame.fixed {s u : State} (h : EncoderFrame s u) :
    u.params = s.params ∧ u.epoch = s.epoch ∧ u.symbuf = s.symbuf ∧ u.lzPalsize = s.lzPalsize ∧
      u.lzMaxbits = s.lzMaxbits ∧ u.lzLen = s.lzLen := by
  rw [h]
  exact ⟨rfl, rfl, rfl, rfl, rfl, rfl⟩

/-- The number of appends after the data codes `cs`: one a code, but for a code at the end of the input (R133). -/
def appends (cs : List Nat) (u : State) : Nat := if u.lzPos.toNat < u.lzLen.toNat then cs.length else cs.length - 1

/-- `u` is the state of LZ_ENC from `s` on after the data codes `cs`: they spell the input up to the position, the
dictionary has grown with them, and the packed stream is CLEAR and these codes. -/
structure Encoded (s : State) (cs : List Nat) (u : State) : Prop where
  frame : EncoderFrame s u
  phase : u.phase = .active
  obuf : u.obuf = s.obuf
  lz : LzOk u
  count : cs.length ≤ u.lzPos.toNat
  valid : ∀ c ∈ cs, c < u.lzDsize.toNat
  spells : spelled u cs = some (symbolsAt s 0 u.lzPos.toNat)
  size : u.lzDsize.toNat = min (s.lzPalsize.toNat + 2 + appends cs u) (2 ^ s.lzMaxbits.toNat)
  entries : ∀ c, u.lzDsize.toNat ≤ c → readDict u c = readDict s c
  stream : StreamIs ((s.lzPalsize.toNat, initialWidth s.lzPalsize.toNat) ::
    dataCodes s.lzPalsize.toNat s.lzMaxbits.toNat 0 cs) s u

/-- After LZ_BEGIN no data code is out yet. -/
theorem encoded_begun {s : State} (hlegal : s.params.Legal) (hcfg : LzConfigOk s) : Encoded s [] (begun s) := by
  obtain ⟨hbits, hcode, hpad, hbytes⟩ := stream_begun hlegal hcfg
  obtain ⟨hsize, -⟩ := lzInit_sizes s hcfg 0
  have hfits : s.lzPalsize.toNat + 2 ≤ 2 ^ s.lzMaxbits.toNat :=
    ((initialWidth_legal _ hcfg.1 hcfg.2.1).2.2.2).trans (Nat.pow_le_pow_right (by decide) hcfg.2.2.1)
  have happends : appends [] (begun s) = 0 := ite_self 0
  have hbits' : (begun s).pkBits.toNat = initialWidth s.lzPalsize.toNat := hbits
  refine ⟨rfl, rfl, rfl, lzOk_begun hcfg, Nat.zero_le _, fun _ h => (nomatch h), rfl, ?_, fun c hc => ?_, ?_⟩
  · rw [happends, Nat.add_zero, min_eq_left hfits]
    exact hsize
  · exact readDict_init_above rfl rfl (hsize.ge.trans hc)
  · refine ⟨?_, fun j hj => ?_, hpad, hbytes⟩
    · rw [dataCodes, streamBits_singleton, List.length_map, List.length_range, hbits']
    · rw [dataCodes, streamBits_singleton, ← show pbufBit (finish (begun s)) j = pbufBit (begun s) j from rfl,
        hcode j hj]
      rw [hbits'] at hj
      simp [hj]

section
variable {s u : State} {cs : List Nat} (h : Encoded s cs u)
include h

/-- The width law in terms of the number of appends (44_lzw.md R132). -/
theorem Encoded.width :
    u.lzW.toNat = dataWidth s.lzPalsize.toNat s.lzMaxbits.toNat (appends cs u) := by
  obtain ⟨-, -, hw⟩ := h.lz.of_active h.phase
  obtain ⟨-, -, -, epal, -⟩ := h.frame.fixed
  rw [hw, h.size, epal, dataWidth]

theorem Encoded.pos_le : u.lzPos.toNat ≤ s.lzLen.toNat := by
  obtain ⟨-, -, -, -, -, elen⟩ := h.frame.fixed
  exact elen ▸ (h.lz.input_of_active h.phase).1

/-- The stream so far takes at most the bits of CLEAR and one code a symbol at the ceiling. -/
theorem Encoded.pkBits_le (hm : initialWidth s.lzPalsize.toNat ≤ s.lzMaxbits.toNat) :
    u.pkBits.toNat ≤ s.lzMaxbits.toNat * (cs.length + 1) := by
  rw [h.stream.length]
  refine (streamBits_length_le (m := s.lzMaxbits.toNat) ?_).trans_eq ?_
  · exact List.forall_mem_cons.2 ⟨hm, dataCodes_width_le hm 0 cs⟩
  · rw [List.length_cons, dataCodes_length]

/-- Within the bound of R152 (b) one more code has room. -/
theorem Encoded.pkBits_add_le (hm : initialWidth s.lzPalsize.toNat ≤ s.lzMaxbits.toNat) :
    u.pkBits.toNat + u.lzW.toNat ≤ s.lzMaxbits.toNat * (s.lzLen.toNat + 2) := by
  have hw : u.lzW.toNat ≤ s.lzMaxbits.toNat := h.width ▸ dataWidth_le hm _
  have hcount : cs.length + 2 ≤ s.lzLen.toNat + 2 := Nat.add_le_add_right (h.count.trans h.pos_le) 2
  calc u.pkBits.toNat + u.lzW.toNat
      ≤ s.lzMaxbits.toNat * (cs.length + 1) + s.lzMaxbits.toNat := Nat.add_le_add (h.pkBits_le hm) hw
    _ = s.lzMaxbits.toNat * (cs.length + 2) := rfl
    _ ≤ s.lzMaxbits.toNat * (s.lzLen.toNat + 2) := Nat.mul_le_mul_left _ hcount

/-- The code of an emission goes behind the stream so far. -/
theorem Encoded.codeAppended (hlegal : s.params.Legal) {c : Nat} {t : State}
    (hroom : u.pkBits.toNat + u.lzW.toNat ≤ 8 * u.params.pCap) (hbits : t.pkBits = (emitted c u).pkBits)
    (hpbuf : t.pbuf = (emitted c u).pbuf) (hepoch : t.epoch = u.epoch) : CodeAppended c u t := by
  obtain ⟨eparams, -⟩ := h.frame.fixed
  exact codeAppended_of_emitted (eparams ▸ hlegal) h.stream.padded hroom hbits hpbuf hepoch

/-- One LZ_STEP more: the matched code is out, and the next symbols are spelled. -/
theorem Encoded.step (hlegal : s.params.Legal) {c len : Nat} (hpos : u.lzPos.toNat < u.lzLen.toNat)
    (hroom : u.pkBits.toNat + u.lzW.toNat ≤ 8 * u.params.pCap) (hmatch : lzMatch u u.lzPos.toNat = some (c, len)) :
    Encoded s (cs ++ [c]) (stepped c len u) := by
  obtain ⟨-, eepoch, esymbuf, epal, emax, elen⟩ := h.frame.fixed
  obtain ⟨hvalid, hlenpos, hlen, hseq, -⟩ := lzMatch_eq_some hmatch
  have hle : u.lzPos.toNat + len ≤ u.lzLen.toNat := by omega
  obtain ⟨hdict, hold⟩ := dictOk_stepped h.lz h.phase hmatch hle
  obtain ⟨-, hm, hw⟩ := h.lz.of_active h.phase
  obtain ⟨hsize, -⟩ := sizes_stepped (c := c) hm hw hle
  obtain ⟨hother, hgrowth⟩ := stepped_dictionary (c := c) hm hw hle
  obtain ⟨-, fepoch, -, -, flen, fphase, -, fobuf, fbits, fpbuf⟩ := stepped_fixed u c len
  obtain ⟨-, fpos⟩ := stepped_lzLast_lzPos c len u
  have hframe : EncoderFrame u (stepped c len u) := by
    unfold EncoderFrame
    rw [stepped_frame]
  have hgrows : u.lzDsize.toNat ≤ (stepped c len u).lzDsize.toNat := by rw [hsize]; split <;> omega
  refine ⟨h.frame.trans hframe, fphase.trans h.phase, fobuf.trans h.obuf, h.lz.stepped h.phase hmatch hle,
    ?count, ?valid, ?spells, ?size, ?entries, ?stream⟩
  case count =>
    rw [fpos, toNat_position_of_le hle, List.length_append, List.length_singleton]
    exact Nat.add_le_add h.count hlenpos
  case valid =>
    intro d hd
    rcases List.mem_append.1 hd with hd | hd
    · exact (h.valid d hd).trans_le hgrows
    · rw [List.mem_singleton.1 hd]
      exact hvalid.trans_le hgrows
  case spells =>
    have hbefore : spelled (stepped c len u) cs = some (symbolsAt s 0 u.lzPos.toNat) :=
      (spelled_congr fun d hd => hold d (h.valid d hd)).trans h.spells
    rw [spelled_append hbefore ((hold c hvalid).trans hseq), fpos, toNat_position_of_le hle,
      symbolsAt_same esymbuf eepoch, symbolsAt_add, Nat.zero_add]
  case size =>
    have hbefore := h.size
    rw [appends, if_pos hpos] at hbefore
    rw [hsize, appends, fpos, flen, toNat_position_of_le hle, List.length_append, List.length_singleton, emax, hbefore]
    split_ifs <;> omega
  case entries =>
    intro d hd
    split at hgrowth
    next =>
      obtain ⟨hsucc, -⟩ := hgrowth
      rw [hother d (by omega), h.entries d (by omega)]
    next =>
      obtain ⟨hsame, -, edict⟩ := hgrowth
      rw [readDict_same edict fepoch, h.entries d (hsame ▸ hd)]
  case stream =>
    have hcode := h.stream.append (h.codeAppended hlegal hroom fbits fpbuf fepoch)
    rwa [h.width, appends, if_pos hpos, List.cons_append, ← Nat.zero_add cs.length, ← dataCodes_append] at hcode

end

/-- A LZ_STEP that runs to its end continues the encoding. -/
theorem Encoded.lzStepRun {s u t : State} {cs : List Nat} (hlegal : s.params.Legal) (h : Encoded s cs u)
    (ht : lzStepRun u = .ok t) : ∃ cs', Encoded s cs' t := by
  obtain ⟨-, hpos, hroom, c, len, hmatch, rfl⟩ := lzStepRun_eq_ok.1 ht
  exact ⟨_, h.step hlegal hpos hroom hmatch⟩

/-- Everything the loop of LZ_ENC can do after LZ_BEGIN, for what `P` says of the states in between: it comes to the end
of the input, or ends in a fault with input left. -/
theorem lzEnc_loop_cases {s : State} (hlegal : s.params.Legal) (hcfg : LzConfigOk s) {P : State → Prop}
    (hbegin : P (begun s))
    (hstep : ∀ u t cs, Encoded s cs u → P u → Machine.lzStepRun u = .ok t → P t) :
    ∃ cs u, Encoded s cs u ∧ P u ∧
      ((lzSteps (begun s).lzLen.toNat (begun s) = .ok u ∧ u.lzPos = u.lzLen) ∨
        ∃ f info, u.lzPos.toNat < u.lzLen.toNat ∧ Machine.lzStepRun u = .raise f info u ∧
          lzSteps (begun s).lzLen.toNat (begun s) = .raise f info u) := by
  obtain ⟨n, u, -, hsteps, hend⟩ := lzSteps_cases (begun s).lzLen.toNat (begun s) (Nat.le_add_left _ _)
  obtain ⟨⟨cs, henc⟩, hu⟩ : (∃ cs, Encoded s cs u) ∧ P u := by
    refine stepTimes_keeps (P := fun u => (∃ cs, Encoded s cs u) ∧ P u) ?_
      ⟨⟨[], encoded_begun hlegal hcfg⟩, hbegin⟩ hsteps
    rintro v t ⟨⟨cs, hv⟩, hP⟩ ht
    exact ⟨hv.lzStepRun hlegal ht, hstep v t cs hv hP ht⟩
  refine ⟨cs, u, henc, hu, ?_⟩
  rcases hend with ⟨hok, hpos⟩ | ⟨f, info, -, hpos, hraise, hloop⟩
  · have hle := (henc.lz.input_of_active henc.phase).1
    exact .inl ⟨hok, BitVec.eq_of_toNat_eq (le_antisymm hle hpos)⟩
  · exact .inr ⟨f, info, hpos, hraise, hloop⟩

/-! ### LZ_ENC to its end -/

/-- The state LZ_ENC leaves, from the state `u` at the end of its loop. -/
abbrev encEnd (u : State) : State := framed (closed u)

/-- After LZ_BEGIN, LZ_ENC is the loop and what follows it. -/
theorem lzEncRun_of_begun {s : State} (hlegal : s.params.Legal) (hcfg : LzConfigOk s) :
    lzEncRun s = (lzSteps (begun s).lzLen.toNat (begun s)).andThen fun b => (lzEndRun b).andThen frRunRun := by
  rw [lzEncRun, lzBeginRun_eq_ok.2 ⟨hcfg, clear_fits hlegal hcfg, rfl⟩, Run.andThen_ok]

/-- Where LZ_ENC runs to its end, its state is that of an encoding at the end of the input, closed and framed. -/
theorem exists_encoded_of_ok {s t : State} (hlegal : s.params.Legal) (h : lzEncRun s = .ok t) :
    LzConfigOk s ∧ ∃ cs u, Encoded s cs u ∧ lzSteps (begun s).lzLen.toNat (begun s) = .ok u ∧ u.lzPos = u.lzLen ∧
      u.pkBits.toNat + u.lzW.toNat ≤ 8 * u.params.pCap ∧ framedLength (pkBytes (closed u)) ≤ u.params.oCap ∧
      t = encEnd u := by
  obtain ⟨b, e, hbegin, hloop, hend, hout⟩ := lzEncRun_eq_ok.1 h
  obtain ⟨hcfg, -, -⟩ := lzBeginRun_eq_ok.1 hbegin
  obtain ⟨cs, u, henc, -, ⟨hok, hpos⟩ | ⟨f, info, -, -, hraise⟩⟩ :=
    lzEnc_loop_cases (P := fun _ => True) hlegal hcfg trivial (fun _ _ _ _ _ _ => trivial)
  · obtain rfl : u = b := Run.ok.inj (hok.symm.trans hloop)
    obtain ⟨-, -, hroom, rfl⟩ := lzEndRun_eq_ok.1 hend
    obtain ⟨hframe, rfl⟩ := frRunRun_eq_ok.1 hout
    exact ⟨hcfg, cs, u, henc, hloop, hpos, hroom, hframe, rfl⟩
  · rw [hraise] at hloop
    cases hloop

/-- END goes behind the data codes, at the width of the last of them (44_lzw.md R131). -/
theorem Encoded.stream_closed {s u : State} {cs : List Nat} (h : Encoded s cs u) (hlegal : s.params.Legal)
    (hpos : u.lzPos = u.lzLen) (hroom : u.pkBits.toNat + u.lzW.toNat ≤ 8 * u.params.pCap) :
    StreamIs (encodedCodes s.lzPalsize.toNat s.lzMaxbits.toNat cs) s (closed u) := by
  obtain ⟨-, -, -, epal, -⟩ := h.frame.fixed
  have hcode := h.stream.append (h.codeAppended (t := closed u) hlegal hroom rfl rfl rfl)
  rwa [h.width, appends, if_neg (by rw [hpos]; exact lt_irrefl _), epal] at hcode

/-- Fault entry leaves ENDED, so a LZ_ENC that ends in ENDED ran to its end. -/
theorem exists_ok_of_exec_lzEnc_ended {s t : State} (h : exec .lzEnc s = .next t) (hph : t.phase = .ended) :
    ∃ v, lzEncRun s = .ok v ∧ t = finish v := by
  rw [exec_lzEnc] at h
  rcases conclude_cases h with ⟨v, hv, rfl⟩ | ⟨f, info, v, -, rfl⟩
  · exact ⟨v, hv, rfl⟩
  · cases hph

/-- Settles O26: the invariant of the loop at the end of the input, END behind it. -/
theorem lzEncStreamIsLossless : Obligations.LzEncStreamIsLossless := by
  intro s t hlegal h hph
  obtain ⟨v, hv, rfl⟩ := exists_ok_of_exec_lzEnc_ended h hph
  obtain ⟨-, cs, u, henc, -, hpos, hroom, -, rfl⟩ := exists_encoded_of_ok hlegal hv
  obtain ⟨-, -, -, -, -, elen⟩ := henc.frame.fixed
  have hstream := henc.stream_closed hlegal hpos hroom
  have hsize := henc.size
  rw [appends, if_neg (by rw [hpos]; exact lt_irrefl _)] at hsize
  have hspells := henc.spells
  rw [hpos, elen] at hspells
  refine ⟨cs, henc.count.trans henc.pos_le, henc.valid, ?_, hsize, hstream.length, hstream.bits⟩
  have hentries : ∀ d, readDict (finish (encEnd u)) d = readDict u d := readDict_same rfl rfl
  exact (spelled_congr fun c _ => seqOf_congr hentries c).trans hspells

/-! ### Completion within the bound (46_lzw_composite.md R152 (b)) -/

theorem ceilDiv_mono {a b : Nat} (h : a ≤ b) (k : Nat) : ceilDiv a k ≤ ceilDiv b k :=
  Nat.div_le_div_right (by omega)

theorem framedLength_mono {a b : Nat} (h : a ≤ b) : framedLength a ≤ framedLength b :=
  Nat.add_le_add_right (Nat.add_le_add h (ceilDiv_mono h _)) 1

/-- Within the bound no LZ_STEP of the encoding is short of room: it can only find no match. -/
theorem Encoded.lzStepRun_eq_raise {s u : State} {cs : List Nat} (h : Encoded s cs u)
    (hm : initialWidth s.lzPalsize.toNat ≤ s.lzMaxbits.toNat)
    (hbound : s.lzMaxbits.toNat * (s.lzLen.toNat + 2) ≤ 8 * s.params.pCap) {f : FaultCode} {info : Word}
    (hpos : u.lzPos.toNat < u.lzLen.toNat) (hraise : Machine.lzStepRun u = .raise f info u) :
    f = .sym ∧ info = u.lzPos ∧ s.lzPalsize.toNat ≤ (readSym s u.lzPos.toNat).toNat := by
  obtain ⟨eparams, eepoch, esymbuf, epal, -⟩ := h.frame.fixed
  obtain ⟨p, m, -, hp, -, -, hdict, -, -, hact⟩ := h.lz (by rw [h.phase]; nofun)
  obtain ⟨rfl, -⟩ := hact h.phase
  rcases lzStepRun_cases h.phase hpos with ⟨hnone, e⟩ | ⟨hfull, -⟩ | ⟨c, len, -, e⟩
  · rw [e] at hraise
    obtain ⟨rfl, rfl, -⟩ := Run.raise.inj hraise
    have hlarge := (lzMatch_eq_none_iff hp hdict hpos).1 hnone
    rw [epal, readSym_same esymbuf eepoch] at hlarge
    exact ⟨rfl, rfl, hlarge⟩
  · rw [eparams] at hfull
    exact absurd (h.pkBits_add_le hm) (by omega)
  · rw [e] at hraise
    cases hraise

/-- LZ_ENC runs to its end where every symbol is below the palette size and the output memories are large enough. -/
theorem lzEncRun_of_bound {s : State} (hlegal : s.params.Legal) (hcfg : LzConfigOk s)
    (hsmall : ∀ k, k < s.lzLen.toNat → (readSym s k).toNat < s.lzPalsize.toNat)
    (hbound : s.lzMaxbits.toNat * (s.lzLen.toNat + 2) ≤ 8 * s.params.pCap)
    (hframe : framedLength (ceilDiv (s.lzMaxbits.toNat * (s.lzLen.toNat + 2)) 8) ≤ s.params.oCap) :
    ∃ t, lzEncRun s = .ok t := by
  have hm := hcfg.2.2.1
  rw [lzEncRun_of_begun hlegal hcfg]
  obtain ⟨cs, u, henc, -, ⟨hok, hpos⟩ | ⟨f, info, hpos, hraise, -⟩⟩ :=
    lzEnc_loop_cases (P := fun _ => True) hlegal hcfg trivial (fun _ _ _ _ _ _ => trivial)
  · obtain ⟨eparams, -⟩ := henc.frame.fixed
    have hfits := henc.pkBits_add_le hm
    have hroom : u.pkBits.toNat + u.lzW.toNat ≤ 8 * u.params.pCap := eparams ▸ hfits.trans hbound
    have hlength := (henc.codeAppended (c := u.lzPalsize.toNat + 1) (t := closed u) hlegal hroom rfl rfl rfl).length
    have hout : framedLength (pkBytes (closed u)) ≤ (closed u).params.oCap := by
      refine (framedLength_mono (ceilDiv_mono (hlength.trans_le hfits) 8)).trans ?_
      rw [show (closed u).params = s.params from eparams]
      exact hframe
    refine ⟨encEnd u, ?_⟩
    rw [hok, Run.andThen_ok, lzEndRun_eq_ok.2 ⟨henc.phase, hpos, hroom, rfl⟩, Run.andThen_ok, frRunRun_of_room hout]
  · obtain ⟨-, -, hlarge⟩ := henc.lzStepRun_eq_raise hm hbound hpos hraise
    obtain ⟨-, -, -, -, -, elen⟩ := henc.frame.fixed
    exact absurd (hsmall _ (elen ▸ hpos)) hlarge.not_gt

/-- Settles O24: the run to its end, and what its parts leave. -/
theorem lzEncCompletesWithinTheBound : Obligations.LzEncCompletesWithinTheBound := by
  intro s hlegal hcfg hsmall hbound hout
  obtain ⟨v, hv⟩ := lzEncRun_of_bound hlegal hcfg hsmall hbound hout
  obtain ⟨-, cs, u, henc, -, hpos, hroom, hframe, rfl⟩ := exists_encoded_of_ok hlegal hv
  obtain ⟨eparams, -, -, epal, -, elen⟩ := henc.frame.fixed
  have hlegal' : (closed u).params.Legal := eparams ▸ hlegal
  have hframed : StreamFramed (closed u) (finish (encEnd u)) :=
    streamFramed_of_framed hlegal' hframe rfl rfl rfl
  have hcode := henc.codeAppended (c := u.lzPalsize.toNat + 1) (t := closed u) hlegal hroom rfl rfl rfl
  have hbytes := (henc.stream_closed hlegal hpos hroom).bytes
  refine ⟨finish (encEnd u), by rw [exec_lzEnc, hv, conclude_ok], ?state, ?last, ?bits, hframed.length, hframed.data,
    hframed.full, hframed.last, hframed.terminator, fun i hi => ?obuf, hbytes, henc.entries⟩
  case state =>
    have hwhole : EncoderFrame s (encEnd u) := henc.frame.trans rfl
    have hend : (encEnd u).lzPos = s.lzLen := hpos.trans elen
    unfold EncoderFrame at hwhole
    rw [hend] at hwhole
    unfold finish
    rw [hwhole]
    rfl
  case last =>
    rw [← epal]
    exact Nat.mod_eq_of_lt (by have := u.lzPalsize.isLt; omega)
  case bits => exact hcode.length.trans_le (henc.pkBits_add_le hcfg.2.2.1)
  case obuf =>
    rw [hframed.beyond i hi]
    rw [readObuf, readObuf, show (closed u).obuf = s.obuf from henc.obuf,
      show (closed u).epoch = s.epoch from henc.frame.fixed.2.1]

/-! ### The first symbol that is too large (46_lzw_composite.md R150) -/

/-- Every shorter match to a match: the sequences are closed under initial parts (10_state.md R33). -/
theorem Matches.initialPart {s : State} {p pos d m l : Nat} (hdict : DictOk p s) (h : Matches s pos d m) (hl : 0 < l)
    (hlm : l ≤ m) : ∃ e, Matches s pos e l := by
  induction m generalizing d with
  | zero => omega
  | succ m ih =>
    rcases hlm.eq_or_lt with rfl | hlt
    · exact ⟨d, h⟩
    · obtain ⟨-, -, hshort⟩ := h.shorten hdict (by omega)
      exact ih hshort (by omega)

/-- The encoding has not passed symbol `k`, and before it no appended symbol is too large. -/
structure UpToSymbol (k p : Nat) (u : State) : Prop where
  pos_le : u.lzPos.toNat ≤ k
  small : u.lzPos.toNat < k → ∀ d, d < u.lzDsize.toNat → (readDict u d).kind = .str → (readDict u d).sym.toNat < p

/-- A match does not reach past a symbol that no appended entry holds. -/
theorem Matches.end_le {u : State} {p pos c len k : Nat} (hdict : DictOk p u) (h : Matches u pos c len) (hpos : pos < k)
    (hsmall : ∀ d, d < u.lzDsize.toNat → (readDict u d).kind = .str → (readDict u d).sym.toNat < p)
    (hlarge : p ≤ (readSym u k).toNat) : pos + len ≤ k := by
  by_contra hpast
  obtain ⟨e, he⟩ := h.initialPart hdict (l := k - pos + 1) (Nat.succ_pos _) (by omega)
  obtain ⟨hkind, hsym, -⟩ := he.shorten hdict (by omega)
  have hlt := hsmall e he.valid hkind
  rw [hsym, Nat.add_sub_cancel' hpos.le] at hlt
  omega

/-- LZ_STEP comes up to the first symbol that is too large, and appends it only when it stands there. -/
theorem UpToSymbol.step {s u t : State} {cs : List Nat} {k : Nat} (henc : Encoded s cs u)
    (hbefore : ∀ j, j < k → (readSym s j).toNat < s.lzPalsize.toNat)
    (hlarge : s.lzPalsize.toNat ≤ (readSym s k).toNat) (h : UpToSymbol k s.lzPalsize.toNat u)
    (ht : Machine.lzStepRun u = .ok t) : UpToSymbol k s.lzPalsize.toNat t := by
  obtain ⟨-, -, -, c, len, hmatch, rfl⟩ := lzStepRun_eq_ok.1 ht
  obtain ⟨-, eepoch, esymbuf, epal, -⟩ := henc.frame.fixed
  obtain ⟨p, m, -, hp, -, hm, hdict, -, hw, hact⟩ := henc.lz (by rw [henc.phase]; nofun)
  obtain ⟨rfl, rfl, -⟩ := hact henc.phase
  have hread : ∀ i, readSym u i = readSym s i := readSym_same esymbuf eepoch
  have hm' := (Matches.of_lzMatch hmatch).1
  have hfirst := hm'.small hp hdict
  rw [epal] at hfirst hdict
  have hlt : u.lzPos.toNat < k := by
    refine h.pos_le.lt_of_ne fun hk => ?_
    rw [hk, hread] at hfirst
    omega
  have hend := hm'.end_le hdict hlt (h.small hlt) (by rwa [hread])
  have hfits := hm'.fits
  have hle : u.lzPos.toNat + len ≤ u.lzLen.toNat := by have := (henc.lz.input_of_active henc.phase).1; omega
  obtain ⟨hother, hgrowth⟩ := stepped_dictionary (c := c) hm hw hle
  obtain ⟨-, epos⟩ := stepped_lzLast_lzPos c len u
  refine ⟨by rwa [epos, toNat_position_of_le hle], fun hlt' d hd hkind => ?_⟩
  rw [epos, toNat_position_of_le hle] at hlt'
  split at hgrowth
  next =>
    obtain ⟨hsucc, hentry, -⟩ := hgrowth
    by_cases hnew : d = u.lzDsize.toNat
    · rw [hnew, hentry]
      exact (congrArg BitVec.toNat (hread _)).trans_lt (hbefore _ hlt')
    · rw [hother d hnew] at hkind ⊢
      exact h.small hlt d (by omega) hkind
  next =>
    obtain ⟨hsame, -⟩ := hgrowth
    have hd' : d < u.lzDsize.toNat := hsame ▸ hd
    rw [hother d hd'.ne] at hkind ⊢
    exact h.small hlt d hd' hkind

/-- Settles O28: the loop stops at the symbol, with no match for it. -/
theorem lzEncFaultsAtTheFirstLargeSymbol : Obligations.LzEncFaultsAtTheFirstLargeSymbol := by
  intro s k hlegal hcfg hk hbefore hlarge hbound
  obtain ⟨hsize, -⟩ := lzInit_sizes s hcfg 0
  have hbegin : UpToSymbol k s.lzPalsize.toNat (begun s) := by
    refine ⟨Nat.zero_le k, fun _ d hd hkind => ?_⟩
    have hdict : DictOk s.lzPalsize.toNat (begun s) := dictOk_init hcfg.2.1 rfl rfl hsize
    exact absurd (hdict.str_above hd hkind) (not_le.2 (hsize ▸ hd))
  obtain ⟨cs, u, henc, hu, ⟨-, hpos⟩ | ⟨f, info, hpos, hraise, hloop⟩⟩ :=
    lzEnc_loop_cases hlegal hcfg hbegin fun u t cs henc h ht => h.step henc hbefore hlarge ht
  · obtain ⟨-, -, -, -, -, elen⟩ := henc.frame.fixed
    have hle := hu.pos_le
    rw [hpos, elen] at hle
    omega
  · obtain ⟨rfl, rfl, hlarge'⟩ := henc.lzStepRun_eq_raise hcfg.2.2.1 hbound hpos hraise
    have hat : u.lzPos = BitVec.ofNat 32 k := by
      have hge : ¬u.lzPos.toNat < k := fun hlt => (hbefore _ hlt).not_ge hlarge'
      rw [← le_antisymm hu.pos_le (not_lt.1 hge), BitVec.ofNat_toNat, BitVec.setWidth_eq]
    have hrun : exec .lzEnc s = .next (faultEntry .sym (BitVec.ofNat 32 k) u) := by
      rw [exec_lzEnc, lzEncRun_of_begun hlegal hcfg, hloop, Run.andThen_raise, conclude_raise, hat]
    refine ⟨_, hrun, ?_⟩
    have hframe := henc.frame
    unfold EncoderFrame at hframe
    rw [henc.obuf, hat] at hframe
    unfold faultEntry
    rw [hframe]

end Sys2Proof.Machine
end

section
/-! LZ_ENC as the sequence of its primitives (46_lzw_composite.md R150; 60_exceptions.md R169): the runs of the
primitives do not look at the flags a completion sets, so completing them one by one is running them in one. Settles
O25. -/

namespace Sys2Proof.Machine

/-! ### What a match depends on (44_lzw.md R126) -/

/-- Two states in which a code has one sequence, and which have one input, agree on the code as a candidate. -/
theorem candidateLength_congr {s t : State} {pos c : Nat} (hlen : t.lzLen = s.lzLen) (hseq : seqOf t c = seqOf s c)
    (hsym : ∀ i, i < s.lzLen.toNat → readSym t i = readSym s i) :
    candidateLength t pos c = candidateLength s pos c := by
  have hinput : ∀ l, l ≤ s.lzLen.toNat - pos → symbolsAt t pos l = symbolsAt s pos l := fun l hl =>
    List.map_congr_left fun k hk => hsym _ (by have := List.mem_range.1 hk; omega)
  refine Option.ext fun l => ?_
  rw [candidateLength_eq_some, candidateLength_eq_some, hlen, hseq]
  exact and_congr_right fun hl => by rw [hinput l hl]

/-- The scan looks at the codes below the bound only. -/
theorem longestBelow_congr {s t : State} {pos n : Nat}
    (h : ∀ c, c < n → candidateLength t pos c = candidateLength s pos c) :
    longestBelow t pos n = longestBelow s pos n := by
  induction n with
  | zero => rfl
  | succ n ih =>
    rw [longestBelow, ih fun c hc => h c (hc.trans (Nat.lt_succ_self n)), h n (Nat.lt_succ_self n), longestBelow]

/-- A match depends on the sequences of the valid codes and on the input. -/
theorem lzMatch_congr {s t : State} (pos : Nat) (hsize : t.lzDsize = s.lzDsize) (hlen : t.lzLen = s.lzLen)
    (hseq : ∀ c, c < s.lzDsize.toNat → seqOf t c = seqOf s c)
    (hsym : ∀ i, i < s.lzLen.toNat → readSym t i = readSym s i) : lzMatch t pos = lzMatch s pos := by
  rw [lzMatch, hsize]
  exact longestBelow_congr fun c hc => candidateLength_congr hlen (hseq c hc) hsym

/-! ### Runs after a completion -/

/-- `s` with the flags of a completed command, and the model's counter at `g`. -/
def finishedAt (g : Nat) (s : State) : State := { finish s with gen := g }

theorem finish_eq_finishedAt (s : State) : finish s = finishedAt (s.gen + 1) s := rfl

/-- The flags of two completions are those of one. -/
theorem finish_finishedAt (g : Nat) (s : State) : finish (finishedAt g s) = finishedAt (g + 1) s := rfl

/-- A run with `f` applied to the state it ends in. -/
def Run.map (f : State → State) : Run → Run
  | .ok s => .ok (f s)
  | .raise c info s => .raise c info (f s)

theorem lzMatch_finishedAt (g : Nat) (s : State) (pos : Nat) : lzMatch (finishedAt g s) pos = lzMatch s pos := by
  have hentries : ∀ d, readDict (finishedAt g s) d = readDict s d := readDict_same rfl rfl
  exact lzMatch_congr pos rfl rfl (fun c _ => seqOf_congr hentries c) fun i _ => readSym_same rfl rfl i

theorem lzAppend_finishedAt (g c : Nat) (s : State) : lzAppend c (finishedAt g s) = finishedAt g (lzAppend c s) := by
  rcases lzAppend_cases c s with ⟨h, e⟩ | ⟨h, e⟩ <;> rcases lzAppend_cases c (finishedAt g s) with ⟨h', e'⟩ | ⟨h', e'⟩
  · rw [e, e']
    rfl
  · exact absurd h h'
  · exact absurd h' h
  · rw [e, e']

theorem stepped_finishedAt (g c len : Nat) (s : State) :
    stepped c len (finishedAt g s) = finishedAt g (stepped c len s) :=
  lzAppend_finishedAt g c { emitted c s with lzPos := BitVec.ofNat 32 (s.lzPos.toNat + len) }

theorem lzStepRun_of_misplaced {s : State} (h : s.phase ≠ .active ∨ s.lzLen.toNat ≤ s.lzPos.toNat) :
    lzStepRun s = .raise .seq s.cmd s := if_pos h

theorem lzStepRun_finishedAt (g : Nat) (s : State) :
    lzStepRun (finishedAt g s) = (lzStepRun s).map (finishedAt g) := by
  by_cases hplace : s.phase ≠ .active ∨ s.lzLen.toNat ≤ s.lzPos.toNat
  · rw [lzStepRun_of_misplaced hplace, lzStepRun_of_misplaced (s := finishedAt g s) hplace]
    rfl
  obtain ⟨hph, hpos⟩ := not_or.1 hplace
  have hph := not_not.1 hph
  have hpos := not_le.1 hpos
  have hmatch := lzMatch_finishedAt g s s.lzPos.toNat
  rcases lzStepRun_cases hph hpos with ⟨hm, e⟩ | ⟨hfull, e⟩ | ⟨c, len, hm, e⟩
  · rw [e, lzStepRun_of_none (s := finishedAt g s) hph hpos (hmatch.trans hm)]
    rfl
  · have hm : lzMatch s s.lzPos.toNat ≠ none := fun hm => by
      rw [lzStepRun_of_none hph hpos hm] at e
      cases e
    rw [e, lzStepRun_of_no_room (s := finishedAt g s) hph hpos (hmatch.trans_ne hm) hfull]
    rfl
  · obtain ⟨-, -, hroom, -⟩ := lzStepRun_eq_ok.1 e
    have hrun : lzStepRun (finishedAt g s) = .ok (stepped c len (finishedAt g s)) :=
      lzStepRun_eq_ok.2 ⟨hph, hpos, hroom, c, len, hmatch.trans hm, rfl⟩
    rw [e, hrun, Run.map, stepped_finishedAt]

theorem lzEndRun_of_misplaced {s : State} (h : s.phase ≠ .active ∨ s.lzPos ≠ s.lzLen) :
    lzEndRun s = .raise .seq s.cmd s := if_pos h

theorem lzEndRun_finishedAt (g : Nat) (s : State) : lzEndRun (finishedAt g s) = (lzEndRun s).map (finishedAt g) := by
  by_cases hplace : s.phase ≠ .active ∨ s.lzPos ≠ s.lzLen
  · rw [lzEndRun_of_misplaced hplace, lzEndRun_of_misplaced (s := finishedAt g s) hplace]
    rfl
  obtain ⟨hph, hpos⟩ := not_or.1 hplace
  have hph := not_not.1 hph
  have hpos := not_not.1 hpos
  rcases Nat.lt_or_ge (8 * s.params.pCap) (s.pkBits.toNat + s.lzW.toNat) with hfull | hroom
  · rw [lzEndRun_of_no_room hph hpos hfull, lzEndRun_of_no_room (s := finishedAt g s) hph hpos hfull]
    rfl
  · have hrun : lzEndRun (finishedAt g s) = .ok (closed (finishedAt g s)) :=
      lzEndRun_eq_ok.2 ⟨hph, hpos, hroom, rfl⟩
    rw [lzEndRun_eq_ok.2 ⟨hph, hpos, hroom, rfl⟩, hrun]
    rfl

theorem frRunRun_finishedAt (g : Nat) (s : State) : frRunRun (finishedAt g s) = (frRunRun s).map (finishedAt g) := by
  rcases Nat.lt_or_ge s.params.oCap (framedLength (pkBytes s)) with hfull | hroom
  · rw [frRunRun_of_no_room hfull, frRunRun_of_no_room (s := finishedAt g s) hfull]
    rfl
  · rw [frRunRun_of_room hroom, frRunRun_of_room (s := finishedAt g s) hroom]
    rfl

/-- The primitives of LZ_ENC behind LZ_BEGIN. -/
abbrev laterPrimitives : List Instr := [.lzStep, .lzEnd, .frRun]

/-- The runs of the later primitives do not look at the flags a completion sets. -/
theorem runOf_finishedAt {i : Instr} (hi : i ∈ laterPrimitives) (g : Nat) (s : State) :
    runOf i (finishedAt g s) = (runOf i s).map (finishedAt g) := by
  simp only [List.mem_cons, List.not_mem_nil, or_false] at hi
  rcases hi with rfl | rfl | rfl
  · exact lzStepRun_finishedAt g s
  · exact lzEndRun_finishedAt g s
  · exact frRunRun_finishedAt g s

/-- A later primitive is completed after others as it runs after them. -/
theorem exec_finishedAt {i : Instr} (hi : i ∈ laterPrimitives) (g : Nat) (s : State) :
    exec i (finishedAt g s) = conclude ((runOf i s).map (finishedAt g)) := by
  have hrst : i ≠ .rst := fun h => by simp [h] at hi
  rw [exec_eq_conclude i _ hrst, runOf_finishedAt hi]

/-! ### Sequences of commands -/

/-- The runs of the commands of a list, one after another. -/
def runAll : List Instr → State → Run
  | [], s => .ok s
  | i :: is, s => (runOf i s).andThen (runAll is)

theorem runAll_append (is js : List Instr) (s : State) : runAll (is ++ js) s = (runAll is s).andThen (runAll js) := by
  induction is generalizing s with
  | nil => rfl
  | cons i is ih => rw [List.cons_append, runAll, runAll, Run.andThen_assoc, funext ih]

theorem runAll_replicate (n : Nat) (s : State) : runAll (List.replicate n .lzStep) s = stepTimes n s := by
  induction n generalizing s with
  | zero => rfl
  | succ n ih => rw [List.replicate_succ, runAll, stepTimes, funext ih, runOf]

/-- No run writes STATUS.ERR. -/
theorem runAll_err {is : List Instr} {s t : State} (h : runAll is s = .ok t) : t.err = s.err := by
  induction is generalizing s with
  | nil => rw [← Run.ok.inj h]
  | cons i is ih =>
    obtain ⟨u, hu, ht⟩ := Run.andThen_eq_ok.1 h
    have herr := runOf_err i s
    rw [hu] at herr
    exact (ih ht).trans herr

/-- Later primitives that run to their end are completed to the same state, but for the flags. -/
theorem execAll_finishedAt {is : List Instr} (his : ∀ i ∈ is, i ∈ laterPrimitives) {g : Nat} {s t : State}
    (h : runAll is s = .ok t) : ∃ g', execAll is (finishedAt g s) = some (finishedAt g' t) := by
  induction is generalizing g s with
  | nil => exact ⟨g, by rw [execAll, Run.ok.inj h]⟩
  | cons i is ih =>
    obtain ⟨u, hu, ht⟩ := Run.andThen_eq_ok.1 h
    rw [List.forall_mem_cons] at his
    have hexec : exec i (finishedAt g s) = .next (finishedAt (g + 1) u) := by
      rw [exec_finishedAt his.1, hu, Run.map, conclude_ok, finish_finishedAt]
    rw [execAll, hexec]
    exact ih his.2 ht

/-- LZ_BEGIN and later primitives that run to their end are completed to the same state, but for the flags. -/
theorem execAll_begin {is : List Instr} (his : ∀ i ∈ is, i ∈ laterPrimitives) {s t : State}
    (h : runAll (.lzBegin :: is) s = .ok t) : ∃ g, execAll (.lzBegin :: is) s = some (finishedAt g t) := by
  obtain ⟨u, hu, ht⟩ := Run.andThen_eq_ok.1 h
  have hexec : exec .lzBegin s = .next (finishedAt (u.gen + 1) u) := by
    rw [exec_lzBegin, show lzBeginRun s = .ok u from hu, conclude_ok, finish_eq_finishedAt]
  rw [execAll, hexec]
  exact execAll_finishedAt his ht

/-! ### The sequence of LZ_ENC -/

/-- LZ_BEGIN, LZ_STEP `n` times, LZ_END, FR_RUN. -/
abbrev encSequence (n : Nat) : List Instr := .lzBegin :: (List.replicate n .lzStep ++ [.lzEnd, .frRun])

theorem mem_laterPrimitives_of_replicate {n : Nat} {i : Instr} (h : i ∈ List.replicate n Instr.lzStep) :
    i ∈ laterPrimitives := by
  rw [List.eq_of_mem_replicate h]
  exact List.mem_cons_self

theorem runAll_begun {s : State} (hbegin : lzBeginRun s = .ok (begun s)) (is : List Instr) :
    runAll (.lzBegin :: is) s = runAll is (begun s) := by
  rw [runAll, show runOf .lzBegin s = .ok (begun s) from hbegin, Run.andThen_ok]

/-- The faults of LZ_BEGIN are those of its configuration check, and E_OVF(0). -/
theorem lzBeginRun_fault_ne_seq {s t : State} {f : FaultCode} {info : Word} (h : lzBeginRun s = .raise f info t) :
    f ≠ .seq := by
  rintro rfl
  rcases Run.andThen_eq_raise.1 h with hcheck | ⟨a, -, h⟩
  · unfold lzCheck at hcheck
    split_ifs at hcheck <;> cases hcheck
  · rcases Run.andThen_eq_raise.1 h with hemit | ⟨b, -, h⟩
    · rcases lzEmit_cases a.lzPalsize.toNat (lzInit { a with pkBits := 0 }) with ⟨-, e⟩ | ⟨-, e⟩ <;> rw [e] at hemit <;>
        cases hemit
    · cases h

theorem frRunRun_fault_ne_seq {s t : State} {f : FaultCode} {info : Word} (h : frRunRun s = .raise f info t) :
    f ≠ .seq := by
  unfold frRunRun at h
  split at h
  · rw [← (Run.raise.inj h).1]
    nofun
  · cases h

/-- At the end of the input LZ_END can only be short of room. -/
theorem lzEndRun_fault_ne_seq {s t : State} {f : FaultCode} {info : Word} (hph : s.phase = .active)
    (hpos : s.lzPos = s.lzLen) (h : lzEndRun s = .raise f info t) : f ≠ .seq := by
  rcases Nat.lt_or_ge (8 * s.params.pCap) (s.pkBits.toNat + s.lzW.toNat) with hfull | hroom
  · rw [lzEndRun_of_no_room hph hpos hfull] at h
    rw [← (Run.raise.inj h).1]
    nofun
  · rw [lzEndRun_eq_ok.2 ⟨hph, hpos, hroom, rfl⟩] at h
    cases h

/-- With input left LZ_STEP can only find no match or be short of room. -/
theorem lzStepRun_fault_ne_seq {s t : State} {f : FaultCode} {info : Word} (hph : s.phase = .active)
    (hpos : s.lzPos.toNat < s.lzLen.toNat) (h : lzStepRun s = .raise f info t) : f ≠ .seq := by
  rcases lzStepRun_cases hph hpos with ⟨-, e⟩ | ⟨-, e⟩ | ⟨c, len, -, e⟩ <;> rw [e] at h
  · rw [← (Run.raise.inj h).1]
    nofun
  · rw [← (Run.raise.inj h).1]
    nofun
  · cases h

/-- Throughout the loop of LZ_ENC the phase is ACTIVE and the position inside the input. -/
theorem stepTimes_begun {n : Nat} {s u : State} (h : stepTimes n (begun s) = .ok u) :
    u.phase = .active ∧ u.lzPos.toNat ≤ u.lzLen.toNat := by
  refine stepTimes_keeps (P := fun u => u.phase = .active ∧ u.lzPos.toNat ≤ u.lzLen.toNat) (fun v t _ ht => ?_)
    ⟨rfl, Nat.zero_le _⟩ h
  obtain ⟨-, -, hle⟩ := lzStepRun_advances ht
  obtain ⟨hph, -, -, c, len, -, rfl⟩ := lzStepRun_eq_ok.1 ht
  obtain ⟨-, -, -, -, -, fphase, -⟩ := stepped_fixed v c len
  exact ⟨fphase.trans hph, hle⟩

/-- LZ_ENC stops at a command of its sequence: those before it run to their end, and it raises the fault of the whole,
which is not E_SEQ. -/
structure StopsAt (s : State) (f : FaultCode) (info : Word) (v : State) (n : Nat) (pre : List Instr) (i : Instr)
    (post : List Instr) (u : State) : Prop where
  sequence : encSequence n = pre ++ i :: post
  before : runAll pre s = .ok u
  stops : runOf i u = .raise f info v
  whole : lzEncRun s = .raise f info v
  ne_seq : f ≠ .seq

/-- Everything LZ_ENC can do, in terms of its sequence. -/
theorem lzEncRun_cases (s : State) :
    (∃ n t, n ≤ s.lzLen.toNat ∧ lzEncRun s = .ok t ∧ runAll (encSequence n) s = .ok t) ∨
      ∃ f info v n pre i post u, n ≤ s.lzLen.toNat ∧ StopsAt s f info v n pre i post u := by
  cases hbegin : lzBeginRun s with
  | raise f info v =>
    refine .inr ⟨f, info, v, 0, [], .lzBegin, _, s, Nat.zero_le _, rfl, rfl, hbegin, ?_, lzBeginRun_fault_ne_seq hbegin⟩
    rw [lzEncRun, hbegin, Run.andThen_raise]
  | ok a =>
    obtain ⟨-, -, rfl⟩ := lzBeginRun_eq_ok.1 hbegin
    obtain ⟨n, u, hn, hsteps, hend⟩ := lzSteps_cases (begun s).lzLen.toNat (begun s) (Nat.le_add_left _ _)
    obtain ⟨hph, hle⟩ := stepTimes_begun hsteps
    have hsteps' : runAll (.lzBegin :: List.replicate n .lzStep) s = .ok u := by
      rw [runAll_begun hbegin, runAll_replicate, hsteps]
    have hwhole : lzEncRun s =
        (lzSteps (begun s).lzLen.toNat (begun s)).andThen fun b => (lzEndRun b).andThen frRunRun := by
      rw [lzEncRun, hbegin, Run.andThen_ok]
    rcases hend with ⟨hloop, hge⟩ | ⟨f, info, hlt, hpos, hraise, hloop⟩
    · have hpos : u.lzPos = u.lzLen := BitVec.eq_of_toNat_eq (le_antisymm hle hge)
      rw [hloop, Run.andThen_ok] at hwhole
      cases hlast : lzEndRun u with
      | raise f info v =>
        refine .inr ⟨f, info, v, n, .lzBegin :: List.replicate n .lzStep, .lzEnd, [.frRun], u, hn, rfl, hsteps', hlast,
          ?_, lzEndRun_fault_ne_seq hph hpos hlast⟩
        rw [hwhole, hlast, Run.andThen_raise]
      | ok e =>
        rw [hlast, Run.andThen_ok] at hwhole
        have hlast' : runAll (.lzBegin :: List.replicate n .lzStep ++ [.lzEnd]) s = .ok e := by
          rw [runAll_append, hsteps', Run.andThen_ok, runAll, show runOf .lzEnd u = .ok e from hlast]
          rfl
        cases hframe : frRunRun e with
        | raise f info v =>
          refine .inr ⟨f, info, v, n, .lzBegin :: List.replicate n .lzStep ++ [.lzEnd], .frRun, [], e, hn, ?_, hlast',
            hframe, hwhole.trans hframe, frRunRun_fault_ne_seq hframe⟩
          simp
        | ok t =>
          refine .inl ⟨n, t, hn, hwhole.trans hframe, ?_⟩
          have hsplit : encSequence n = (.lzBegin :: List.replicate n .lzStep ++ [.lzEnd]) ++ [.frRun] := by simp
          rw [hsplit, runAll_append, hlast', Run.andThen_ok, runAll, show runOf .frRun e = .ok t from hframe]
          rfl
    · refine .inr ⟨f, info, u, n + 1, .lzBegin :: List.replicate n .lzStep, .lzStep, [.lzEnd, .frRun], u, hlt, ?_,
        hsteps', hraise, ?_, lzStepRun_fault_ne_seq hph hpos hraise⟩
      · rw [encSequence, List.replicate_succ']
        simp
      · rw [hwhole, hloop, Run.andThen_raise]

/-- The commands before the one LZ_ENC stops at can be completed one by one, and it then takes the same fault. -/
theorem StopsAt.execAll {s v u : State} {f : FaultCode} {info : Word} {n : Nat} {pre post : List Instr} {i : Instr}
    (h : StopsAt s f info v n pre i post u) :
    ∃ u' v', execAll pre s = some u' ∧ u'.err = s.err ∧ exec i u' = .next (faultEntry f info v') ∧
      v = { v' with busy := v.busy, intStat := v.intStat, gen := v.gen } := by
  cases pre with
  | nil =>
    obtain ⟨rfl, -⟩ := List.cons.inj h.sequence
    obtain rfl := Run.ok.inj h.before
    refine ⟨s, v, rfl, rfl, ?_, rfl⟩
    rw [exec_lzBegin, show lzBeginRun s = _ from h.stops, conclude_raise]
  | cons j is =>
    obtain ⟨rfl, htail⟩ := List.cons.inj h.sequence
    have htail : List.replicate n .lzStep ++ [.lzEnd, .frRun] = is ++ i :: post := htail
    have hlater : ∀ k ∈ is ++ i :: post, k ∈ laterPrimitives := by
      rw [← htail]
      refine List.forall_mem_append.2 ⟨fun k => mem_laterPrimitives_of_replicate, fun k => List.mem_cons_of_mem _⟩
    obtain ⟨his, hi⟩ := List.forall_mem_append.1 hlater
    obtain ⟨g, hg⟩ := execAll_begin his h.before
    have herr : u.err = s.err := runAll_err h.before
    refine ⟨finishedAt g u, finishedAt g v, hg, herr, ?_, rfl⟩
    rw [exec_finishedAt (hi i List.mem_cons_self), h.stops, Run.map, conclude_raise]

theorem faultNumber_injective {f f' : FaultCode} (h : faultNumber f = faultNumber f') : f = f' := by
  revert h
  cases f <;> cases f' <;> decide

/-- Settles O25: what LZ_ENC can do in terms of its sequence, and the sequence completed one by one. -/
theorem lzEncIsTheSequenceOfPrimitives : Obligations.LzEncIsTheSequenceOfPrimitives := by
  intro s t h
  rw [exec_lzEnc] at h
  rcases lzEncRun_cases s with ⟨n, v, hn, hrun, hseq⟩ | ⟨f, info, v, n, pre, i, post, u, hn, hstop⟩
  · rw [hrun, conclude_ok] at h
    obtain rfl := Host.Outcome.next.inj h
    have herr := runOf_err .lzEnc s
    rw [show runOf .lzEnc s = .ok v from hrun, Run.state_ok] at herr
    refine ⟨fun _ => ?_, fun hs ht => by simp [herr, hs] at ht⟩
    obtain ⟨g, hg⟩ := execAll_begin (is := List.replicate n .lzStep ++ [.lzEnd, .frRun])
      (List.forall_mem_append.2 ⟨fun k => mem_laterPrimitives_of_replicate, fun k => List.mem_cons_of_mem _⟩) hseq
    exact ⟨n, finishedAt g v, hn, hg, rfl⟩
  · rw [hstop.whole, conclude_raise] at h
    obtain rfl := Host.Outcome.next.inj h
    refine ⟨nofun, fun hs _ => ?_⟩
    have hint := (runOf_record .lzEnc s).2.2
    rw [show runOf .lzEnc s = .raise f info v from hstop.whole, Run.state_raise] at hint
    obtain ⟨u', v', hpre, herr, hexec, hv⟩ := hstop.execAll
    refine ⟨n, pre, i, post, u', faultEntry f info v', hn, hstop.sequence, hpre, herr.trans hs, hexec, rfl, ?_,
      fun hcode => hstop.ne_seq (faultNumber_injective hcode)⟩
    rw [← hint, hv]
    rfl

end Sys2Proof.Machine
end

section
/-! What the output of LZ_ENC and LZ_RAW depends on (46_lzw_composite.md R152 (a)): two encodings of one input under one
configuration go in step, whatever else the two states hold. Settles O27. -/

namespace Sys2Proof.Machine

/-! ### Runs that go in step -/

/-- Where both runs come to their end, they end in states that `R` relates; and under `same` the second comes to its end
if the first does. -/
def RunsAlike (same : Prop) (R : State → State → Prop) (r₁ r₂ : Run) : Prop :=
  ∀ t₁, r₁ = .ok t₁ → (∀ t₂, r₂ = .ok t₂ → R t₁ t₂) ∧ (same → ∃ t₂, r₂ = .ok t₂)

theorem RunsAlike.ok {same : Prop} {R : State → State → Prop} {s₁ s₂ : State} (h : R s₁ s₂) :
    RunsAlike same R (.ok s₁) (.ok s₂) := by
  intro t₁ h₁
  obtain rfl := Run.ok.inj h₁
  exact ⟨fun t₂ h₂ => Run.ok.inj h₂ ▸ h, fun _ => ⟨s₂, rfl⟩⟩

theorem RunsAlike.andThen {same : Prop} {R Q : State → State → Prop} {r₁ r₂ : Run} {k₁ k₂ : State → Run}
    (hr : RunsAlike same R r₁ r₂) (hk : ∀ a b, R a b → RunsAlike same Q (k₁ a) (k₂ b)) :
    RunsAlike same Q (r₁.andThen k₁) (r₂.andThen k₂) := by
  intro t₁ h₁
  obtain ⟨a, ha, h₁⟩ := Run.andThen_eq_ok.1 h₁
  obtain ⟨hrel, hexists⟩ := hr a ha
  refine ⟨fun t₂ h₂ => ?_, fun hsame => ?_⟩
  · obtain ⟨b, hb, h₂⟩ := Run.andThen_eq_ok.1 h₂
    exact (hk a b (hrel b hb) t₁ h₁).1 t₂ h₂
  · obtain ⟨b, hb⟩ := hexists hsame
    obtain ⟨t₂, h₂⟩ := (hk a b (hrel b hb) t₁ h₁).2 hsame
    exact ⟨t₂, by rw [hb, Run.andThen_ok, h₂]⟩

/-! ### Encodings that go in step -/

/-- Two encodings at one point: the same configuration, input, position, valid entries and stream. Under `same` the
parameters are the same too. -/
structure EncodesAlike (same : Prop) (u₁ u₂ : State) : Prop where
  params : same → u₂.params = u₁.params
  phase : u₂.phase = u₁.phase
  palsize : u₂.lzPalsize = u₁.lzPalsize
  maxbits : u₂.lzMaxbits = u₁.lzMaxbits
  len : u₂.lzLen = u₁.lzLen
  pos : u₂.lzPos = u₁.lzPos
  width : u₂.lzW = u₁.lzW
  size : u₂.lzDsize = u₁.lzDsize
  lz : LzOk u₁
  entries : ∀ d, d < u₁.lzDsize.toNat → readDict u₂ d = readDict u₁ d
  input : ∀ i, i < u₁.lzLen.toNat → readSym u₂ i = readSym u₁ i
  bits : u₂.pkBits = u₁.pkBits
  bytes : ∀ i, i < pkBytes u₁ → readPbuf u₂ i = readPbuf u₁ i

/-- One run of bits appended to two packed streams with the same bytes: the bytes stay the same. -/
theorem byteAt_mergeBits_agree {e₁ e₂ : Nat} {l₁ l₂ : List Host.Cell} (base v n : Nat)
    (h : ∀ i, i < ceilDiv base 8 → byteAt e₂ .pbuf l₂ i = byteAt e₁ .pbuf l₁ i) (i : Nat)
    (hi : i < ceilDiv (base + n) 8) :
    byteAt e₂ .pbuf (mergeBits e₂ base v n l₂) i = byteAt e₁ .pbuf (mergeBits e₁ base v n l₁) i := by
  induction n generalizing i with
  | zero => exact h i hi
  | succ n ih =>
    unfold ceilDiv at hi ih
    simp only [mergeBits, byteAt_mergeBit]
    by_cases hnew : (base + n) % 8 = 0
    · simp only [hnew, if_true]
      split
      · rfl
      · exact ih i (by omega)
    · simp only [hnew, if_false]
      rw [ih ((base + n) / 8) (by omega)]
      split
      · rfl
      · exact ih i (by omega)

/-- The bytes after an emission, where the stream and the width before it are the same. -/
theorem readPbuf_emitted_agree {u₁ u₂ : State} {c : Nat} (hbits : u₂.pkBits = u₁.pkBits) (hwidth : u₂.lzW = u₁.lzW)
    (h : ∀ i, i < pkBytes u₁ → readPbuf u₂ i = readPbuf u₁ i) (i : Nat) (hi : i < pkBytes (emitted c u₁)) :
    readPbuf (emitted c u₂) i = readPbuf (emitted c u₁) i := by
  have hlen : (emitted c u₁).pkBits.toNat ≤ u₁.pkBits.toNat + u₁.lzW.toNat := by
    rw [BitVec.toNat_ofNat]
    exact Nat.mod_le _ _
  have hmerged := byteAt_mergeBits_agree (e₁ := u₁.epoch) (e₂ := u₂.epoch) (l₁ := u₁.pbuf) (l₂ := u₂.pbuf)
    u₁.pkBits.toNat c u₁.lzW.toNat h i (hi.trans_le (ceilDiv_mono hlen 8))
  rw [← hbits, ← hwidth] at hmerged
  rw [hbits, hwidth] at hmerged
  simp only [readPbuf, hbits, hwidth]
  exact hmerged

/-- An emission of one code keeps two encodings in step, but for what it does not write. -/
theorem EncodesAlike.emit_bits {same : Prop} {u₁ u₂ : State} (h : EncodesAlike same u₁ u₂) (c : Nat) :
    (emitted c u₂).pkBits = (emitted c u₁).pkBits := by
  simp only [h.bits, h.width]

section
variable {same : Prop} {s₁ s₂ u₁ u₂ : State}

/-- LZ_BEGIN puts two states with one configuration and one input in step. -/
theorem encodesAlike_begun (hcfg : LzConfigOk s₁) (hparams : same → s₂.params = s₁.params)
    (hpal : s₂.lzPalsize = s₁.lzPalsize) (hmax : s₂.lzMaxbits = s₁.lzMaxbits) (hlen : s₂.lzLen = s₁.lzLen)
    (hinput : ∀ i, i < s₁.lzLen.toNat → readSym s₂ i = readSym s₁ i) : EncodesAlike same (begun s₁) (begun s₂) := by
  have hw : (lzInit { s₂ with pkBits := 0 }).lzW = (lzInit { s₁ with pkBits := 0 }).lzW := by
    simp only [lzInit, lzW0, hpal]
  have hsize : (begun s₂).lzDsize = (begun s₁).lzDsize := by
    simp only [lzInit, hpal]
  refine ⟨hparams, rfl, hpal, hmax, hlen, rfl, hw, hsize, lzOk_begun hcfg, fun d hd => ?_, hinput, ?_, fun i hi => ?_⟩
  · obtain ⟨hsizes, -⟩ := lzInit_sizes s₁ hcfg 0
    have hd : d < s₁.lzPalsize.toNat + 2 := hsizes ▸ hd
    have e₁ := readDict_init (s := s₁) (t := begun s₁) (p := s₁.lzPalsize.toNat) rfl rfl d
    have e₂ := readDict_init (s := s₂) (t := begun s₂) (p := s₂.lzPalsize.toNat) rfl rfl d
    rw [hpal] at e₂
    rw [e₁, e₂]
    by_cases hlit : d < s₁.lzPalsize.toNat
    · rw [if_pos hlit, if_pos hlit]
    · rcases (by omega : d = s₁.lzPalsize.toNat ∨ d = s₁.lzPalsize.toNat + 1) with rfl | rfl <;> simp
  · simp only [lzInit, lzW0, hpal]
  · have hempty : pkBytes (lzInit { s₁ with pkBits := 0 }) = 0 := by simp [pkBytes, lzInit, ceilDiv]
    have hbytes := readPbuf_emitted_agree (c := s₁.lzPalsize.toNat) (u₁ := lzInit { s₁ with pkBits := 0 })
      (u₂ := lzInit { s₂ with pkBits := 0 }) rfl hw
      (fun i hi => absurd (hempty ▸ hi) (Nat.not_lt_zero i)) i hi
    have hcode : readPbuf (begun s₂) i =
        readPbuf (emitted s₁.lzPalsize.toNat (lzInit { s₂ with pkBits := 0 })) i := by rw [← hpal]; rfl
    exact hcode.trans hbytes

/-- Two encodings in step find the same match. -/
theorem EncodesAlike.lzMatch_eq (h : EncodesAlike same u₁ u₂) (hph : u₁.phase = .active) (pos : Nat) :
    lzMatch u₂ pos = lzMatch u₁ pos :=
  lzMatch_congr pos h.size h.len (fun c hc => (h.lz.of_active hph).1.seqOf_of_append h.entries c hc) h.input

/-- A match appended in two encodings in step leaves the same valid entries, size and width. -/
theorem EncodesAlike.stepped_dictionary_eq {c len : Nat} (h : EncodesAlike same u₁ u₂) (hph : u₁.phase = .active)
    (hle : u₁.lzPos.toNat + len ≤ u₁.lzLen.toNat) :
    (stepped c len u₂).lzDsize = (stepped c len u₁).lzDsize ∧ (stepped c len u₂).lzW = (stepped c len u₁).lzW ∧
      ∀ d, d < (stepped c len u₁).lzDsize.toNat → readDict (stepped c len u₂) d = readDict (stepped c len u₁) d := by
  obtain ⟨-, hm, hw⟩ := h.lz.of_active hph
  have hle₂ : u₂.lzPos.toNat + len ≤ u₂.lzLen.toNat := by rwa [h.pos, h.len]
  obtain ⟨-, epoch₁, -⟩ := stepped_fixed u₁ c len
  obtain ⟨-, epoch₂, -⟩ := stepped_fixed u₂ c len
  by_cases hroom : u₁.lzPos.toNat + len < u₁.lzLen.toNat ∧ u₁.lzDsize.toNat < 2 ^ u₁.lzMaxbits.toNat
  · have hroom₂ : u₂.lzPos.toNat + len < u₂.lzLen.toNat ∧ u₂.lzDsize.toNat < 2 ^ u₂.lzMaxbits.toNat := by
      rwa [h.pos, h.len, h.size, h.maxbits]
    obtain ⟨dict₁, size₁, width₁⟩ := stepped_of_room (c := c) hle hroom
    obtain ⟨dict₂, size₂, width₂⟩ := stepped_of_room (c := c) hle₂ hroom₂
    obtain ⟨hsucc, -⟩ := grownWidth_toNat hm hw hroom.2
    refine ⟨by rw [size₁, size₂, h.size], by rw [width₁, width₂, h.size, h.width], fun d hd => ?_⟩
    rw [size₁, hsucc] at hd
    rw [readDict_write dict₁ epoch₁, readDict_write dict₂ epoch₂, h.size, h.pos]
    split
    · rw [h.input _ hroom.1]
    · exact h.entries d (by omega)
  · have hroom₂ : ¬(u₂.lzPos.toNat + len < u₂.lzLen.toNat ∧ u₂.lzDsize.toNat < 2 ^ u₂.lzMaxbits.toNat) := by
      rwa [h.pos, h.len, h.size, h.maxbits]
    obtain ⟨dict₁, size₁, width₁⟩ := stepped_of_no_room (c := c) hle hroom
    obtain ⟨dict₂, size₂, width₂⟩ := stepped_of_no_room (c := c) hle₂ hroom₂
    refine ⟨by rw [size₁, size₂, h.size], by rw [width₁, width₂, h.width], fun d hd => ?_⟩
    rw [size₁] at hd
    rw [readDict_same dict₁ epoch₁, readDict_same dict₂ epoch₂, h.entries d hd]

/-- LZ_STEP keeps two encodings in step. -/
theorem EncodesAlike.stepped {c len : Nat} (h : EncodesAlike same u₁ u₂) (hph : u₁.phase = .active)
    (hmatch : lzMatch u₁ u₁.lzPos.toNat = some (c, len)) (hle : u₁.lzPos.toNat + len ≤ u₁.lzLen.toNat) :
    EncodesAlike same (stepped c len u₁) (stepped c len u₂) := by
  obtain ⟨params₁, epoch₁, pal₁, max₁, len₁, phase₁, symbuf₁, -, bits₁, pbuf₁⟩ := stepped_fixed u₁ c len
  obtain ⟨params₂, epoch₂, pal₂, max₂, len₂, phase₂, symbuf₂, -, bits₂, pbuf₂⟩ := stepped_fixed u₂ c len
  obtain ⟨-, pos₁⟩ := stepped_lzLast_lzPos c len u₁
  obtain ⟨-, pos₂⟩ := stepped_lzLast_lzPos c len u₂
  obtain ⟨hsize, hwidth, hentries⟩ := h.stepped_dictionary_eq (c := c) hph hle
  refine ⟨fun hsame => by rw [params₁, params₂, h.params hsame], by rw [phase₁, phase₂, h.phase],
    by rw [pal₁, pal₂, h.palsize], by rw [max₁, max₂, h.maxbits], by rw [len₁, len₂, h.len], by rw [pos₁, pos₂, h.pos],
    hwidth, hsize, h.lz.stepped hph hmatch hle, hentries, fun i hi => ?_, by rw [bits₁, bits₂, h.emit_bits],
    fun i hi => ?_⟩
  · rw [readSym_same symbuf₁ epoch₁, readSym_same symbuf₂ epoch₂, h.input i (len₁ ▸ hi)]
  · rw [pkBytes, bits₁] at hi
    rw [readPbuf, readPbuf, pbuf₁, pbuf₂, epoch₁, epoch₂]
    exact readPbuf_emitted_agree h.bits h.width h.bytes i hi

theorem EncodesAlike.lzStepRun (h : EncodesAlike same u₁ u₂) :
    RunsAlike same (EncodesAlike same) (lzStepRun u₁) (lzStepRun u₂) := by
  intro t₁ h₁
  obtain ⟨hph, hpos, hroom, c, len, hmatch, rfl⟩ := lzStepRun_eq_ok.1 h₁
  have hlen := (lzMatch_eq_some hmatch).2.2.1
  have hle : u₁.lzPos.toNat + len ≤ u₁.lzLen.toNat := by omega
  have hmatch₂ : lzMatch u₂ u₂.lzPos.toNat = some (c, len) := by rw [h.pos, h.lzMatch_eq hph, hmatch]
  refine ⟨fun t₂ h₂ => ?_, fun hsame => ⟨Machine.stepped c len u₂, lzStepRun_eq_ok.2 ⟨h.phase.trans hph, ?_, ?_, c, len,
    hmatch₂, rfl⟩⟩⟩
  · obtain ⟨-, -, -, c', len', hmatch', rfl⟩ := lzStepRun_eq_ok.1 h₂
    obtain ⟨rfl, rfl⟩ := Prod.mk.inj (Option.some.inj (hmatch₂.symm.trans hmatch'))
    exact h.stepped hph hmatch hle
  · rwa [h.pos, h.len]
  · rwa [h.bits, h.width, h.params hsame]

theorem EncodesAlike.lzSteps (h : EncodesAlike same u₁ u₂) (fuel : Nat) :
    RunsAlike same (EncodesAlike same) (lzSteps fuel u₁) (lzSteps fuel u₂) := by
  induction fuel generalizing u₁ u₂ with
  | zero => exact .ok h
  | succ fuel ih =>
    unfold Machine.lzSteps
    rw [h.pos, h.len]
    split
    · exact h.lzStepRun.andThen fun a b hab => ih hab
    · exact .ok h

theorem EncodesAlike.lzEndRun (h : EncodesAlike same u₁ u₂) :
    RunsAlike same (EncodesAlike same) (lzEndRun u₁) (lzEndRun u₂) := by
  intro t₁ h₁
  have hlz := h.lz.lzEndRun h₁
  obtain ⟨hph, hpos, hroom, rfl⟩ := lzEndRun_eq_ok.1 h₁
  refine ⟨fun t₂ h₂ => ?_, fun hsame => ⟨closed u₂, lzEndRun_eq_ok.2 ⟨h.phase.trans hph, ?_, ?_, rfl⟩⟩⟩
  · obtain ⟨-, -, -, rfl⟩ := lzEndRun_eq_ok.1 h₂
    rw [h.palsize]
    exact ⟨h.params, rfl, h.palsize, h.maxbits, h.len, h.pos, h.width, h.size, hlz, h.entries, h.input,
      h.emit_bits (u₁.lzPalsize.toNat + 1), readPbuf_emitted_agree (c := u₁.lzPalsize.toNat + 1) h.bits h.width h.bytes⟩
  · rw [h.pos, h.len, hpos]
  · rwa [h.bits, h.width, h.params hsame]

/-! ### The framed output -/

/-- Two states hold the same framed output. -/
structure SameOutput (t₁ t₂ : State) : Prop where
  length : t₂.obLen = t₁.obLen
  bytes : ∀ i, i < t₁.obLen.toNat → readObuf t₂ i = readObuf t₁ i

theorem EncodesAlike.pkBytes_eq (h : EncodesAlike same u₁ u₂) : pkBytes u₂ = pkBytes u₁ := by
  rw [pkBytes, h.bits, pkBytes]

/-- The framed output is a function of the packed stream. -/
theorem EncodesAlike.frRunRun (h : EncodesAlike same u₁ u₂) :
    RunsAlike same SameOutput (frRunRun u₁) (frRunRun u₂) := by
  intro t₁ h₁
  obtain ⟨hroom, rfl⟩ := frRunRun_eq_ok.1 h₁
  refine ⟨fun t₂ h₂ => ?_, fun hsame => ⟨framed u₂, frRunRun_eq_ok.2 ⟨?_, rfl⟩⟩⟩
  · obtain ⟨-, rfl⟩ := frRunRun_eq_ok.1 h₂
    have hpacked : packedBytes u₂ (pkBytes u₂) = packedBytes u₁ (pkBytes u₁) := by
      rw [h.pkBytes_eq]
      exact List.map_congr_left fun i hi => h.bytes i (List.mem_range.1 hi)
    refine ⟨?_, fun i hi => ?_⟩
    · rw [framed, framed, hpacked]
      rfl
    · have hlt : i < (frame (packedBytes u₁ (pkBytes u₁))).length :=
        hi.trans_le (by rw [framed, storeFramed, BitVec.toNat_ofNat]; exact Nat.mod_le _ _)
      have hbyte : ∀ u : State, readObuf (framed u) i =
          ((frame (packedBytes u (pkBytes u)))[i]?).getD (readObuf u i) := fun u =>
        byteAt_writeMany_zero _ _ _ _ _
      rw [hbyte, hbyte, hpacked, List.getElem?_eq_getElem hlt, Option.getD_some, Option.getD_some]
  · rwa [h.pkBytes_eq, h.params hsame]

/-! ### LZ_ENC -/

theorem lzBeginRun_alike (hparams : same → s₂.params = s₁.params) (hpal : s₂.lzPalsize = s₁.lzPalsize)
    (hmax : s₂.lzMaxbits = s₁.lzMaxbits) (hlen : s₂.lzLen = s₁.lzLen)
    (hinput : ∀ i, i < s₁.lzLen.toNat → readSym s₂ i = readSym s₁ i) :
    RunsAlike same (EncodesAlike same) (lzBeginRun s₁) (lzBeginRun s₂) := by
  intro t₁ h₁
  obtain ⟨hcfg, hroom, rfl⟩ := lzBeginRun_eq_ok.1 h₁
  refine ⟨fun t₂ h₂ => ?_, fun hsame => ⟨begun s₂, lzBeginRun_eq_ok.2 ⟨?_, ?_, rfl⟩⟩⟩
  · obtain ⟨-, -, rfl⟩ := lzBeginRun_eq_ok.1 h₂
    exact encodesAlike_begun hcfg hparams hpal hmax hlen hinput
  · unfold LzConfigOk
    rwa [hpal, hmax, hlen, hparams hsame]
  · simp only [lzInit, lzW0, hpal, hparams hsame] at hroom ⊢
    exact hroom

/-- LZ_ENC on two states with one configuration and one input leaves one output. -/
theorem lzEncRun_alike (hparams : same → s₂.params = s₁.params) (hpal : s₂.lzPalsize = s₁.lzPalsize)
    (hmax : s₂.lzMaxbits = s₁.lzMaxbits) (hlen : s₂.lzLen = s₁.lzLen)
    (hinput : ∀ i, i < s₁.lzLen.toNat → readSym s₂ i = readSym s₁ i) :
    RunsAlike same SameOutput (lzEncRun s₁) (lzEncRun s₂) := by
  refine (lzBeginRun_alike hparams hpal hmax hlen hinput).andThen fun a b hab => ?_
  rw [hab.len]
  exact (hab.lzSteps _).andThen fun _ _ hcd => hcd.lzEndRun.andThen fun _ _ hef => hef.frRunRun

/-! ### LZ_RAW -/

/-- The layout of the chunks says every byte below OB_LEN. -/
theorem RawLayout.sameOutput {p n : Nat} {t₁ t₂ : State} (h₁ : RawLayout p n s₁ t₁) (h₂ : RawLayout p n s₂ t₂)
    (hinput : ∀ k, k < n → readSym s₂ k = readSym s₁ k) : SameOutput t₁ t₂ := by
  have hlen : t₂.obLen = t₁.obLen := BitVec.eq_of_toNat_eq (h₂.length.trans h₁.length.symm)
  refine ⟨hlen, fun i hi => ?_⟩
  rw [h₁.length] at hi
  by_cases hbody : i < n + 2 * ceilDiv n 126
  · by_cases hhead : i % 128 < 2
    · have hc : i / 128 < ceilDiv n 126 := by unfold ceilDiv at hbody ⊢; omega
      obtain ⟨hsize₁, hclear₁⟩ := h₁.headers _ hc
      obtain ⟨hsize₂, hclear₂⟩ := h₂.headers _ hc
      rcases (by omega : i = 128 * (i / 128) ∨ i = 128 * (i / 128) + 1) with e | e <;> rw [e] <;>
        apply BitVec.eq_of_toNat_eq
      · rw [hsize₁, hsize₂]
      · rw [hclear₁, hclear₂]
    · obtain ⟨j, hj, e⟩ : ∃ j, j < n ∧ i = j + 2 * (j / 126) + 2 :=
        ⟨126 * (i / 128) + (i % 128 - 2), by unfold ceilDiv at hbody; omega, by omega⟩
      rw [e, h₁.symbols j hj, h₂.symbols j hj, hinput j hj]
  · obtain ⟨two₁, clear₁, end₁, term₁⟩ := h₁.closing
    obtain ⟨two₂, clear₂, end₂, term₂⟩ := h₂.closing
    rw [hlen] at two₂ clear₂ end₂ term₂
    have hend := h₁.length
    rcases (by omega : i = t₁.obLen.toNat - 4 ∨ i = t₁.obLen.toNat - 3 ∨ i = t₁.obLen.toNat - 2 ∨
      i = t₁.obLen.toNat - 1) with e | e | e | e <;> rw [e]
    · exact BitVec.eq_of_toNat_eq (two₂.trans two₁.symm)
    · exact BitVec.eq_of_toNat_eq (clear₂.trans clear₁.symm)
    · exact BitVec.eq_of_toNat_eq (end₂.trans end₁.symm)
    · rw [term₁, term₂]

/-- LZ_RAW on two states with one palette size and one input leaves one output. -/
theorem lzRawRun_alike (hlegal₁ : s₁.params.Legal) (hlegal₂ : s₂.params.Legal) (hparams : same → s₂.params = s₁.params)
    (hpal : s₂.lzPalsize = s₁.lzPalsize) (hlen : s₂.lzLen = s₁.lzLen)
    (hinput : ∀ i, i < s₁.lzLen.toNat → readSym s₂ i = readSym s₁ i) :
    RunsAlike same SameOutput (lzRawRun s₁) (lzRawRun s₂) := by
  intro t₁ h₁
  obtain ⟨hcfg₁, hroom₁, hsmall₁, rfl⟩ := lzRawRun_eq_ok.1 h₁
  refine ⟨fun t₂ h₂ => ?_, fun hsame => ⟨rawWritten s₂, lzRawRun_eq_ok.2 ⟨⟨?_, ?_, ?_⟩, ?_, fun k hk => ?_, rfl⟩⟩⟩
  · obtain ⟨hcfg₂, hroom₂, hsmall₂, rfl⟩ := lzRawRun_eq_ok.1 h₂
    have hlayout₂ := rawLayout_rawWritten hlegal₂ hcfg₂.palette_le hroom₂ hsmall₂
    rw [hpal, hlen] at hlayout₂
    exact (rawLayout_rawWritten hlegal₁ hcfg₁.palette_le hroom₁ hsmall₁).sameOutput hlayout₂ hinput
  · exact hpal ▸ hcfg₁.palette_ge
  · exact hpal ▸ hcfg₁.palette_le
  · rw [hlen, hparams hsame]
    exact hcfg₁.input_le
  · rw [rawLength, hlen, hparams hsame]
    exact hroom₁
  · rw [hlen] at hk
    rw [hpal, hinput k hk]
    exact hsmall₁ k hk

end

/-- Outside the ERR state, a command that does not end there ran to its end. -/
theorem exists_ok_of_exec_quiet {i : Instr} (hi : i ≠ .rst) {s t : State} (h : exec i s = .next t)
    (ht : t.err = false) : ∃ v, runOf i s = .ok v ∧ t = finish v := by
  rcases exec_outcome h with ⟨hrst, -⟩ | ⟨v, -, hv, rfl⟩ | ⟨f, info, v, -, -, rfl⟩
  · exact absurd hrst hi
  · exact ⟨v, hv, rfl⟩
  · cases ht

/-- Settles O27: the runs of LZ_ENC, and those of LZ_RAW, go in step. -/
theorem encodedOutputDependsOnTheInputOnly : Obligations.EncodedOutputDependsOnTheInputOnly := by
  intro s₁ s₂ t₁ hlegal₁ hlegal₂ hpal hlen hinput
  have hinput' : ∀ i, i < s₁.lzLen.toNat → readSym s₂ i = readSym s₁ i := fun i hi => (hinput i hi).symm
  refine ⟨fun hmax h₁ hph₁ => ?enc, fun hs₁ hs₂ h₁ he₁ => ?raw⟩
  case enc =>
    obtain ⟨v₁, hv₁, rfl⟩ := exists_ok_of_exec_lzEnc_ended h₁ hph₁
    obtain ⟨hsame, hexists⟩ := lzEncRun_alike (same := s₁.params = s₂.params) Eq.symm hpal.symm hmax.symm hlen.symm
      hinput' v₁ hv₁
    refine ⟨fun hp => ?_, fun t₂ h₂ hph₂ => ?_⟩
    · obtain ⟨v₂, hv₂⟩ := hexists hp
      exact ⟨finish v₂, by rw [exec_lzEnc, hv₂, conclude_ok], (finish_phase v₂).trans (lzEncRun_phase hv₂)⟩
    · obtain ⟨v₂, hv₂, rfl⟩ := exists_ok_of_exec_lzEnc_ended h₂ hph₂
      exact ⟨(hsame v₂ hv₂).length, (hsame v₂ hv₂).bytes⟩
  case raw =>
    obtain ⟨v₁, hv₁, rfl⟩ := exists_ok_of_exec_quiet (i := .lzRaw) (by decide) h₁ he₁
    obtain ⟨hsame, hexists⟩ := lzRawRun_alike (same := s₁.params = s₂.params) hlegal₁ hlegal₂ Eq.symm hpal.symm
      hlen.symm hinput' v₁ hv₁
    refine ⟨fun hp => ?_, fun t₂ h₂ he₂ => ?_⟩
    · obtain ⟨v₂, hv₂⟩ := hexists hp
      have herr := runOf_err .lzRaw s₂
      rw [show runOf .lzRaw s₂ = .ok v₂ from hv₂, Run.state_ok] at herr
      exact ⟨finish v₂, by rw [exec_lzRaw, hv₂, conclude_ok], herr.trans hs₂⟩
    · obtain ⟨v₂, hv₂, rfl⟩ := exists_ok_of_exec_quiet (i := .lzRaw) (by decide) h₂ he₂
      exact ⟨(hsame v₂ hv₂).length, (hsame v₂ hv₂).bytes⟩

end Sys2Proof.Machine
end

section
/-! Which accesses of the host a state permits (20_memory.md R51, R52, R55; 10_state.md R17, R30, R40). Settles O38,
O39, O40, O41. -/

namespace Sys2Proof.Machine

/-! ### The access through its target -/

theorem hostRead_isSome {s : State} {off n : Nat} :
    (hostRead s off n).isSome = true ↔ ∃ g, accessTarget s off n = some g ∧ readPermitted s g = true := by
  unfold hostRead
  cases accessTarget s off n with
  | none => simp
  | some g => cases hp : readPermitted s g <;> simp [hp]

theorem hostWrite_isSome {s : State} {off n : Nat} {v : Word} :
    (hostWrite s off n v).isSome = true ↔ ∃ g, accessTarget s off n = some g ∧ writePermitted s g v = true := by
  unfold hostWrite
  cases accessTarget s off n with
  | none => simp
  | some g => cases hp : writePermitted s g v <;> simp [hp]

/-- Nothing is written in the BUSY-state. -/
theorem hostWrite_of_busy {s : State} (hb : s.busy = true) (off n : Nat) (v : Word) : hostWrite s off n v = none := by
  rw [← Option.not_isSome_iff_eq_none, hostWrite_isSome]
  rintro ⟨g, -, hp⟩
  simp [writePermitted, hb] at hp

/-- A write that succeeds names a location of column `host access` RW. -/
theorem hostWritable_of_hostWrite {s : State} {off n : Nat} {v : Word} (h : (hostWrite s off n v).isSome = true) :
    ∃ g, targetAt s.params off = some g ∧ hostWritable g = true := by
  obtain ⟨g, hg, hp⟩ := hostWrite_isSome.1 h
  refine ⟨g, (accessTarget_eq_some.1 hg).2.2.1, ?_⟩
  unfold writePermitted at hp
  split_ifs at hp
  · obtain ⟨rfl, -⟩ : g = .reg .cmd ∧ v = 1 := by simpa using hp
    rfl
  · exact (Bool.and_eq_true_iff.1 hp).1

/-! ### The BUSY-state (20_memory.md R55) -/

/-- The ten registers of the BUSY-state stand at the offsets up to 0x024, and no unit takes them away. -/
theorem regReadableBusy_iff (r : Reg) : regReadableBusy r = true ↔ regOffset r ≤ 0x24 := by
  cases r <;> decide

theorem regPresent_of_regReadableBusy {r : Reg} (p : Params) (h : regReadableBusy r = true) :
    regPresent p r = true := by
  cases r <;> first | rfl | cases h

/-- No hole of the map stands below 0x028. -/
theorem exists_reg_of_low {off : Nat} (ha : off % 4 = 0) (hle : off ≤ 0x24) : ∃ r, off = regOffset r := by
  have hmapped : ∀ k < 10, (regAt (4 * k)).isSome = true := by decide
  obtain ⟨r, hr⟩ := Option.isSome_iff_exists.1 (hmapped (off / 4) (by omega))
  exact ⟨r, by rw [← regAt_eq_some.1 hr]; omega⟩

theorem readPermitted_of_busy {s : State} (hb : s.busy = true) {g : Target} :
    readPermitted s g = true ↔ ∃ r, g = .reg r ∧ regReadableBusy r = true := by
  unfold readPermitted
  rw [if_pos hb]
  cases g with
  | reg r => simp
  | ct k => simp
  | dict c => simp
  | byte m i => simp

/-- Settles O38: in the BUSY-state an access reaches only the registers up to 0x024, and writes none. -/
theorem busyStateAdmitsTenRegisterReads : Obligations.BusyStateAdmitsTenRegisterReads := by
  intro s off n hb
  refine ⟨hostRead_isSome.trans ⟨?_, ?_⟩, hostWrite_of_busy hb off n⟩
  · rintro ⟨g, hg, hp⟩
    obtain ⟨r, rfl, hr⟩ := (readPermitted_of_busy hb).1 hp
    obtain ⟨rfl, rfl, -⟩ := accessTarget_eq_reg.1 hg
    exact ⟨rfl, (regOffset_lt r).2, (regReadableBusy_iff r).1 hr⟩
  · rintro ⟨rfl, ha, hle⟩
    obtain ⟨r, rfl⟩ := exists_reg_of_low ha hle
    have hr := (regReadableBusy_iff r).2 hle
    exact ⟨.reg r, accessTarget_eq_reg.2 ⟨rfl, rfl, regPresent_of_regReadableBusy _ hr⟩,
      (readPermitted_of_busy hb).2 ⟨r, rfl, hr⟩⟩

/-! ### The ERR-state (20_memory.md R55; 60_exceptions.md R167) -/

/-- The value of a read is known by the bytes it takes. -/
theorem hostBytes_congr {s t : State} {m : Space} (h : ∀ i, hostByte t m i = hostByte s m i) (i n : Nat) :
    hostBytes t m i n = hostBytes s m i n := by
  induction n generalizing i with
  | zero => rfl
  | succ n ih => rw [hostBytes, hostBytes, h, ih]

/-- The flag ERR is seen in STATUS only. -/
theorem readTarget_err (s : State) (e : Bool) {g : Target} (n : Nat) (h : g ≠ .reg .status) :
    readTarget { s with err := e } g n = readTarget s g n := by
  cases g with
  | reg r => cases r <;> first | rfl | exact absurd rfl h
  | ct k => rfl
  | dict c => rfl
  | byte m i => exact congrArg (BitVec.ofNat 32) (hostBytes_congr (fun j => by cases m <;> rfl) i n)

theorem hostRead_err (s : State) (e : Bool) {off : Nat} (n : Nat) (h : off ≠ 0x018) :
    hostRead { s with err := e } off n = hostRead s off n := by
  have htarget : accessTarget { s with err := e } off n = accessTarget s off n := rfl
  unfold hostRead
  rw [htarget]
  cases hg : accessTarget s off n with
  | none => rfl
  | some g =>
    have hne : g ≠ .reg .status := by
      rintro rfl
      exact h (accessTarget_eq_reg.1 hg).2.1
    simp only [readTarget_err s e n hne]
    rfl

/-- Settles O39: a read sees the ERR flag in STATUS only, and a write succeeds as the acceptance of RST only. -/
theorem errStateAdmitsReadsAndRstOnly : Obligations.ErrStateAdmitsReadsAndRstOnly := by
  intro s off n hb he
  refine ⟨fun hoff => (hostRead_err s false n hoff).symm, ?_, fun v => ⟨fun hw => ?_, ?_⟩⟩
  · refine (hostRead_reg (r := .status) rfl (.inr rfl)).trans (congrArg some ?_)
    rw [readReg, statusWord, hb, he]
    cases s.phase <;> rfl
  · obtain ⟨t, ht⟩ := Option.isSome_iff_exists.1 hw
    rcases (hostWrite_cases ht).2 with ⟨-, hoff, hn, hv, -⟩ | ⟨hno, -⟩
    · exact ⟨hoff, hn, hv⟩
    · exact absurd (he.symm.trans hno) (by decide)
  · rintro ⟨rfl, rfl, rfl⟩
    rw [hostWrite_cmd, if_pos ⟨hb, fun _ => rfl⟩]
    rfl

/-! ### The lock of ACTIVE (20_memory.md R55; 10_state.md R26) -/

/-- A locked location takes a write exactly outside ACTIVE. -/
theorem hostWrite_isSome_of_locked {s : State} {off n : Nat} {g : Target} (v : Word) (hb : s.busy = false)
    (he : s.err = false) (hg : accessTarget s off n = some g) (hw : hostWritable g = true)
    (hl : lockedWhileActive g = true) : (hostWrite s off n v).isSome = true ↔ s.phase ≠ .active := by
  rw [hostWrite_isSome, hg]
  simp [writePermitted, hb, he, hw, hl]

/-- Settles O40: the three registers and the bytes of SYMBUF are the locked locations. -/
theorem configurationAndSymbufLockedWhileActive : Obligations.ConfigurationAndSymbufLockedWhileActive := by
  intro s off n v hb he hlegal hloc
  rcases hloc with ⟨rfl, rfl | rfl | rfl⟩ | ⟨hn, ha, hbase, hcap⟩
  · exact hostWrite_isSome_of_locked v hb he (accessTarget_eq_reg (r := .lzPalsize).2 ⟨rfl, rfl, rfl⟩) rfl rfl
  · exact hostWrite_isSome_of_locked v hb he (accessTarget_eq_reg (r := .lzMaxbits).2 ⟨rfl, rfl, rfl⟩) rfl rfl
  · exact hostWrite_isSome_of_locked v hb he (accessTarget_eq_reg (r := .lzLen).2 ⟨rfl, rfl, rfl⟩) rfl rfl
  · obtain ⟨i, rfl⟩ := Nat.exists_eq_add_of_le hbase
    have hg := accessTarget_byte ((targetAt_byte hlegal i).1 (by omega)) hn ha
    exact hostWrite_isSome_of_locked v hb he hg rfl rfl

/-! ### What is mapped (20_memory.md R51; 10_state.md R17, R30, R40) -/

theorem targetAt_ct_range {p : Params} {off k : Nat} (h : targetAt p off = some (.ct k)) :
    0x400 ≤ off ∧ off < 0x800 ∧ p.hasCtm = true := by
  unfold targetAt at h
  split_ifs at h with h₁ h₂ h₃
  · split at h
    · split_ifs at h
      cases h
    · cases h
  · exact ⟨h₂.1, h₂.2, h₃⟩
  all_goals cases h

theorem targetAt_dict_range {p : Params} {off c : Nat} (h : targetAt p off = some (.dict c)) :
    0x4000 ≤ off ∧ off < 0x8000 := by
  unfold targetAt at h
  split_ifs at h with h₁ h₂ h₃ h₄
  · split at h
    · split_ifs at h
      cases h
    · cases h
  · cases h
  · exact h₄
  all_goals cases h

/-- The offsets of the registers the host can only read, column `access` of 10_state.md R17. -/
def readOnlyOffsets : List Nat :=
  [0x000, 0x004, 0x008, 0x00C, 0x010, 0x014, 0x018, 0x028, 0x02C, 0x044, 0x048, 0x04C, 0x058, 0x05C, 0x060, 0x07C,
    0x080, 0x084, 0x088, 0x08C]

/-- The holes of the map below its last register (10_state.md R30). -/
def holeOffsets : List Nat :=
  [0x030, 0x034, 0x038, 0x03C, 0x064, 0x068, 0x06C, 0x090, 0x094, 0x098, 0x09C, 0x0B4, 0x0B8, 0x0BC]

theorem regOffset_not_readOnly {r : Reg} (h : regWritable r = true) : regOffset r ∉ readOnlyOffsets := by
  revert h
  cases r <;> decide

theorem regOffset_not_hole (r : Reg) : regOffset r ∉ holeOffsets ∧ regOffset r < 0xC8 := by
  cases r <;> decide

/-- The registers of the optional units, by offset (10_state.md R28, R40). -/
theorem hasUnit_of_regPresent {p : Params} {r : Reg} (h : regPresent p r = true) :
    (regOffset r ∈ [0x0A0, 0x0A4, 0x0A8] → p.hasCtm = true) ∧
      (regOffset r ∈ [0x0C0, 0x0C4] → p.hasPlut = true) ∧
      (regOffset r ∈ [0x0AC, 0x0B0] → p.hasCtm = true ∨ p.hasPlut = true) := by
  cases r <;> simp_all [regOffset, regPresent]

/-- The locations the host can write, by offset: not the read-only registers, DICT, PBUF and OBUF. -/
theorem offset_of_hostWritable {p : Params} (hlegal : p.Legal) {off : Nat} {g : Target}
    (hg : targetAt p off = some g) (hw : hostWritable g = true) :
    off ∉ readOnlyOffsets ∧ ¬ (0x4000 ≤ off ∧ off < 0x8000) ∧ off < 0x40000 := by
  have hlow : 0x100 ≤ off → off ∉ readOnlyOffsets := by
    intro hoff hmem
    have : ∀ o ∈ readOnlyOffsets, o < 0x100 := by decide
    exact absurd (this off hmem) (by omega)
  cases g with
  | reg r =>
    obtain ⟨rfl, -⟩ := targetAt_eq_reg.1 hg
    have hlt := (regOffset_lt r).1
    exact ⟨regOffset_not_readOnly hw, by omega, by omega⟩
  | ct k =>
    have := targetAt_ct_range hg
    exact ⟨hlow (by omega), by omega, by omega⟩
  | dict c => cases hw
  | byte m i =>
    have hbase := (byteWindow_aligned hlegal m).1
    obtain ⟨rfl, hi⟩ := (targetAt_eq_byte hlegal).1 hg
    obtain ⟨⟨-, hsym, -⟩, ⟨-, hu, -⟩, -, -⟩ := hlegal
    refine ⟨hlow (by omega), by omega, ?_⟩
    cases m with
    | symbuf => simp only [byteBase, byteCap] at hi ⊢; omega
    | ubuf => simp only [byteBase, byteCap] at hi ⊢; omega
    | pbuf => cases hw
    | obuf => cases hw

/-- The offsets that are mapped: a register of a unit that is present, CT where it is, DICT, or a byte window up to its
capacity. -/
theorem offset_of_targetAt {p : Params} (hlegal : p.Legal) {off : Nat} {g : Target} (hg : targetAt p off = some g) :
    (∃ r, off = regOffset r ∧ regPresent p r = true) ∨ (0x400 ≤ off ∧ off < 0x800 ∧ p.hasCtm = true) ∨
      (0x4000 ≤ off ∧ off < 0x8000) ∨ ∃ m, byteBase m ≤ off ∧ off < byteBase m + byteCap p m := by
  cases g with
  | reg r => exact .inl ⟨r, targetAt_eq_reg.1 hg⟩
  | ct k => exact .inr (.inl (targetAt_ct_range hg))
  | dict c => exact .inr (.inr (.inl (targetAt_dict_range hg)))
  | byte m i =>
    obtain ⟨rfl, hi⟩ := (targetAt_eq_byte hlegal).1 hg
    exact .inr (.inr (.inr ⟨m, by omega, by omega⟩))

/-- The offsets no access reaches: holes, what stands beyond a capacity, and the locations of an absent unit. -/
def Unmapped (p : Params) (off : Nat) : Prop :=
  off ∈ holeOffsets ∨ (0x0C8 ≤ off ∧ off < 0x400) ∨ (0x800 ≤ off ∧ off < 0x4000) ∨
    (0x8000 ≤ off ∧ off < 0x10000) ∨ (0x10000 + p.symCap ≤ off ∧ off < 0x20000) ∨
    (0x20000 + p.uCap ≤ off ∧ off < 0x40000) ∨ (0x40000 + p.pCap ≤ off ∧ off < 0x60000) ∨ 0x60000 + p.oCap ≤ off ∨
    (p.hasCtm = false ∧ (off ∈ [0x0A0, 0x0A4, 0x0A8] ∨ (0x400 ≤ off ∧ off < 0x800))) ∨
    (p.hasPlut = false ∧ off ∈ [0x0C0, 0x0C4]) ∨
    (p.hasCtm = false ∧ p.hasPlut = false ∧ off ∈ [0x0AC, 0x0B0])

theorem not_unmapped_of_reg {p : Params} {r : Reg} (hp : regPresent p r = true) : ¬ Unmapped p (regOffset r) := by
  obtain ⟨hhole, hlt⟩ := regOffset_not_hole r
  obtain ⟨hctm, hplut, hboth⟩ := hasUnit_of_regPresent hp
  unfold Unmapped
  rintro (h | h | h | h | h | h | h | h | ⟨habsent, h | h⟩ | ⟨habsent, h⟩ | ⟨hnoctm, hnoplut, h⟩)
  · exact hhole h
  iterate 7 omega
  · exact Bool.false_ne_true (habsent.symm.trans (hctm h))
  · omega
  · exact Bool.false_ne_true (habsent.symm.trans (hplut h))
  · rcases hboth h with hyes | hyes
    · exact Bool.false_ne_true (hnoctm.symm.trans hyes)
    · exact Bool.false_ne_true (hnoplut.symm.trans hyes)

/-- From 0x400 on only the gaps between the windows, what stands beyond a capacity, and an absent CT are unmapped. -/
theorem gap_of_unmapped {p : Params} {off : Nat} (h : Unmapped p off) (hoff : 0x400 ≤ off) :
    (0x800 ≤ off ∧ off < 0x4000) ∨ (0x8000 ≤ off ∧ off < 0x10000) ∨ (0x10000 + p.symCap ≤ off ∧ off < 0x20000) ∨
      (0x20000 + p.uCap ≤ off ∧ off < 0x40000) ∨ (0x40000 + p.pCap ≤ off ∧ off < 0x60000) ∨
      0x60000 + p.oCap ≤ off ∨ (p.hasCtm = false ∧ off < 0x800) := by
  have hnot : ∀ l : List Nat, (∀ o ∈ l, o < 0x400) → off ∉ l := fun l hl hmem => absurd (hl off hmem) (by omega)
  have hhole := hnot holeOffsets (by decide)
  have hctm := hnot [0x0A0, 0x0A4, 0x0A8] (by decide)
  have hplut := hnot [0x0C0, 0x0C4] (by decide)
  have hboth := hnot [0x0AC, 0x0B0] (by decide)
  have hgap : ¬ (0xC8 ≤ off ∧ off < 0x400) := by omega
  simp only [Unmapped, hhole, hctm, hplut, hboth, hgap, false_or, and_false, or_false] at h
  simpa only [hoff, true_and] using h

theorem not_unmapped_of_targetAt {p : Params} (hlegal : p.Legal) {off : Nat} {g : Target}
    (hg : targetAt p off = some g) : ¬ Unmapped p off := by
  intro h
  rcases offset_of_targetAt hlegal hg with ⟨r, rfl, hp⟩ | ⟨hge, hlt, hctm⟩ | ⟨hge, hlt⟩ | ⟨m, hge, hlt⟩
  · exact not_unmapped_of_reg hp h
  · have hgap := gap_of_unmapped h hge
    simp only [hctm, Bool.true_eq_false, false_and, or_false] at hgap
    omega
  · have hgap := gap_of_unmapped h (by omega)
    omega
  · obtain ⟨⟨-, hsym, -⟩, ⟨-, hu, -⟩, ⟨-, hpb, -⟩, -⟩ := hlegal
    cases m with simp only [byteBase, byteCap] at hge hlt
    | _ =>
      have hgap := gap_of_unmapped h (by omega)
      omega

/-- Settles O41: a write that succeeds names a writable location, an access that reaches one names a mapped one. -/
theorem readOnlyAndUnmappedLocationsRefuse : Obligations.ReadOnlyAndUnmappedLocationsRefuse := by
  intro s off n v hlegal
  refine ⟨fun hro => ?_, fun hun => host_refuses_of_no_target v fun g hg => ?_⟩
  · rw [← Option.not_isSome_iff_eq_none]
    intro hw
    obtain ⟨g, hg, hgw⟩ := hostWritable_of_hostWrite hw
    obtain ⟨hreg, hdict, hbyte⟩ := offset_of_hostWritable hlegal hg hgw
    rcases hro with h | h | h
    · exact hreg h
    · exact hdict h
    · omega
  · obtain ⟨-, -, ht, -⟩ := accessTarget_eq_some.1 hg
    exact not_unmapped_of_targetAt hlegal ht hun

end Sys2Proof.Machine
end

section
/-! The registers as the host reads and writes them (10_state.md R17 to R30; 60_exceptions.md R170; 40_control.md R86;
70_reset_and_hazards.md R186). Settles O8, O10, O42, O44, O47. -/

namespace Sys2Proof.Machine

/-! ### Reset -/

/-- Settles O8: RST is the reset of the registers and nothing more. -/
theorem rstResetsRegistersAndKeepsMemories : Obligations.RstResetsRegistersAndKeepsMemories :=
  ⟨rfl, fun s => ⟨softReset s, rfl, rfl⟩⟩

/-- CAP says which of the two units are present (10_state.md R18). -/
theorem capWord_eq (p : Params) :
    capWord p = 0xC0 ||| (if p.hasCtm then 1 else 0) ||| (if p.hasPlut then 2 else 0) := by
  unfold capWord
  cases p.hasCtm <;> cases p.hasPlut <;> rfl

/-- Settles O10: the reset state is not busy, so that every register that is present is read; the registers that are
computed are those of an empty stream, of nothing to pop, and of a palette size of 0. -/
theorem hardwareResetGivesTheResetRegisters : Obligations.HardwareResetGivesTheResetRegisters := by
  intro s rest h
  refine ⟨hardwareReset { s with inputs := rest }, step_of_hardwareReset h, rfl, rfl, fun r hctm hboth hplut => ?_⟩
  have hp : regPresent s.params r = true := by
    cases r <;> simp_all [regPresent]
  refine (hostRead_reg (s := hardwareReset { s with inputs := rest }) hp (.inl rfl)).trans (congrArg some ?_)
  cases r with
  | cap => exact capWord_eq s.params
  | pkBytes => simp [readReg, pkBytes, ceilDiv]
  | pkTail => simp [readReg, pkTail, pkBytes, ceilDiv]
  | upRemb => simp [readReg, upRemb]
  | _ => rfl

/-! ### Words and their fields -/

theorem and_ones (v : Word) : v &&& 0xFFFFFFFF = v := by
  rw [show (0xFFFFFFFF : Word) = BitVec.allOnes 32 from rfl, BitVec.and_allOnes]

/-- The low bits of a word, as a field of a register and as a mask. -/
theorem setWidth_setWidth_eq_and (v : Word) {k : Nat} (hk : k ≤ 32) :
    (v.setWidth k).setWidth 32 = v &&& BitVec.ofNat 32 (2 ^ k - 1) := by
  apply BitVec.eq_of_toNat_eq
  have hlt : 2 ^ k ≤ 2 ^ 32 := Nat.pow_le_pow_right (by decide) hk
  have hmod : v.toNat % 2 ^ k < 2 ^ k := Nat.mod_lt _ (Nat.two_pow_pos k)
  rw [BitVec.toNat_and, BitVec.toNat_setWidth, BitVec.toNat_setWidth, BitVec.toNat_ofNat,
    Nat.mod_eq_of_lt (by omega : 2 ^ k - 1 < 2 ^ 32), Nat.and_two_pow_sub_one_eq_mod, Nat.mod_eq_of_lt (by omega)]

theorem ofBool_getLsbD_eq_and (v : Word) : (BitVec.ofBool (v.getLsbD 0)).setWidth 32 = v &&& 0x1 := by
  refine Eq.trans ?_ (setWidth_setWidth_eq_and v (k := 1) (by decide))
  congr 1
  apply BitVec.eq_of_getLsbD_eq
  intro j hj
  obtain rfl : j = 0 := by omega
  simp

/-- The word of a field at bit 0 and a field from bit `k` on, bit by bit. -/
theorem ofNat_two_fields_getLsbD {m n k j : Nat} (a : BitVec m) (b : BitVec n) (hmk : m ≤ k) (hj : j < 32) :
    (BitVec.ofNat 32 (a.toNat + 2 ^ k * b.toNat)).getLsbD j = if j < k then a.getLsbD j else b.getLsbD (j - k) := by
  have ha : a.toNat < 2 ^ k := a.isLt.trans_le (Nat.pow_le_pow_right (by decide) hmk)
  rw [BitVec.getLsbD_ofNat, Nat.add_comm, Nat.testBit_two_pow_mul_add _ ha, BitVec.testBit_toNat, BitVec.testBit_toNat]
  simp [hj]

theorem intWord_getLsbD (b : IntBits) :
    (intWord b).getLsbD 0 = b.done ∧ (intWord b).getLsbD 1 = b.err ∧ (intWord b).toNat < 4 := by
  obtain ⟨done, err⟩ := b
  cases done <;> cases err <;> decide

theorem intWord_intBitsOf (v : Word) : intWord (intBitsOf v) = v &&& 0x3 := by
  obtain ⟨hdone, herr, hlt⟩ := intWord_getLsbD (intBitsOf v)
  apply BitVec.eq_of_getLsbD_eq
  intro j hj
  rcases (by omega : j = 0 ∨ j = 1 ∨ 2 ≤ j) with rfl | rfl | hge
  · rw [hdone]
    simp [intBitsOf]
  · rw [herr]
    simp [intBitsOf]
  · have hmask : (0x3 : Word).getLsbD j = false :=
      Nat.testBit_lt_two_pow
        (lt_of_lt_of_le (by decide : (0x3 : Word).toNat < 2 ^ 2) (Nat.pow_le_pow_right (by decide) hge))
    have hhigh : (intWord (intBitsOf v)).getLsbD j = false :=
      Nat.testBit_lt_two_pow (lt_of_lt_of_le (by omega : _ < 2 ^ 2) (Nat.pow_le_pow_right (by decide) hge))
    rw [BitVec.getLsbD_and, hmask, hhigh, Bool.and_false]

/-- PZ_CFG keeps the bits [2:0] and [11:8] of what is written (10_state.md R29). -/
theorem pzCfgWord_of_fields {s : State} {v : Word} (hlevel : s.pzLevel = v.extractLsb' 0 3)
    (habits : s.pzAbits = v.extractLsb' 8 4) : pzCfgWord s = v &&& 0xF07 := by
  apply BitVec.eq_of_getLsbD_eq
  intro j hj
  rw [pzCfgWord, ofNat_two_fields_getLsbD _ _ (by decide) hj, hlevel, habits]
  interval_cases j <;> simp

/-! ### Writing a register (10_state.md R30) -/

/-- What a register reads as does not depend on the model's own counter. -/
theorem readReg_gen (u : State) (g : Nat) (r : Reg) : readReg { u with gen := g } r = readReg u r := by
  cases r <;> rfl

/-- The write of a register other than CMD stores its field, and is read back. -/
theorem writesField_reg {s : State} {r : Reg} {v mask : Word} {u : State} (hb : s.busy = false) (he : s.err = false)
    (hp : regPresent s.params r = true) (hw : regWritable r = true) (hl : s.phase = .active → regLocked r = false)
    (hcmd : r ≠ .cmd) (hu : writeReg s r v = u) (hread : readReg u r = v &&& mask) :
    WritesField s (regOffset r) v mask u := by
  subst hu
  have hbusy := (writeReg_cmd_busy hcmd s v).2.trans hb
  have hparams : (writeReg s r v).params = s.params := by rw [writeReg_frame]
  refine ⟨_, hostWrite_reg v hp hw hb he hl, writeMoves_eq _ _ _, ?_⟩
  rw [hostRead_reg (by rw [writeMoves_params, hparams, hp]) (.inl ((writeMoves_busy _ _ _).trans hbusy)), writeMoves_eq,
    readReg_gen, hread]

/-- Settles O42: each register has its field and its mask. -/
theorem registersReadBackTheirImplementedBits : Obligations.RegistersReadBackTheirImplementedBits := by
  intro s v hb he
  have hword := (and_ones v).symm
  refine ⟨⟨?_, ?_, ?_, ?_⟩, fun hph => ⟨?_, ?_, ?_⟩, fun hctm => ⟨?_, ?_, ?_⟩, fun hunit => ⟨?_, ?_⟩,
    fun hplut => ⟨?_, ?_⟩⟩
  · exact writesField_reg (r := .intEn) hb he rfl rfl (fun _ => rfl) (by decide) rfl (intWord_intBitsOf v)
  · exact writesField_reg (r := .pkData) hb he rfl rfl (fun _ => rfl) (by decide) rfl hword
  · exact writesField_reg (r := .upLen) hb he rfl rfl (fun _ => rfl) (by decide) rfl hword
  · exact writesField_reg (r := .upPos) hb he rfl rfl (fun _ => rfl) (by decide) rfl hword
  · exact writesField_reg (r := .lzPalsize) hb he rfl rfl (absurd · hph) (by decide) rfl
      (setWidth_setWidth_eq_and v (by decide))
  · exact writesField_reg (r := .lzMaxbits) hb he rfl rfl (absurd · hph) (by decide) rfl
      (setWidth_setWidth_eq_and v (by decide))
  · exact writesField_reg (r := .lzLen) hb he rfl rfl (absurd · hph) (by decide) rfl hword
  · exact writesField_reg (r := .ctBpp) hb he hctm rfl (fun _ => rfl) (by decide) rfl
      (setWidth_setWidth_eq_and v (by decide))
  · exact writesField_reg (r := .pxIn) hb he hctm rfl (fun _ => rfl) (by decide) rfl hword
  · exact writesField_reg (r := .pxMask) hb he hctm rfl (fun _ => rfl) (by decide) rfl (ofBool_getLsbD_eq_and v)
  · exact writesField_reg (r := .color) hb he (Bool.or_eq_true_iff.2 hunit) rfl (fun _ => rfl) (by decide) rfl hword
  · exact writesField_reg (r := .colorT) hb he (Bool.or_eq_true_iff.2 hunit) rfl (fun _ => rfl) (by decide) rfl
      (ofBool_getLsbD_eq_and v)
  · exact writesField_reg (r := .pzCfg) hb he hplut rfl (fun _ => rfl) (by decide) rfl (pzCfgWord_of_fields rfl rfl)
  · exact writesField_reg (r := .tuple) hb he hplut rfl (fun _ => rfl) (by decide) rfl hword

/-- Settles O44: both writes are those of a register that is always there. -/
theorem interruptBitsAndOutput : Obligations.InterruptBitsAndOutput := by
  refine fun s v => ⟨fun hb he => ⟨⟨_, hostWrite_reg (r := .intStat) v rfl rfl hb he fun _ => rfl, writeMoves_eq _ _ _⟩,
    ⟨_, hostWrite_reg (r := .intEn) v rfl rfl hb he fun _ => rfl, writeMoves_eq _ _ _⟩⟩, ?_⟩
  rw [irq, Bool.or_eq_true, Bool.and_eq_true, Bool.and_eq_true]

/-! ### Reading a register (10_state.md R19 to R29) -/

/-- STATUS: [0] BUSY, [1] ERR, [3:2] 0, from [4] on LZ_PHASE (10_state.md R19). -/
theorem statusWord_fields (s : State) :
    (statusWord s).getLsbD 0 = s.busy ∧ (statusWord s).getLsbD 1 = s.err ∧ (statusWord s).extractLsb' 2 2 = 0 ∧
      ((statusWord s).toNat / 16 = match s.phase with
        | .idle => 0
        | .active => 1
        | .ended => 2) := by
  unfold statusWord
  cases s.busy <;> cases s.err <;> cases s.phase <;> decide

theorem setWidth_ofBool (b : Bool) : (BitVec.ofBool b).setWidth 32 = (if b then 1 else 0 : Word) := by
  cases b <;> rfl

/-- PZ_CFG packs two fields (10_state.md R29). -/
theorem pzCfgWord_toNat (s : State) : (pzCfgWord s).toNat = s.pzLevel.toNat + 2 ^ 8 * s.pzAbits.toNat := by
  have hl := s.pzLevel.isLt
  have ha := s.pzAbits.isLt
  rw [pzCfgWord, BitVec.toNat_ofNat, Nat.mod_eq_of_lt (by omega)]

theorem pkTail_eq (s : State) :
    pkTail s = if s.pkBits = 0 then 0 else readPbuf s ((s.pkBits.toNat + 7) / 8 - 1) := by
  unfold pkTail pkBytes ceilDiv
  by_cases h : s.pkBits = 0
  · simp [h]
  · have hpos : 0 < s.pkBits.toNat := Nat.pos_of_ne_zero fun h0 => h (BitVec.eq_of_toNat_eq h0)
    rw [if_pos (by omega), if_neg h]
    rfl

/-- LZ_W0: one bit over the width of a palette index, at least 2, and 0 where LZ_PALSIZE is out of range. -/
theorem lzW0_eq (s : State) :
    lzW0 s = if s.lzPalsize.toNat = 0 ∨ 256 < s.lzPalsize.toNat then 0 else max 2 (clog2 s.lzPalsize.toNat + 1) := by
  rw [lzW0, initialWidth, palMax]

theorem lzW0_le_nine (s : State) : lzW0 s ≤ 9 := by
  rw [lzW0_eq]
  split_ifs with h
  · decide
  · have hclog : clog2 s.lzPalsize.toNat ≤ 8 := (clog2_le _ _).2 (by omega)
    omega

/-- A register that holds a number reads as that number where it fits a word. -/
theorem exists_hostRead_toNat {s : State} {off k : Nat} (h : hostRead s off 4 = some (BitVec.ofNat 32 k))
    (hk : k < 2 ^ 32) : ∃ w, hostRead s off 4 = some w ∧ w.toNat = k :=
  ⟨_, h, by rw [BitVec.toNat_ofNat, Nat.mod_eq_of_lt hk]⟩

/-- Settles O47: a read of a register that is there returns its word. -/
theorem statusAndDerivedRegisters : Obligations.StatusAndDerivedRegisters := by
  refine ⟨fun s => ⟨⟨_, hostRead_reg (r := .status) rfl (.inr rfl), statusWord_fields s⟩,
    ⟨_, hostRead_reg (r := .intStat) rfl (.inr rfl), intWord_getLsbD _⟩,
    ⟨_, hostRead_reg (r := .intEn) rfl (.inr rfl), intWord_getLsbD _⟩⟩,
    fun s hb => ⟨?always, fun hctm => ?ctm, fun hunit => ?shared, fun hplut => ⟨?_, ?_⟩⟩, fun s _ _ hb => ?derived⟩
  case always =>
    have hread : ∀ {r : Reg}, regPresent s.params r = true → hostRead s (regOffset r) 4 = some (readReg s r) :=
      fun hp => hostRead_reg hp (.inl hb)
    simp only [List.forall_mem_cons, List.not_mem_nil, IsEmpty.forall_iff, implies_true, and_true]
    exact ⟨hread (r := .errCode) rfl, hread (r := .errInfo) rfl, hread (r := .pkData) rfl, hread (r := .pkBits) rfl,
      hread (r := .upLen) rfl, hread (r := .upPos) rfl, hread (r := .upData) rfl, hread (r := .obLen) rfl,
      hread (r := .lzPalsize) rfl, hread (r := .lzMaxbits) rfl, hread (r := .lzLen) rfl, hread (r := .lzPos) rfl,
      hread (r := .lzW) rfl, hread (r := .lzDsize) rfl, hread (r := .lzLast) rfl⟩
  case ctm =>
    simp only [List.forall_mem_cons, List.not_mem_nil, IsEmpty.forall_iff, implies_true, and_true]
    exact ⟨hostRead_reg (r := .ctBpp) hctm (.inl hb), hostRead_reg (r := .pxIn) hctm (.inl hb),
      (hostRead_reg (r := .pxMask) hctm (.inl hb)).trans (congrArg some (setWidth_ofBool _))⟩
  case shared =>
    have hp := Bool.or_eq_true_iff.2 hunit
    simp only [List.forall_mem_cons, List.not_mem_nil, IsEmpty.forall_iff, implies_true, and_true]
    exact ⟨hostRead_reg (r := .color) hp (.inl hb),
      (hostRead_reg (r := .colorT) hp (.inl hb)).trans (congrArg some (setWidth_ofBool _))⟩
  · exact ⟨_, hostRead_reg (r := .pzCfg) hplut (.inl hb), pzCfgWord_toNat s⟩
  · exact hostRead_reg (r := .tuple) hplut (.inl hb)
  case derived =>
    have hbits := s.pkBits.isLt
    have hlen := s.upLen.isLt
    have hw := lzW0_le_nine s
    refine ⟨exists_hostRead_toNat (hostRead_reg (r := .pkBytes) rfl (.inl hb)) ?_,
      ⟨_, hostRead_reg (r := .pkTail) rfl (.inl hb), ?_⟩,
      exists_hostRead_toNat (hostRead_reg (r := .upRemb) rfl (.inl hb)) ?_, ?_⟩
    · omega
    · rw [readReg, pkTail_eq, BitVec.toNat_setWidth]
      split_ifs
      · rfl
      · exact Nat.mod_eq_of_lt ((BitVec.isLt _).trans (by decide))
    · omega
    · rw [← lzW0_eq]
      exact exists_hostRead_toNat (hostRead_reg (r := .lzW0) rfl (.inl hb)) (by omega)

end Sys2Proof.Machine
end

section
/-! The memories through their windows (10_state.md R31 to R37; 20_memory.md R51, R53), and what transfers of the host
add up to (20_memory.md R56, R60). Settles O43, O45, O46, O49, O50. -/

namespace Sys2Proof.Machine

/-! ### The byte memories (20_memory.md R53) -/

/-- Settles O46: the window of a memory shows its bytes, of PBUF and OBUF the valid ones. -/
theorem byteWindowsShowTheirMemories : Obligations.ByteWindowsShowTheirMemories := by
  intro s i n hb hlegal hn ha
  obtain ⟨hsym, hu, hpb, ho⟩ := targetAt_byte hlegal i
  have haligned : ∀ m, (byteBase m + i) % n = 0 := by
    intro m
    have hbase := (byteWindow_aligned hlegal m).2.1
    rcases hn with rfl | rfl | rfl <;> omega
  refine ⟨fun hi => ?_, fun hi => ?_, fun hi => ?_, fun hi => ?_⟩
  · exact hostRead_bytes (hsym hi) hn (haligned .symbuf) hb
  · exact hostRead_bytes (hu hi) hn (haligned .ubuf) hb
  · obtain ⟨w, hw, hlt, hbytes⟩ := hostRead_bytes (hpb hi) hn (haligned .pbuf) hb
    exact ⟨w, hw, hlt, fun k hk hvalid => (hbytes k hk).trans (if_pos hvalid)⟩
  · obtain ⟨w, hw, hlt, hbytes⟩ := hostRead_bytes (ho hi) hn (haligned .obuf) hb
    exact ⟨w, hw, hlt, fun k hk hvalid => (hbytes k hk).trans (if_pos hvalid)⟩

/-- A write the state permits, by its target. -/
theorem hostWrite_of_target {s : State} {off n : Nat} {g : Target} (v : Word) (hb : s.busy = false)
    (he : s.err = false) (hg : accessTarget s off n = some g) (hw : hostWritable g = true)
    (hl : s.phase = .active → lockedWhileActive g = false) :
    hostWrite s off n v = some (writeMoves g s (writeTarget s g n v)) := by
  have hp : writePermitted s g v = true := by
    by_cases hph : s.phase = .active
    · simp [writePermitted, hb, he, hw, hl hph]
    · simp [writePermitted, hb, he, hw, hph]
  rw [hostWrite, hg]
  simp only [hp, if_true]

/-- Where the bytes of `v` stand from index `i` on, reads inside them return their parts of `v`. -/
theorem readsBackParts_of_bytes {t : State} {m : Space} {i n : Nat} {v : Word} (hlegal : t.params.Legal)
    (hb : t.busy = false) (hcap : i + n ≤ byteCap t.params m)
    (hbytes : ∀ k, k < n → hostByte t m (i + k) = v.extractLsb' (8 * k) 8) :
    ReadsBackParts t (byteBase m + i) n v := by
  intro o c hc ha hge hle
  obtain ⟨d, rfl⟩ := Nat.exists_eq_add_of_le hge
  have htarget : targetAt t.params (byteBase m + i + d) = some (.byte m (i + d)) :=
    (targetAt_eq_byte hlegal).2 ⟨Nat.add_assoc _ _ _, by omega⟩
  obtain ⟨w, hw, hlt, hread⟩ := hostRead_bytes htarget hc ha hb
  rw [hw, Nat.add_sub_cancel_left]
  refine congrArg some (eq_part_of_bytes hlt fun k hk => ?_)
  rw [hread k hk, Nat.add_assoc, hbytes (d + k) (by omega)]

/-- Byte `k` of SYMBUF or UBUF after a write of the low `n` bytes of `v` at index `i`. -/
theorem hostByte_writeTarget (s : State) {m : Space} {i : Nat} (n : Nat) (v : Word)
    (hw : hostWritable (.byte m i) = true) (k : Nat) :
    hostByte (writeMoves (.byte m i) s (writeTarget s (.byte m i) n v)) m k =
      if i ≤ k ∧ k < i + n then v.extractLsb' (8 * (k - i)) 8 else hostByte s m k := by
  rw [writeMoves_eq]
  cases m with
  | symbuf => exact byteAt_writeMany_bytesOf _ _ _ _ _ _ _
  | ubuf => exact byteAt_writeMany_bytesOf _ _ _ _ _ _ _
  | pbuf => cases hw
  | obuf => cases hw

theorem writeTarget_byte_params_busy (s : State) (m : Space) (i n : Nat) (v : Word) :
    (writeTarget s (.byte m i) n v).params = s.params ∧ (writeTarget s (.byte m i) n v).busy = s.busy := by
  cases m <;> exact ⟨rfl, rfl⟩

/-- What a write the state permits does to the bytes of SYMBUF or UBUF, and what is read back. -/
theorem hostWrite_bytes {s : State} {m : Space} {i n : Nat} (v : Word) (hb : s.busy = false) (he : s.err = false)
    (hlegal : s.params.Legal) (hw : hostWritable (.byte m i) = true)
    (hl : s.phase = .active → lockedWhileActive (.byte m i) = false) (hn : n = 1 ∨ n = 2 ∨ n = 4)
    (ha : (byteBase m + i) % n = 0) (hi : i < byteCap s.params m) :
    ∃ t, hostWrite s (byteBase m + i) n v = some t ∧
      t = writeMoves (.byte m i) s (writeTarget s (.byte m i) n v) ∧
      (∀ k, k < n → hostByte t m (i + k) = v.extractLsb' (8 * k) 8) ∧
      (∀ k, k < i ∨ i + n ≤ k → hostByte t m k = hostByte s m k) ∧ ReadsBackParts t (byteBase m + i) n v := by
  have hg := accessTarget_byte ((targetAt_eq_byte hlegal).2 ⟨rfl, hi⟩) hn ha
  obtain ⟨-, -, -, hfits⟩ := (accessTarget_eq_byte hlegal).1 hg
  obtain ⟨hparams, hbusy⟩ := writeTarget_byte_params_busy s m i n v
  have hwritten : ∀ k, k < n → hostByte (writeMoves (.byte m i) s (writeTarget s (.byte m i) n v)) m (i + k) =
      v.extractLsb' (8 * k) 8 := fun k hk => by
    rw [hostByte_writeTarget s n v hw, if_pos (by omega), Nat.add_sub_cancel_left]
  refine ⟨_, hostWrite_of_target v hb he hg hw hl, rfl, hwritten, fun k hk => ?_,
    readsBackParts_of_bytes ?_ ?_ ?_ hwritten⟩
  · rw [hostByte_writeTarget s n v hw, if_neg (by omega)]
  · rwa [writeMoves_params, hparams]
  · rwa [writeMoves_busy, hbusy]
  · rwa [writeMoves_params, hparams]

/-- Settles O43: SYMBUF and UBUF take the low bytes of the word, one by one. -/
theorem byteMemoriesAreLittleEndian : Obligations.ByteMemoriesAreLittleEndian := by
  intro s off n v hb he hlegal hn ha
  refine ⟨fun hbase hcap hph => ?symbuf, fun hbase hcap => ?ubuf⟩
  case symbuf =>
    obtain ⟨i, rfl⟩ := Nat.exists_eq_add_of_le hbase
    obtain ⟨t, ht, hstate, hin, hout, hparts⟩ := hostWrite_bytes (m := .symbuf) v hb he hlegal rfl (absurd · hph) hn ha
      (by simp only [byteCap]; omega)
    rw [Nat.add_sub_cancel_left]
    exact ⟨t, ht, by rw [hstate, writeMoves_eq]; rfl, hin, hout, hparts⟩
  case ubuf =>
    obtain ⟨i, rfl⟩ := Nat.exists_eq_add_of_le hbase
    obtain ⟨t, ht, hstate, hin, hout, hparts⟩ := hostWrite_bytes (m := .ubuf) v hb he hlegal rfl (fun _ => rfl) hn ha
      (by simp only [byteCap]; omega)
    rw [Nat.add_sub_cancel_left]
    exact ⟨t, ht, by rw [hstate, writeMoves_eq]; rfl, hin, hout, hparts⟩

/-! ### The windows of CT and DICT (10_state.md R31, R32) -/

theorem accessTarget_ct {s : State} {k : Nat} (hctm : s.params.hasCtm = true) (hk : k < 256) :
    accessTarget s (0x400 + 4 * k) 4 = some (.ct k) := by
  refine accessTarget_eq_some.2 ⟨by decide, by omega, ?_, rfl⟩
  rw [targetAt, if_neg (by omega), if_pos (by omega), if_pos hctm, Nat.add_sub_cancel_left,
    Nat.mul_div_cancel_left k (by decide)]

theorem accessTarget_dict (s : State) {c : Nat} (hc : c < 4096) :
    accessTarget s (0x4000 + 4 * c) 4 = some (.dict c) := by
  refine accessTarget_eq_some.2 ⟨by decide, by omega, ?_, rfl⟩
  rw [targetAt, if_neg (by omega), if_neg (by omega), if_pos (by omega), Nat.add_sub_cancel_left,
    Nat.mul_div_cancel_left c (by decide)]

/-- Outside the BUSY-state every location that is reached is read. -/
theorem hostRead_of_target {s : State} {off n : Nat} {g : Target} (hb : s.busy = false)
    (hg : accessTarget s off n = some g) : hostRead s off n = some (readTarget s g n) := by
  rw [hostRead, hg]
  simp [readPermitted, hb]

theorem entryWord_toNat (e : DictEntry) :
    (entryWord e).toNat = e.sym.toNat + 2 ^ 8 * e.pre.toNat + 2 ^ 20 * (kindBits e.kind).toNat := by
  have hs := e.sym.isLt
  have hp := e.pre.isLt
  have hk := (kindBits e.kind).isLt
  rw [entryWord, BitVec.toNat_ofNat, Nat.mod_eq_of_lt (by omega)]

/-- The fields of a DICT word (10_state.md R32). -/
theorem entryWord_fields (e : DictEntry) :
    (entryWord e).toNat / 2 ^ 22 = 0 ∧ (entryWord e).extractLsb' 0 8 = e.sym ∧ (entryWord e).extractLsb' 8 12 = e.pre ∧
      (entryWord e).extractLsb' 20 2 = kindBits e.kind := by
  have hs := e.sym.isLt
  have hp := e.pre.isLt
  have hk := (kindBits e.kind).isLt
  have hw := entryWord_toNat e
  refine ⟨by omega, BitVec.eq_of_toNat_eq ?_, BitVec.eq_of_toNat_eq ?_, BitVec.eq_of_toNat_eq ?_⟩
  all_goals
    rw [BitVec.extractLsb'_toNat, Nat.shiftRight_eq_div_pow, hw]
    omega

/-- Settles O45: CT and DICT are words; the fields of a DICT word are those of the entry. -/
theorem colourTableAndDictionaryWindows : Obligations.ColourTableAndDictionaryWindows := by
  refine ⟨fun s k hb hctm hk => hostRead_of_target hb (accessTarget_ct hctm hk), fun s k v hb he hctm hk => ?ct,
    fun s c hb hc => ?dict⟩
  case ct =>
    have hwrite := hostWrite_of_target v hb he (accessTarget_ct hctm hk) rfl fun _ => rfl
    have hct : ∀ j, readCt (writeMoves (.ct k) s (writeTarget s (.ct k) 4 v)) j = if j = k then v else readCt s j := by
      intro j
      rw [writeMoves_eq]
      simp only [readCt, writeTarget, Memory.lookup_write]
      split_ifs <;> rfl
    have hbusy : (writeMoves (.ct k) s (writeTarget s (.ct k) 4 v)).busy = false := (writeMoves_busy _ _ _).trans hb
    have hunit : (writeMoves (.ct k) s (writeTarget s (.ct k) 4 v)).params.hasCtm = true := by
      rw [writeMoves_params]
      exact hctm
    have hread : hostRead (writeMoves (.ct k) s (writeTarget s (.ct k) 4 v)) (0x400 + 4 * k) 4 = some v :=
      (hostRead_of_target hbusy (accessTarget_ct hunit hk)).trans (congrArg some ((hct k).trans (if_pos rfl)))
    exact ⟨_, hwrite, by rw [writeMoves_eq]; rfl, hread, (hct k).trans (if_pos rfl),
      fun j hj => (hct j).trans (if_neg hj)⟩
  case dict =>
    have hread := hostRead_of_target hb (accessTarget_dict s hc)
    refine ⟨by rw [hread]; rfl, fun hvalid => ⟨entryWord (readDict s c), ?_, ?_⟩⟩
    · rw [hread, readTarget, if_pos hvalid]
    · obtain ⟨hhigh, hsym, hpre, hkind⟩ := entryWord_fields (readDict s c)
      refine ⟨hhigh, hsym, hpre, ?_⟩
      rw [hkind]
      cases (readDict s c).kind <;> rfl

/-! ### Transfers that change nothing (20_memory.md R56, R60) -/

/-- Settles O49: a read changes the response only, and a write is refused. -/
theorem hostCannotDisturbACommand : Obligations.HostCannotDisturbACommand := by
  rintro s t m rest hb hin ⟨addr, size, rfl | ⟨v, rfl⟩⟩ h
  · rw [step_of_read hin, portRead_eq] at h
    cases h
    rfl
  · rw [step_of_write hin, portWrite, hostWrite_of_busy (s := { s with inputs := rest }) hb] at h
    cases h
    rfl

theorem hostWrite_eq_some {s t : State} {off n : Nat} {v : Word} :
    hostWrite s off n v = some t ↔
      ∃ g, accessTarget s off n = some g ∧ writePermitted s g v = true ∧ writeMoves g s (writeTarget s g n v) = t := by
  unfold hostWrite
  cases accessTarget s off n with
  | none => simp
  | some g => cases hp : writePermitted s g v <;> simp [hp]

/-- A write other than to CMD leaves alone what decides which accesses succeed. -/
theorem writeTarget_permission {s : State} {g : Target} (n : Nat) (v : Word) (h : g ≠ .reg .cmd) :
    (writeTarget s g n v).params = s.params ∧ (writeTarget s g n v).busy = s.busy ∧
      (writeTarget s g n v).err = s.err ∧ (writeTarget s g n v).phase = s.phase := by
  cases g with
  | reg r =>
    obtain ⟨-, hbusy⟩ := writeReg_cmd_busy (fun hr => h (congrArg _ hr)) s v
    exact ⟨by rw [writeTarget, writeReg_frame], hbusy, by rw [writeTarget, writeReg_frame],
      by rw [writeTarget, writeReg_frame]⟩
  | ct k => exact ⟨rfl, rfl, rfl, rfl⟩
  | dict c => exact ⟨rfl, rfl, rfl, rfl⟩
  | byte m i => cases m <;> exact ⟨rfl, rfl, rfl, rfl⟩

theorem accessTarget_congr {s t : State} (h : t.params = s.params) (off n : Nat) :
    accessTarget t off n = accessTarget s off n := by
  rw [accessTarget, h, accessTarget]

theorem writePermitted_congr {s t : State} (hb : t.busy = s.busy) (he : t.err = s.err) (hp : t.phase = s.phase)
    (g : Target) (v : Word) : writePermitted t g v = writePermitted s g v := by
  rw [writePermitted, hb, he, hp, writePermitted]

/-- A write other than to CMD that has succeeded succeeds again and changes nothing (20_memory.md R56). -/
theorem hostWrite_again {s t : State} {off n : Nat} {v : Word} (h : hostWrite s off n v = some t) (hoff : off ≠ 0x1C)
    (is : List Input) (p : Response) :
    hostWrite { t with inputs := is, port := p } off n v = some { t with inputs := is, port := p } := by
  obtain ⟨g, hg, hp, rfl⟩ := hostWrite_eq_some.1 h
  have hne : g ≠ .reg .cmd := by
    rintro rfl
    exact hoff (accessTarget_eq_reg.1 hg).2.1
  obtain ⟨hparams, hbusy, herr, hphase⟩ := writeTarget_permission (s := s) n v hne
  rw [writeMoves_eq]
  refine hostWrite_eq_some.2 ⟨g, (accessTarget_congr hparams off n).trans hg,
    (writePermitted_congr hbusy herr hphase g v).trans hp, ?_⟩
  rw [writeTarget_again s n v _ is p hne, writeMoves_self]

/-- A write that is refused is refused whatever is lined up and whatever the last response was. -/
theorem hostWrite_moves_eq_none {s : State} {off n : Nat} {v : Word} (h : hostWrite s off n v = none) (is : List Input)
    (p : Response) : hostWrite { s with inputs := is, port := p } off n v = none := by
  rw [← Option.not_isSome_iff_eq_none, hostWrite_isSome] at h ⊢
  exact h

theorem portRead_again (s : State) (addr : BitVec 19) (size : BitVec 2) (is : List Input) :
    portRead { portRead s addr size with inputs := is } addr size = { portRead s addr size with inputs := is } := by
  cases hr : hostRead s addr.toNat (portBytes size) with
  | none =>
    have hagain := (hostRead_moves s _ _ is .busError).trans hr
    simp only [portRead, hr, hagain]
  | some w =>
    have hagain := (hostRead_moves s _ _ is (.okRead w)).trans hr
    simp only [portRead, hr, hagain]

theorem portWrite_again (s : State) {addr : BitVec 19} (size : BitVec 2) (v : Word) (is : List Input)
    (h : addr ≠ 0x1C) :
    portWrite { portWrite s addr size v with inputs := is } addr size v =
      { portWrite s addr size v with inputs := is } := by
  have hoff : addr.toNat ≠ 0x1C := fun e => h (BitVec.eq_of_toNat_eq e)
  cases hw : hostWrite s addr.toNat (portBytes size) v with
  | none =>
    have hagain := hostWrite_moves_eq_none hw is .busError
    simp only [portWrite, hw, hagain]
  | some t =>
    have hagain := hostWrite_again hw hoff is .okWrite
    simp only [portWrite, hw, hagain]

theorem portRead_inputs (s : State) (addr : BitVec 19) (size : BitVec 2) :
    (portRead s addr size).inputs = s.inputs := by
  rw [portRead_eq]

theorem portWrite_inputs (s : State) (addr : BitVec 19) (size : BitVec 2) (v : Word) :
    (portWrite s addr size v).inputs = s.inputs := by
  unfold portWrite
  cases hw : hostWrite s addr.toNat (portBytes size) v with
  | none => rfl
  | some t => exact (congrArg State.inputs (hostWrite_frame hw) :)

/-- Settles O50: the second transfer finds what the first made, and answers the same. -/
theorem repeatedAccessesAddNothing : Obligations.RepeatedAccessesAddNothing := by
  rintro s t m rest hin ⟨addr, size, rfl | ⟨haddr, v, rfl⟩⟩ h
  · obtain rfl := Host.Outcome.next.inj ((step_of_read hin).symm.trans h)
    rw [step_of_read (portRead_inputs _ addr size), portRead_again]
  · obtain rfl := Host.Outcome.next.inj ((step_of_write hin).symm.trans h)
    rw [step_of_write (portWrite_inputs _ addr size v), portWrite_again _ _ _ _ haddr]

end Sys2Proof.Machine
end

section
/-! Folding and unfolding an opaque colour (43_colour.md R112, R114). Settles O33. -/

namespace Sys2Proof.Machine

/-- A channel shifted to the right and back loses its low bits and no other. -/
theorem shiftLeft_shiftRight_channel (c : Byte) (k : Nat) :
    (c >>> k) <<< k = BitVec.ofNat 8 (c.toNat - c.toNat % 2 ^ k) := by
  have hdiv : c.toNat / 2 ^ k * 2 ^ k = c.toNat - c.toNat % 2 ^ k := by
    have hsplit := Nat.div_add_mod' c.toNat (2 ^ k)
    omega
  apply BitVec.eq_of_toNat_eq
  rw [toNat_channel_shiftLeft, toNat_channel_shiftRight, hdiv, BitVec.toNat_ofNat]

/-- Settles O33: of an opaque colour the tuple holds the four channels shifted, and unfolding shifts them back. -/
theorem unfoldAfterFoldClearsTheLowBits : Obligations.UnfoldAfterFoldClearsTheLowBits := by
  intro i ab col _ _ hopaque
  have hfold : foldColour i ab col false = colourOf (byte3 col >>> alphaShift i ab) (byte2 col >>> i)
      (byte1 col >>> i) (byte0 col >>> i) := if_neg (by simpa using hopaque)
  obtain ⟨h3, h2, h1, h0⟩ := colourOf_channels (byte3 col >>> alphaShift i ab) (byte2 col >>> i) (byte1 col >>> i)
    (byte0 col >>> i)
  rw [unfoldTuple, hfold, h3, h2, h1, h0]
  simp only [shiftLeft_shiftRight_channel]

end Sys2Proof.Machine
end
